-- ==== Sys2Proof/Word.lean ====
section
/-!
DEFINITION. The word types of the CORE (spec 00_scope.md R5) and the plainest arithmetic on them.
-/

namespace Sys2Proof

/-- A byte, and a Symbol: "a byte value, domain 0–255" (`SYM_W = 8`, R5; R47). -/
abbrev Byte := BitVec 8

/-- The width of a length, a count and a host word of space 0 (`CNT_W = 64`, R5; R46). -/
abbrev Word64 := BitVec 64

/-- A node index, `IDX_W = 9` bits: 511 slots plus the value `NIL` (R5). -/
abbrev NodeIndex := BitVec 9

/-- The stored bits of one code, `CLEN_MAX = 255` of them (R5, R32). -/
abbrev CodeBits := BitVec 255

/-- The id of a host-visible space: "the space id has 4 bits" (R46). -/
abbrev SpaceId := BitVec 4

/-- One entry for each of the 256 symbols (R29, R32). -/
abbrev SymTable (α : Type) := Vector α 256

/-- `ceil8(n) = (n + 7) div 8` (R7). -/
def ceil8 (n : Nat) : Nat := (n + 7) / 8

end Sys2Proof
end

