-- ==== Sys2Proof/Config.lean ====
section
/-!
DEFINITION. What an implementation of the CORE fixes (R5, R6), and the free values: constants without a
body, one for each value the spec leaves unspecified.
-/

namespace Sys2Proof

/-- The three byte buffers (R33, R34, R35). -/
inductive Buffer where
  | ibuf
  | pbuf
  | obuf
deriving DecidableEq, Repr

/-- The open parameters of R6, as the read-only registers of R28 hold them. -/
structure Capacities where
  ibuf : Word64
  pbuf : Word64
  obuf : Word64
deriving DecidableEq, Repr

namespace Config

/-- `NIL`, the index of an absent tree or an absent child (R5). -/
def nil : NodeIndex := 511#9

/-- `NODE_MAX`, the number of node slots (R5). -/
abbrev nodeMax : Nat := 511

/-- The largest value of an open parameter (R6). -/
def capMax : Nat := 2 ^ 48

/-- The capacities `State.reset` has. DESIGN CHOICE (notes/assumptions/2.md), unsafe: R6 leaves them
open; these meet the sizing of R6's last sentence. Every statement quantifies over all capacities. -/
def capacities : Capacities where
  ibuf := 65536#64
  pbuf := 65536#64
  obuf := 131072#64

/-- The byte that a buffer cell holds after reset until it is written (R177, U1): unconstrained. The
first argument numbers the reset. -/
opaque unwrittenByte : Nat → Buffer → Nat → Byte

/-- The byte a host read returns at an index of `PBUF` or `OBUF` at or above its length register
(R34, R35, U2): unconstrained, stable from one command to the next (R53). The first argument numbers
the commands executed so far. -/
opaque tailByte : Nat → Buffer → Nat → Byte

/-- The word a host read that is an access error returns (R58, U3): unconstrained, one for each such
read. -/
opaque accessErrorWord : Nat → Word64

end Config

end Sys2Proof
end

