-- ==== Sys2Proof/Syntax.lean ====
section
/-!
DEFINITION. The ten commands of HUF-CMD 1.0, one constructor for each row of spec/opcode_table.json.
-/

namespace Sys2Proof

/-- The commands of R64. None has an operand: every operand is implicit (R65). -/
inductive Instr where
  /-- CLEAR, `0x01` (R74). -/
  | clear
  /-- COUNT, `0x02` (R77). -/
  | count
  /-- BUILD, `0x03` (R83). -/
  | build
  /-- CODES, `0x04` (R94). -/
  | codes
  /-- PACK, `0x05` (R102). -/
  | pack
  /-- SERIALIZE, `0x06` (R123). -/
  | serialize
  /-- DESERIALIZE, `0x07` (R126). -/
  | deserialize
  /-- DECODE, `0x08` (R110). -/
  | decode
  /-- COMPRESS, `0x10` (R141). -/
  | compress
  /-- DECOMPRESS, `0x11` (R142). -/
  | decompress
deriving DecidableEq, Repr

/-- Every command, in the table's order. -/
def Instr.all : List Instr :=
  [.clear, .count, .build, .codes, .pack, .serialize, .deserialize, .decode, .compress, .decompress]

end Sys2Proof
end

