-- ==== Sys2Proof/WellFormed.lean ====
section
/-!
DEFINITION. What the spec requires of a command byte (R64, R67) and of a configuration (R6). An `Instr`
has no operand (R65), so each of its terms is well formed.
-/

namespace Sys2Proof

/-- A command has no field that could be out of range (R65, R66). -/
def Instr.wellFormed : Instr → Bool
  | .clear | .count | .build | .codes | .pack => true
  | .serialize | .deserialize | .decode | .compress | .decompress => true

/-- The reserved opcodes `0x00`, `0x09` to `0x0F` and `0x12` to `0xFF` (R67). -/
def reservedOpcode (op : Byte) : Bool :=
  op == 0x00#8 || (0x09#8 ≤ op && op ≤ 0x0F#8) || 0x12#8 ≤ op

/-- A byte that names a command (R64: "Every other value of `opcode` is reserved"). -/
def commandByteWellFormed (op : Byte) : Bool := !reservedOpcode op

/-- `1 <= value <= 2^48` (R6). -/
def capacityWellFormed (c : Word64) : Bool := decide (1 ≤ c.toNat ∧ c.toNat ≤ Config.capMax)

/-- All three open parameters are in their range (R6). -/
def Capacities.wellFormed (c : Capacities) : Bool :=
  capacityWellFormed c.ibuf && capacityWellFormed c.pbuf && capacityWellFormed c.obuf

end Sys2Proof
end

