-- ==== Sys2Proof/Decode.lean ====
section
/-!
DEFINITION. The command decoder (R63, R64, R66, R67) and, after it, the encoder.
-/

namespace Sys2Proof

/-- What the decoder reads from one byte: a command, or a reserved opcode rejected by its value. -/
inductive Decoded where
  | command (i : Instr)
  | reserved (op : Byte)
deriving DecidableEq, Repr

/-- One row of the opcode map (R64; `match` and `mask` of spec/opcode_table.json). -/
structure OpcodeRow where
  opcode : Byte
  mask : Byte
  command : Instr
deriving DecidableEq, Repr

/-- The opcode map of R64. -/
def opcodeMap : List OpcodeRow :=
  [⟨0x01, 0xFF, .clear⟩, ⟨0x02, 0xFF, .count⟩, ⟨0x03, 0xFF, .build⟩, ⟨0x04, 0xFF, .codes⟩,
   ⟨0x05, 0xFF, .pack⟩, ⟨0x06, 0xFF, .serialize⟩, ⟨0x07, 0xFF, .deserialize⟩,
   ⟨0x08, 0xFF, .decode⟩, ⟨0x10, 0xFF, .compress⟩, ⟨0x11, 0xFF, .decompress⟩]

/-- The row of the opcode map that a byte falls under, if any. -/
def lookupOpcode : List OpcodeRow → Byte → Option Instr
  | [], _ => none
  | r :: rows, op => if op &&& r.mask = r.opcode then some r.command else lookupOpcode rows op

/-- Decoding is total: "a decoder reads one byte and is done" (R66). A byte of no row is reserved
(R67). -/
def decodeByte (op : Byte) : Decoded :=
  match lookupOpcode opcodeMap op with
  | some i => .command i
  | none => .reserved op

/-- The encoder: the opcode of each command (R64). -/
def encode : Instr → Byte
  | .clear => 0x01
  | .count => 0x02
  | .build => 0x03
  | .codes => 0x04
  | .pack => 0x05
  | .serialize => 0x06
  | .deserialize => 0x07
  | .decode => 0x08
  | .compress => 0x10
  | .decompress => 0x11

/-- The instruction of a table word: a command is one byte, and bits above bit 7 are dropped (R63). -/
def decodeTableWord (nbits w : Nat) : Option Instr :=
  match decodeByte (BitVec.ofNat 8 (w % 2 ^ nbits)) with
  | .command i => some i
  | .reserved _ => none

end Sys2Proof
end

