-- ==== Sys2Proof/Machine/State.lean ====
section
/-!
DEFINITION. The state of the CORE (R13) as plain data, the queue of the host's accesses (R59), and the
state after reset (R38, R176).
-/

namespace Sys2Proof.Machine

/-- A byte memory: the cells written since reset, by strictly rising index. An unlisted cell has not been
written; what it reads as is `Config.unwrittenByte` (R177; notes/assumptions/3.md). -/
abbrev Memory := List Host.Cell

/-- `kind` of a node record (R30): 0 `FREE`, 1 `LEAF`, 2 `INTERNAL`; 3 never occurs. -/
inductive NodeKind where
  | free
  | leaf
  | inner
deriving DecidableEq, Repr

/-- One record of the arena `NODE` (R30). -/
structure Node where
  kind : NodeKind
  sym : Byte
  freq : Word64
  left : NodeIndex
  right : NodeIndex
deriving DecidableEq, Repr

/-- `FREE_NODE` (R30). -/
def freeNode : Node where
  kind := .free
  sym := 0
  freq := 0
  left := Config.nil
  right := Config.nil

/-- The arena of node slots 0 to 510 (R30). -/
abbrev NodeTable := Vector Node Config.nodeMax

/-- The architectural state, "and nothing else" (R13). `CMD` stores nothing (R27) and has no field. -/
structure Arch where
  /-- `IBUF` (R33). -/
  ibuf : Memory
  /-- `ILEN` (R16). -/
  ilen : Word64
  /-- `FT` (R29). -/
  ft : SymTable Word64
  /-- `OCNT` (R17). -/
  ocnt : Word64
  /-- `NODE` (R30). -/
  node : NodeTable
  /-- `ROOT` (R21). -/
  root : NodeIndex
  /-- `NLEAF` (R22). -/
  nleaf : NodeIndex
  /-- `CLEN` (R32). -/
  clen : SymTable Byte
  /-- `CODE` (R32). -/
  code : SymTable CodeBits
  /-- `PBUF` (R34). -/
  pbuf : Memory
  /-- `PLEN` (R18). -/
  plen : Word64
  /-- `NBITS` (R19). -/
  nbits : Word64
  /-- `OBUF` (R35). -/
  obuf : Memory
  /-- `OLEN` (R20). -/
  olen : Word64
  /-- `STATUS`: bit 0 `DONE`, bit 1 `ERR` (R23). -/
  status : BitVec 2
  /-- `ERRCODE` (R24). -/
  errcode : Byte
  /-- `ERRINFO` (R25). -/
  errinfo : Word64
  /-- `ERRCMD` (R26). -/
  errcmd : Byte
  /-- `IBUF_CAP`, constant (R28). -/
  ibufCap : Word64
  /-- `PBUF_CAP`, constant (R28). -/
  pbufCap : Word64
  /-- `OBUF_CAP`, constant (R28). -/
  obufCap : Word64
  /-- The model's own: the number of the reset that chose the unwritten bytes (R177). -/
  seed : Nat
deriving DecidableEq, Repr

/-- One action of the host at its port: an access names a pair (space, index) (R46), or the platform
asserts reset (R176). -/
inductive HostAccess where
  | read (space : SpaceId) (index : Nat)
  | write (space : SpaceId) (index : Nat) (value : Word64)
  | reset
deriving DecidableEq, Repr

/-- What the port last answered the host. Its signalling belongs to `HOST_BUS` (R54, R58). -/
inductive HostReply where
  /-- No access since reset. -/
  | idle
  /-- The location read, zero-extended (R50). -/
  | data (value : Word64)
  /-- A write was taken, be it ignored (R55) or not. -/
  | ack
  /-- An access error (R58): the unspecified word of a read, or none for a write. -/
  | accessError (value : Option Word64)
deriving DecidableEq, Repr

/-- The machine's state: the architectural state and, the model's own, the host's port. -/
structure State extends Arch where
  /-- The host's accesses still to come, in the one total order of R59. -/
  pending : List HostAccess
  /-- The answer to the latest access. -/
  reply : HostReply
  /-- How many commands and resets there have been: the bytes above a length register may be others
  after each (U2). -/
  epoch : Nat
  /-- How many reads have been access errors: each returns an unspecified word (U3). -/
  errorReads : Nat
deriving DecidableEq, Repr

/-- Why a step could stop with a fault. It has no constructor: every error of the CORE is recorded in
its status registers (R158), an access error changes nothing (R58), and no command can be stopped by
anything else, so no step of this model faults. -/
inductive Fault where
deriving DecidableEq, Repr

/-- Why a step could refuse. -/
inductive Refusal where
  /-- Raised by an arm of `exec` whose instruction has no meaning yet; safe. No arm raises it now. -/
  | notModelled (mnemonic : String)
deriving DecidableEq, Repr

/-- The architectural state after reset (R38) with capacities `c`; `seed` numbers the reset. -/
def Arch.reset (c : Capacities) (seed : Nat) : Arch where
  ibuf := []
  ilen := 0
  ft := Vector.replicate 256 0
  ocnt := 0
  node := Vector.replicate Config.nodeMax freeNode
  root := Config.nil
  nleaf := 0
  clen := Vector.replicate 256 0
  code := Vector.replicate 256 0
  pbuf := []
  plen := 0
  nbits := 0
  obuf := []
  olen := 0
  status := 0
  errcode := 0
  errinfo := 0
  errcmd := 0
  ibufCap := c.ibuf
  pbufCap := c.pbuf
  obufCap := c.obuf
  seed := seed

/-- The machine after power-on reset with capacities `c`: it waits for the first host access (R176). -/
def State.resetWith (c : Capacities) : State where
  toArch := Arch.reset c 0
  pending := []
  reply := .idle
  epoch := 0
  errorReads := 0

/-- The machine right after reset (R38, R176), with the capacities of `Config.capacities`. -/
def State.reset : State := State.resetWith Config.capacities

end Sys2Proof.Machine
end

