-- ==== Sys2Proof/Machine/Flags.lean ====
section
/-!
DEFINITION. The two flags of the hardware, bits 0 and 1 of `STATUS` (R23), and the error kinds with
their codes (R151).
-/

namespace Sys2Proof.Machine

/-- The six error kinds of R151. -/
inductive ErrorKind where
  | truncatedStream
  | malformedContainer
  | malformedTree
  | capacity
  | noCode
  | illegalCommand
deriving DecidableEq, Repr

/-- The `ERRCODE` value of an error kind (R24, R151). -/
def ErrorKind.errcode : ErrorKind → Byte
  | .truncatedStream => 1
  | .malformedContainer => 2
  | .malformedTree => 3
  | .capacity => 4
  | .noCode => 5
  | .illegalCommand => 6

/-- `STATUS.DONE`, bit 0 (R23). -/
def Arch.done (a : Arch) : Bool := a.status.getLsbD 0

/-- `STATUS.ERR`, bit 1 (R23). -/
def Arch.err (a : Arch) : Bool := a.status.getLsbD 1

/-- `STATUS` with `DONE <- 1` and `ERR` kept (R157). -/
def statusWithDone (st : BitVec 2) : BitVec 2 := st ||| 1#2

/-- `STATUS` after an error entry: `DONE <- 0`, `ERR <- 1` (R158). -/
def statusOfError : BitVec 2 := 2#2

/-- The optional level signal `done = STATUS.DONE` (R165). -/
def State.doneWire (s : State) : Bool := s.done

/-- The optional level signal `err = STATUS.ERR` (R165). -/
def State.errWire (s : State) : Bool := s.err

end Sys2Proof.Machine
end

