-- ==== Sys2Proof/Machine/Operands.lean ====
section
/-!
DEFINITION. The forms a command's implicit operands take: bytes as bits (R49, R52), multi-byte fields
(R51), codes as bit strings (R32), and the tables read by symbol or by slot (R8).
-/

namespace Sys2Proof.Machine

/-- All 256 symbols in ascending order. -/
def allSymbols : List Byte := (List.range 256).map (BitVec.ofNat 8)

/-- `ARR[s]` (R8). -/
def tableGet {α : Type} (t : SymTable α) (s : Byte) : α := t[s.toNat]'s.isLt

/-- `ARR[s] <- v` (R8). -/
def tableSet {α : Type} (t : SymTable α) (s : Byte) (v : α) : SymTable α := t.set s.toNat v s.isLt

/-- `NODE[i]` (R8). There is no slot `NIL`; reading it gives `FREE_NODE`, so that a walk to `NIL` is a walk
to no node. -/
def nodeAt (t : NodeTable) (i : Nat) : Node := t[i]?.getD freeNode

/-- `NODE[i] <- n` (R8). -/
def nodeSet (t : NodeTable) (i : Nat) (n : Node) : NodeTable := t.setIfInBounds i n

/-- The bits of a byte in stream order, the most significant first (R49). -/
def bitsOfByte (b : Byte) : List Bool := (List.range 8).map b.getMsbD

/-- The bits of a byte sequence in stream order, "across byte boundaries in order" (R49, R52). -/
def bitsOfBytes (bs : List Byte) : List Bool := bs.flatMap bitsOfByte

/-- `bit(B, p)`: bit `7 - (p mod 8)` of byte `B[p div 8]` (R52). -/
def streamBit (bs : List Byte) (p : Nat) : Bool := (bs.getD (p / 8) 0).getLsbD (7 - p % 8)

/-- The number whose bit `j` is the `j`-th element: the first bit of a code is the least significant
(R32). -/
def natOfBits : List Bool → Nat
  | [] => 0
  | b :: bs => b.toNat + 2 * natOfBits bs

/-- A code's bit string as `CODE[s]` stores it (R32). -/
def codeOfBits (path : List Bool) : CodeBits := BitVec.ofNat 255 (natOfBits path)

/-- The bit string `c[0..n-1]` that `CLEN[s] = n` and `CODE[s]` stand for (R32). -/
def bitsOfCode (len : Byte) (code : CodeBits) : List Bool :=
  (List.range len.toNat).map code.getLsbD

/-- One byte from at most eight stream bits, the first the most significant, the missing ones 0 (R49,
R103). -/
def byteOfBits (bits : List Bool) : Byte :=
  BitVec.ofNat 8 ((List.range 8).foldl (fun acc j => 2 * acc + (bits.getD j false).toNat) 0)

/-- `n` bytes of a bit stream, eight bits a byte, zero-padded at the tail (R101, R103). -/
def packBits : Nat → List Bool → List Byte
  | 0, _ => []
  | n + 1, bits => byteOfBits (bits.take 8) :: packBits n (bits.drop 8)

/-- `toBE16`, `toBE64`: `v` as `n` bytes, the most significant first (R8, R51). -/
def toBE : Nat → Nat → List Byte
  | 0, _ => []
  | n + 1, v => BitVec.ofNat 8 (v / 256 ^ n) :: toBE n v

/-- `BE16`, `BE64`: the number a byte sequence stands for, the first byte most significant (R8, R51). -/
def ofBE (bs : List Byte) : Nat := bs.foldl (fun acc b => 256 * acc + b.toNat) 0

end Sys2Proof.Machine
end

