-- ==== Sys2Proof/Machine/Ops.lean ====
section
/-!
DEFINITION. The operations every command shares: the byte memories (R8, R47), completion (R157), taking an
error (R158) and the return from one (R164), the gate at issue (R160), and a run of stages (R143).
-/

namespace Sys2Proof.Machine

/-- The canonical form: indices strictly rising. -/
def Memory.wf : Memory → Bool
  | [] => true
  | [_] => true
  | (i, _) :: (j, b) :: rest => decide (i < j) && Memory.wf ((j, b) :: rest)

/-- The byte written at an index since reset, if any. -/
def Memory.find : Memory → Nat → Option Byte
  | [], _ => none
  | (j, b) :: rest, i => if i = j then some b else Memory.find rest i

/-- One byte written, in canonical form. -/
def Memory.put : Memory → Nat → Byte → Memory
  | [], i, v => [(i, v)]
  | (j, b) :: rest, i, v =>
    if i < j then (i, v) :: (j, b) :: rest
    else if i = j then (i, v) :: rest
    else (j, b) :: Memory.put rest i v

/-- `BUF[a]`: the byte written, or the unspecified one the buffer has held since reset (R177). -/
def Memory.read (seed : Nat) (buf : Buffer) (m : Memory) (i : Nat) : Byte :=
  (m.find i).getD (Config.unwrittenByte seed buf i)

/-- `MemWrite(BUF, a, n, v)` (R8). -/
def Memory.write : Memory → Nat → List Byte → Memory
  | m, _, [] => m
  | m, i, b :: bs => Memory.write (Memory.put m i b) (i + 1) bs

/-- `n` bytes from index `i` on, the lowest index first (R8 `MemRead`). -/
def readFrom (rd : Nat → Byte) : (i n : Nat) → List Byte
  | _, 0 => []
  | i, n + 1 => rd i :: readFrom rd (i + 1) n

/-- The byte the storage of `IBUF` holds at an index. -/
def Arch.ibufByte (a : Arch) (i : Nat) : Byte := Memory.read a.seed .ibuf a.ibuf i

/-- The byte the storage of `PBUF` holds at an index; a result only below `PLEN` (R34). -/
def Arch.pbufByte (a : Arch) (i : Nat) : Byte := Memory.read a.seed .pbuf a.pbuf i

/-- The byte the storage of `OBUF` holds at an index; a result only below `OLEN` (R35). -/
def Arch.obufByte (a : Arch) (i : Nat) : Byte := Memory.read a.seed .obuf a.obuf i

/-- `IBUF[0..ILEN)`. -/
def Arch.input (a : Arch) : List Byte := readFrom a.ibufByte 0 a.ilen.toNat

/-- `PBUF[0..PLEN)`. -/
def Arch.payload (a : Arch) : List Byte := readFrom a.pbufByte 0 a.plen.toNat

/-- `OBUF[0..OLEN)`. -/
def Arch.output (a : Arch) : List Byte := readFrom a.obufByte 0 a.olen.toNat

/-- The frequency table with no symbol in it. -/
def emptyTable : SymTable Word64 := Vector.replicate 256 0

/-- The destinations of each command that R158 clears when the command raises an error. -/
def clearDestinations : Instr → Arch → Arch
  | .count, a => { a with ft := emptyTable, ocnt := 0 }
  | .pack, a => { a with plen := 0, nbits := 0 }
  | .serialize, a => { a with olen := 0 }
  | .deserialize, a => { a with ft := emptyTable, ocnt := 0, plen := 0, nbits := 0 }
  | .decode, a => { a with olen := 0 }
  | .clear, a | .build, a | .codes, a | .compress, a | .decompress, a => a

/-- Taking an error: what R158 records, for a given value of `ERRCMD`. -/
def recordError (cmd : Byte) (kind : ErrorKind) (info : Nat) (a : Arch) : Arch :=
  { a with
    status := statusOfError
    errcode := kind.errcode
    errinfo := BitVec.ofNat 64 info
    errcmd := cmd }

/-- `raise <Error>(info)` in a unit command: the error is recorded under the command's own opcode and the
command's destinations are cleared (R158, R26). -/
def raiseError (i : Instr) (kind : ErrorKind) (info : Nat) (a : Arch) : Arch :=
  recordError (encode i) kind info (clearDestinations i a)

/-- The return from an error (R164): the status registers as after reset. -/
def acknowledgeError (a : Arch) : Arch :=
  { a with status := 0, errcode := 0, errinfo := 0, errcmd := 0 }

/-- `complete`: a command that raised no error sets `DONE` (R157). `ERR` is 0 at issue (R160), so `ERR = 1`
here means that this command raised. -/
def complete (a : Arch) : Arch := if a.err then a else { a with status := statusWithDone a.status }

/-- A command other than CLEAR as the host issues it: "no state change" while `ERR = 1` (R63, R160), else one
atomic transition that ends by R157 or R158. -/
def issue (f : Arch → Arch) (s : State) : Host.Outcome State Fault Refusal :=
  if s.err then .next s
  else .next { s with toArch := complete (f s.toArch), epoch := s.epoch + 1 }

/-- A reserved opcode (R67, R156): `IllegalCommandError`, apart from the status registers no change; and none
at all while `ERR = 1` (R160). -/
def issueReserved (op : Byte) (s : State) : Host.Outcome State Fault Refusal :=
  if s.err then .next s
  else .next { s with toArch := recordError op .illegalCommand op.toNat s.toArch }

/-- Stages run in the order written until one raises (R143). -/
def runStages : List (Arch → Arch) → Arch → Arch
  | [], a => a
  | f :: fs, a => if (f a).err then f a else runStages fs (f a)

end Sys2Proof.Machine
end

