-- ==== Sys2Proof/Machine/BitPacker.lean ====
section
/-!
DEFINITION. PACK, the MSB-first bitstream with zero padding (spec 43_bit_packer.md).
-/

namespace Sys2Proof.Machine

/-- The code of a symbol as a bit string, empty when the symbol has none (R32). -/
def Arch.codeBits (a : Arch) (s : Byte) : List Bool :=
  bitsOfCode (tableGet a.clen s) (tableGet a.code s)

/-- The smallest index whose byte has no code (R104). -/
def firstUncoded (clen : SymTable Byte) (input : List Byte) : Option Nat :=
  input.findIdx? fun s => tableGet clen s = 0

/-- "the logical bit sequence `code(IBUF[0]) ++ … ++ code(IBUF[ILEN-1])`" (R102). -/
def Arch.bitStream (a : Arch) : List Bool := a.input.flatMap a.codeBits

/-- The body of PACK (R102): the two checks of pass 1, the capacity check, then the stream. -/
def stagePack (a : Arch) : Arch :=
  if a.ilen.toNat > a.ibufCap.toNat then raiseError .pack .capacity a.ilen.toNat a
  else
    match firstUncoded a.clen a.input with
    | some i => raiseError .pack .noCode i a
    | none =>
      if ceil8 a.bitStream.length > a.pbufCap.toNat then
        raiseError .pack .capacity (ceil8 a.bitStream.length) a
      else
        { a with
          pbuf := Memory.write a.pbuf 0 (packBits (ceil8 a.bitStream.length) a.bitStream)
          plen := BitVec.ofNat 64 (ceil8 a.bitStream.length)
          nbits := BitVec.ofNat 64 a.bitStream.length }

/-- PACK (R102). -/
def execPack (s : State) : Host.Outcome State Fault Refusal := issue stagePack s

end Sys2Proof.Machine
end

