-- ==== Sys2Proof/Machine/BitReader.lean ====
section
/-!
DEFINITION. DECODE, the tree-guided bit-serial decoder (spec 44_bit_reader.md).
-/

namespace Sys2Proof.Machine

/-- How the walk of DECODE ends (R110 step 5). -/
inductive Walked where
  /-- `OCNT` symbols, in the order emitted. -/
  | emitted (out : List Byte)
  /-- The stream ran out after `n` symbols (R114). -/
  | truncated (n : Nat)
  /-- A link to no node after `n` symbols (R115). -/
  | badLink (n : Nat)
deriving DecidableEq, Repr

/-- A symbol emitted before what the walk emits later. -/
def Walked.emit (s : Byte) : Walked → Walked
  | .emitted out => .emitted (s :: out)
  | .truncated n => .truncated n
  | .badLink n => .badLink n

/-- 0 → left child, 1 → right child (R109). -/
def childOf (t : NodeTable) (cur : NodeIndex) (b : Bool) : NodeIndex :=
  if b then (nodeAt t cur.toNat).right else (nodeAt t cur.toNat).left

/-- The loop of R110 step 5 over the bits still unread: `n` symbols are emitted and the last argument says
how many are still wanted. -/
def walk (t : NodeTable) (root : NodeIndex) : List Bool → NodeIndex → Nat → Nat → Walked
  | _, _, _, 0 => .emitted []
  | [], _, n, _ + 1 => .truncated n
  | b :: bits, cur, n, want + 1 =>
    if childOf t cur b = Config.nil ∨ (nodeAt t (childOf t cur b).toNat).kind = .free then .badLink n
    else if (nodeAt t (childOf t cur b).toNat).kind = .leaf then
      (walk t root bits root (n + 1) want).emit (nodeAt t (childOf t cur b).toNat).sym
    else walk t root bits (childOf t cur b) n (want + 1)

/-- `OBUF[k] <- out[k]`, `OLEN <- OCNT` (R110). -/
def storeDecoded (out : List Byte) (a : Arch) : Arch :=
  { a with obuf := Memory.write a.obuf 0 out, olen := a.ocnt }

/-- The body of DECODE, its checks in the order of R111. -/
def stageDecode (a : Arch) : Arch :=
  if a.ocnt = 0 then { a with olen := 0 }
  else if a.ocnt.toNat > a.obufCap.toNat then raiseError .decode .capacity a.ocnt.toNat a
  else if a.root = Config.nil then raiseError .decode .malformedTree 0 a
  else if (nodeAt a.node a.root.toNat).kind = .leaf then
    storeDecoded (List.replicate a.ocnt.toNat (nodeAt a.node a.root.toNat).sym) a
  else
    match walk a.node a.root (bitsOfBytes a.payload) a.root 0 a.ocnt.toNat with
    | .emitted out => storeDecoded out a
    | .truncated n => raiseError .decode .truncatedStream n a
    | .badLink n => raiseError .decode .malformedTree n a

/-- DECODE (R110). -/
def execDecode (s : State) : Host.Outcome State Fault Refusal := issue stageDecode s

end Sys2Proof.Machine
end

