-- ==== Sys2Proof/Machine/Codebook.lean ====
section
/-!
DEFINITION. CODES, the tree traversal to bit strings (spec 42_codebook_encoder.md).
-/

namespace Sys2Proof.Machine

/-- The two arrays of the codebook (R32). -/
structure Codebook where
  clen : SymTable Byte
  code : SymTable CodeBits
deriving DecidableEq, Repr

/-- The codebook with no symbol in it (R98). -/
def Codebook.empty : Codebook where
  clen := Vector.replicate 256 0
  code := Vector.replicate 256 0

/-- `CLEN[s] <- |path|`, `CODE[s][j] <- path[j]` (R94). -/
def Codebook.record (cb : Codebook) (s : Byte) (path : List Bool) : Codebook where
  clen := tableSet cb.clen s (BitVec.ofNat 8 path.length)
  code := tableSet cb.code s (codeOfBits path)

/-- The most nodes on one path from the root: a path has at most 255 edges (R88, R97). -/
def visitDepth : Nat := 256

/-- `visit(i, path)` of R94, to the depth given first. A free slot or `NIL` records nothing; a well-formed
tree has none below its root (R94; notes/assumptions/8.md). -/
def visit (t : NodeTable) : Nat → Nat → List Bool → Codebook → Codebook
  | 0, _, _, cb => cb
  | fuel + 1, i, path, cb =>
    match (nodeAt t i).kind with
    | .free => cb
    | .leaf => cb.record (nodeAt t i).sym path
    | .inner =>
      visit t fuel (nodeAt t i).right.toNat (path ++ [true])
        (visit t fuel (nodeAt t i).left.toNat (path ++ [false]) cb)

/-- `deriveCodes(tree)`: nothing for an absent tree (R98), "0" for a lone leaf (R96), else the traversal
(R94). -/
def deriveCodes (t : NodeTable) (root : NodeIndex) : Codebook :=
  if root = Config.nil then .empty
  else if (nodeAt t root.toNat).kind = .leaf then
    Codebook.empty.record (nodeAt t root.toNat).sym [false]
  else visit t visitDepth root.toNat [] .empty

/-- The body of CODES (R94). -/
def stageCodes (a : Arch) : Arch :=
  { a with
    clen := (deriveCodes a.node a.root).clen
    code := (deriveCodes a.node a.root).code }

/-- CODES (R94). -/
def execCodes (s : State) : Host.Outcome State Fault Refusal := issue stageCodes s

end Sys2Proof.Machine
end

