-- ==== Sys2Proof/Machine/TreeBuilder.lean ====
section
/-!
DEFINITION. BUILD, the priority-queue merge with the deterministic tie-break (spec 41_tree_builder.md).
-/

namespace Sys2Proof.Machine

/-- Slot `s` before the first merge: the leaf of symbol `s`, or free when `FT[s] = 0` (R83, R84). -/
def leafSlot (ft : SymTable Word64) (s : Byte) : Node :=
  if tableGet ft s = 0 then freeNode
  else { kind := .leaf, sym := s, freq := tableGet ft s, left := Config.nil, right := Config.nil }

/-- The arena before the first merge: slots 0 to 255 by `leafSlot`, the others free (R83). -/
def leafTable (ft : SymTable Word64) : NodeTable :=
  ⟨(allSymbols.map (leafSlot ft) ++ List.replicate 255 freeNode).toArray,
    by simp only [allSymbols, List.size_toArray, List.length_append, List.length_map,
        List.length_range, List.length_replicate, Config.nodeMax]⟩

/-- The symbols `s` with `FT[s] != 0`, ascending. -/
def presentSymbols (ft : SymTable Word64) : List Byte :=
  allSymbols.filter fun s => tableGet ft s ≠ 0

/-- The order of R85: lexicographic on `(NODE[i].freq, i)`. -/
def comesBefore (t : NodeTable) (i j : Nat) : Bool :=
  (nodeAt t i).freq < (nodeAt t j).freq || ((nodeAt t i).freq == (nodeAt t j).freq && i < j)

/-- `a <- min(A) ; A <- A - {a}` (R83): the first element by R85, and the rest. -/
def extractMin (t : NodeTable) : List Nat → Option (Nat × List Nat)
  | [] => none
  | x :: xs =>
    match extractMin t xs with
    | none => some (x, [])
    | some (m, rest) => if comesBefore t x m then some (x, xs) else some (m, x :: rest)

/-- The internal node of a merge: the first extracted is the left child (R86). -/
def mergedNode (t : NodeTable) (a b : Nat) : Node where
  kind := .inner
  sym := 0
  freq := (nodeAt t a).freq + (nodeAt t b).freq
  left := BitVec.ofNat 9 a
  right := BitVec.ofNat 9 b

/-- The loop of R83 from merge number `k` on, for at most the number of iterations given first; `A` is
the list of live nodes. -/
def mergeLoop : Nat → Nat → NodeTable → List Nat → NodeTable × List Nat
  | 0, _, t, live => (t, live)
  | fuel + 1, k, t, live =>
    match extractMin t live with
    | none => (t, live)
    | some (a, rest) =>
      match extractMin t rest with
      | none => (t, live)
      | some (b, rest') =>
        mergeLoop fuel (k + 1) (nodeSet t (256 + k) (mergedNode t a b)) (rest' ++ [256 + k])

/-- The live nodes before the first merge: the leaves. -/
def initialLive (ft : SymTable Word64) : List Nat := (presentSymbols ft).map BitVec.toNat

/-- The arena and the live nodes when merging ends. Each iteration removes one element of `A`, so
`|A| - 1` iterations leave one (R88). -/
def mergeAll (ft : SymTable Word64) : NodeTable × List Nat :=
  mergeLoop ((initialLive ft).length - 1) 0 (leafTable ft) (initialLive ft)

/-- "the element of `A`" when one is left, else `NIL` (R83). -/
def rootOf : List Nat → NodeIndex
  | [r] => BitVec.ofNat 9 r
  | _ => Config.nil

/-- The body of BUILD (R83). -/
def stageBuild (a : Arch) : Arch :=
  { a with
    node := (mergeAll a.ft).1
    root := rootOf (mergeAll a.ft).2
    nleaf := BitVec.ofNat 9 (initialLive a.ft).length }

/-- BUILD (R83). -/
def execBuild (s : State) : Host.Outcome State Fault Refusal := issue stageBuild s

end Sys2Proof.Machine
end

