-- ==== Sys2Proof/Machine/Container.lean ====
section
/-!
DEFINITION. SERIALIZE and DESERIALIZE, and the layout of the blob (spec 45_container.md).
-/

namespace Sys2Proof.Machine

/-- One symbol/frequency pair of the metadata: 1 byte and 8 bytes (R121). -/
def pairBytes (ft : SymTable Word64) (s : Byte) : List Byte := s :: toBE 8 (tableGet ft s).toNat

/-- The metadata: `NSYM`, the pairs in ascending symbol order, `COUNT` (R121). -/
def metadataBytes (ft : SymTable Word64) (ocnt : Word64) : List Byte :=
  toBE 2 (presentSymbols ft).length ++ (presentSymbols ft).flatMap (pairBytes ft) ++
    toBE 8 ocnt.toNat

/-- The blob (R121). -/
def Arch.blob (a : Arch) : List Byte := metadataBytes a.ft a.ocnt ++ a.payload

/-- `size <- 10 + 9*n + PLEN` (R123). -/
def Arch.blobSize (a : Arch) : Nat := 10 + 9 * (presentSymbols a.ft).length + a.plen.toNat

/-- The body of SERIALIZE (R123). -/
def stageSerialize (a : Arch) : Arch :=
  if a.blobSize > a.obufCap.toNat then raiseError .serialize .capacity a.blobSize a
  else { a with obuf := Memory.write a.obuf 0 a.blob, olen := BitVec.ofNat 64 a.blobSize }

/-- SERIALIZE (R123). -/
def execSerialize (s : State) : Host.Outcome State Fault Refusal := issue stageSerialize s

/-- What the metadata of an accepted blob says: the table `T`, the count `c`, and the offset of the payload
(R126). -/
structure Metadata where
  table : SymTable Word64
  count : Word64
  offset : Nat
deriving DecidableEq, Repr

/-- What the parsing of a blob's metadata gives: it is accepted, or rejected with a sub-cause 1 to 6 (R127). -/
inductive Parsed (α : Type) where
  | accepted (v : α)
  | rejected (cause : Nat)
deriving DecidableEq, Repr

/-- The loop of R126 over the pairs still unread, the next one at offset `q`: `lo` is `prev + 1`, the least
symbol value still in order; the sum does not wrap. -/
def parsePairs (rd : Nat → Byte) :
    Nat → Nat → Nat → SymTable Word64 → Nat → Parsed (SymTable Word64 × Nat)
  | 0, _, _, t, sum => .accepted (t, sum)
  | k + 1, q, lo, t, sum =>
    if (rd q).toNat < lo then .rejected 4
    else if ofBE (readFrom rd (q + 1) 8) = 0 then .rejected 5
    else
      parsePairs rd k (q + 9) ((rd q).toNat + 1)
        (tableSet t (rd q) (BitVec.ofNat 64 (ofBE (readFrom rd (q + 1) 8))))
        (sum + ofBE (readFrom rd (q + 1) 8))

/-- `NSYM`, the first two bytes of a blob (R121). -/
def nsymOf (rd : Nat → Byte) : Nat := ofBE (readFrom rd 0 2)

/-- `COUNT`, the eight bytes after the pairs (R121). -/
def countOf (rd : Nat → Byte) : Nat := ofBE (readFrom rd (2 + 9 * nsymOf rd) 8)

/-- The checks of R126 on a blob of length `len`, in their order, up to the sum check. -/
def parseMetadata (rd : Nat → Byte) (len : Nat) : Parsed Metadata :=
  if len < 2 then .rejected 1
  else if nsymOf rd > 256 then .rejected 2
  else if len < 10 + 9 * nsymOf rd then .rejected 3
  else
    match parsePairs rd (nsymOf rd) 2 0 emptyTable 0 with
    | .rejected c => .rejected c
    | .accepted (t, sum) =>
      if sum ≠ countOf rd then .rejected 6
      else .accepted ⟨t, BitVec.ofNat 64 (countOf rd), 10 + 9 * nsymOf rd⟩

/-- What DESERIALIZE commits when every check has passed (R126). -/
def loadContainer (m : Metadata) (a : Arch) : Arch :=
  { a with
    ft := m.table
    ocnt := m.count
    pbuf := Memory.write a.pbuf 0 (readFrom a.ibufByte m.offset (a.ilen.toNat - m.offset))
    plen := BitVec.ofNat 64 (a.ilen.toNat - m.offset)
    nbits := BitVec.ofNat 64 (8 * (a.ilen.toNat - m.offset)) }

/-- The body of DESERIALIZE (R126). -/
def stageDeserialize (a : Arch) : Arch :=
  if a.ilen.toNat > a.ibufCap.toNat then raiseError .deserialize .capacity a.ilen.toNat a
  else
    match parseMetadata a.ibufByte a.ilen.toNat with
    | .rejected c => raiseError .deserialize .malformedContainer c a
    | .accepted m =>
      if a.ilen.toNat - m.offset > a.pbufCap.toNat then
        raiseError .deserialize .capacity (a.ilen.toNat - m.offset) a
      else loadContainer m a

/-- DESERIALIZE (R126). -/
def execDeserialize (s : State) : Host.Outcome State Fault Refusal := issue stageDeserialize s

end Sys2Proof.Machine
end

