-- ==== Sys2Proof/Machine/Control.lean ====
section
/-!
DEFINITION. CLEAR and COUNT (spec 40_control_and_frequency.md).
-/

namespace Sys2Proof.Machine

/-- What CLEAR does (R74): everything but `IBUF`, `ILEN`, the capacities and the contents of `PBUF` and `OBUF`
takes its reset value; the status registers by `acknowledgeError` (R164). -/
def stageClear (a : Arch) : Arch :=
  acknowledgeError
    { a with
      ft := emptyTable
      ocnt := 0
      node := Vector.replicate Config.nodeMax freeNode
      root := Config.nil
      nleaf := 0
      clen := Vector.replicate 256 0
      code := Vector.replicate 256 0
      plen := 0
      nbits := 0
      olen := 0 }

/-- CLEAR: the one command that executes while `ERR = 1` and that does not set `DONE` (R74, R160). -/
def execClear (s : State) : Host.Outcome State Fault Refusal :=
  .next { s with toArch := stageClear s.toArch, epoch := s.epoch + 1 }

/-- `FT[b] <- FT[b] + 1` for each input byte in turn (R77). -/
def tally : List Byte → SymTable Word64 → SymTable Word64
  | [], t => t
  | b :: bs, t => tally bs (tableSet t b (tableGet t b + 1))

/-- The body of COUNT (R77). -/
def stageCount (a : Arch) : Arch :=
  if a.ilen.toNat > a.ibufCap.toNat then raiseError .count .capacity a.ilen.toNat a
  else { a with ft := tally a.input emptyTable, ocnt := a.ilen }

/-- COUNT (R77). -/
def execCount (s : State) : Host.Outcome State Fault Refusal := issue stageCount s

end Sys2Proof.Machine
end

