-- ==== Sys2Proof/Machine/Sequencer.lean ====
section
/-!
DEFINITION. COMPRESS and DECOMPRESS (spec 46_compress_decompress.md).
-/

namespace Sys2Proof.Machine

/-- The stages of COMPRESS (R141). -/
def compressStages : List (Arch → Arch) :=
  [stageClear, stageCount, stageBuild, stageCodes, stagePack, stageSerialize]

/-- The stages of DECOMPRESS (R142). -/
def decompressStages : List (Arch → Arch) :=
  [stageClear, stageDeserialize, stageBuild, stageDecode]

/-- COMPRESS (R141), one atomic command; its CLEAR stage is no way around `ERR = 1` at issue (R143). -/
def execCompress (s : State) : Host.Outcome State Fault Refusal :=
  issue (runStages compressStages) s

/-- DECOMPRESS (R142). -/
def execDecompress (s : State) : Host.Outcome State Fault Refusal :=
  issue (runStages decompressStages) s

end Sys2Proof.Machine
end

