-- ==== Sys2Proof/Machine/Port.lean ====
section
/-!
DEFINITION. The host's port: the seven spaces (R46), the register map (R55), the packed views (R56), and
what a read and a write do (R50, R53, R57, R58).
-/

namespace Sys2Proof.Machine

/-- The host-visible spaces, ids 0 to 6 (R46). -/
inductive Space where
  | reg
  | ibuf
  | pbuf
  | obuf
  | ft
  | node
  | cb
deriving DecidableEq, Repr

/-- The registers of space 0 (R55). -/
inductive Reg where
  | cmd
  | status
  | errcode
  | errinfo
  | errcmd
  | ilen
  | ocnt
  | plen
  | nbits
  | olen
  | root
  | nleaf
  | ibufCap
  | pbufCap
  | obufCap
deriving DecidableEq, Repr

/-- The space of an id; ids 7 to 15 are reserved (R46). -/
def spaceOf (id : SpaceId) : Option Space :=
  match id.toNat with
  | 0 => some .reg
  | 1 => some .ibuf
  | 2 => some .pbuf
  | 3 => some .obuf
  | 4 => some .ft
  | 5 => some .node
  | 6 => some .cb
  | _ => none

/-- The register of an index of space 0 (R55). -/
def regOf : Nat → Option Reg
  | 0 => some .cmd
  | 1 => some .status
  | 2 => some .errcode
  | 3 => some .errinfo
  | 4 => some .errcmd
  | 5 => some .ilen
  | 6 => some .ocnt
  | 7 => some .plen
  | 8 => some .nbits
  | 9 => some .olen
  | 10 => some .root
  | 11 => some .nleaf
  | 12 => some .ibufCap
  | 13 => some .pbufCap
  | 14 => some .obufCap
  | _ => none

/-- How many locations a space has (R46). -/
def Arch.spaceSize (a : Arch) : Space → Nat
  | .reg => 15
  | .ibuf => a.ibufCap.toNat
  | .pbuf => a.pbufCap.toNat
  | .obuf => a.obufCap.toNat
  | .ft => 256
  | .node => 1022
  | .cb => 2048

/-- A host access that is no access error: an assigned space and an index in its range (R58). -/
def accessWellFormed (a : Arch) (id : SpaceId) (index : Nat) : Bool :=
  match spaceOf id with
  | none => false
  | some sp => decide (index < a.spaceSize sp)

/-- A register read, zero-extended (R50); `CMD` has no read and gives 0 (R27, R55). -/
def readReg (a : Arch) : Reg → Word64
  | .cmd => 0
  | .status => a.status.setWidth 64
  | .errcode => a.errcode.setWidth 64
  | .errinfo => a.errinfo
  | .errcmd => a.errcmd.setWidth 64
  | .ilen => a.ilen
  | .ocnt => a.ocnt
  | .plen => a.plen
  | .nbits => a.nbits
  | .olen => a.olen
  | .root => a.root.setWidth 64
  | .nleaf => a.nleaf.setWidth 64
  | .ibufCap => a.ibufCap
  | .pbufCap => a.pbufCap
  | .obufCap => a.obufCap

/-- The value of `kind` (R30). -/
def kindBits : NodeKind → BitVec 2
  | .free => 0
  | .leaf => 1
  | .inner => 2

/-- The link word of a node: `[8:0] = left`, `[17:9] = right`, `[25:18] = sym`, `[27:26] = kind`, `[63:28] = 0`
(R56). -/
def linkWord (n : Node) : Word64 :=
  (0#36 ++ kindBits n.kind ++ n.sym ++ n.right ++ n.left).cast (by decide)

/-- Space 5 at index `2*i + w` (R56). -/
def readNodeView (a : Arch) (index : Nat) : Word64 :=
  if index % 2 = 0 then (nodeAt a.node (index / 2)).freq else linkWord (nodeAt a.node (index / 2))

/-- Space 6 at index `8*s + w` (R56): `CLEN[s]`, then the bits of `CODE[s]` by 64, those from 255 on being 0. -/
def readCodebookView (a : Arch) (index : Nat) : Word64 :=
  if index % 8 = 0 then (tableGet a.clen (BitVec.ofNat 8 (index / 8))).setWidth 64
  else (tableGet a.code (BitVec.ofNat 8 (index / 8))).extractLsb' (64 * (index % 8 - 1)) 64

/-- A byte of `PBUF` or `OBUF` as the host reads it: the byte stored below the length register, an unspecified
one from there on (R34, R35, R184). -/
def resultByte (epoch : Nat) (buf : Buffer) (len : Word64) (stored : Byte) (index : Nat) : Byte :=
  if index < len.toNat then stored else Config.tailByte epoch buf index

/-- What a read of a location in range returns (R46, R55, R56). -/
def readLocation (s : State) (sp : Space) (index : Nat) : Word64 :=
  match sp with
  | .reg => ((regOf index).map (readReg s.toArch)).getD 0
  | .ibuf => (s.ibufByte index).setWidth 64
  | .pbuf => (resultByte s.epoch .pbuf s.plen (s.pbufByte index) index).setWidth 64
  | .obuf => (resultByte s.epoch .obuf s.olen (s.obufByte index) index).setWidth 64
  | .ft => tableGet s.ft (BitVec.ofNat 8 index)
  | .node => readNodeView s.toArch index
  | .cb => readCodebookView s.toArch index

/-- What a read that is an access error returns: an unspecified word, one byte wide in the byte spaces
(R50, R58). -/
def accessErrorData (n : Nat) : Option Space → Word64
  | some .ibuf | some .pbuf | some .obuf => ((Config.accessErrorWord n).setWidth 8).setWidth 64
  | some .reg | some .ft | some .node | some .cb | none => Config.accessErrorWord n

/-- A host read: no side effect on the architectural state (R53, R58). -/
def hostRead (id : SpaceId) (index : Nat) (s : State) : State :=
  match accessWellFormed s.toArch id index, spaceOf id with
  | true, some sp => { s with reply := .data (readLocation s sp index) }
  | _, sp =>
    { s with
      reply := .accessError (some (accessErrorData s.errorReads sp))
      errorReads := s.errorReads + 1 }

/-- A byte written to `CMD` (R63): the command executes, or a reserved opcode is raised. -/
def issueCommand (op : Byte) (s : State) : Host.Outcome State Fault Refusal :=
  match decodeByte op with
  | .command i => exec i s
  | .reserved b => issueReserved b s

/-- A host write to a location in range: it changes a byte of `IBUF`, `ILEN`, or, through `CMD`, whatever the
command changes; any other write is ignored (R55, R57). -/
def writeLocation (sp : Space) (index : Nat) (v : Word64) (s : State) :
    Host.Outcome State Fault Refusal :=
  match sp with
  | .ibuf => .next { s with ibuf := Memory.put s.ibuf index (v.setWidth 8) }
  | .reg =>
    match regOf index with
    | some .cmd => issueCommand (v.setWidth 8) s
    | some .ilen => .next { s with ilen := v }
    | some .status | some .errcode | some .errinfo | some .errcmd | some .ocnt | some .plen => .next s
    | some .nbits | some .olen | some .root | some .nleaf => .next s
    | some .ibufCap | some .pbufCap | some .obufCap | none => .next s
  | .pbuf | .obuf | .ft | .node | .cb => .next s

/-- A host write (R57), or an access error, which changes no state (R58). -/
def hostWrite (id : SpaceId) (index : Nat) (v : Word64) (s : State) :
    Host.Outcome State Fault Refusal :=
  match accessWellFormed s.toArch id index, spaceOf id with
  | true, some sp => writeLocation sp index v { s with reply := .ack }
  | _, _ => .next { s with reply := .accessError none }

/-- The platform asserts reset (R176): the state of R38, the buffers' contents unspecified anew (R177). -/
def hostReset (s : State) : State :=
  { s with
    toArch := Arch.reset ⟨s.ibufCap, s.pbufCap, s.obufCap⟩ (s.epoch + 1)
    reply := .idle
    epoch := s.epoch + 1 }

/-- One action of the host (R59). -/
def perform (h : HostAccess) (s : State) : Host.Outcome State Fault Refusal :=
  match h with
  | .read id index => .next (hostRead id index s)
  | .write id index v => hostWrite id index v s
  | .reset => .next (hostReset s)

/-- The next access is taken from the host; with none pending the CORE waits (R158, R176). -/
def nextAccess (s : State) : Host.Outcome State Fault Refusal :=
  match s.pending with
  | [] => .next s
  | h :: rest => perform h { s with pending := rest }

/-- The access that issues the command of a table word: a write of its byte to `CMD`, space 0 index 0
(R63). -/
def commandWrite (nbits w : Nat) : HostAccess := .write 0 0 (BitVec.ofNat 64 (w % 2 ^ nbits))

/-- A table word placed where the next command is taken from: at the head of the host's accesses. -/
def placeCommand (s : State) (nbits w : Nat) : State :=
  { s with pending := commandWrite nbits w :: s.pending }

end Sys2Proof.Machine
end

