-- ==== Sys2Proof/Machine/Step.lean ====
section
/-!
DEFINITION. One step of the machine: the next access of the host, in the one total order of R59.
-/

namespace Sys2Proof.Machine

/-- One step: one atomic transition (R9, R59). -/
def step (s : State) : Host.Outcome State Fault Refusal := nextAccess s

/-- The state in which the next step issues the command of a table word: the host's write of that byte to
`CMD` comes first. Nothing else changes. -/
def State.withFetchWord (s : State) (nbits w : Nat) : State := placeCommand s nbits w

end Sys2Proof.Machine
end

