-- ==== Sys2Proof/Safety.lean ====
section
/-!
DEFINITION. The terms claims are stated in: the invariants the spec gives the machine between commands
(R6, R18 to R26, R30 to R32, R39), and what it means to follow a path through the tree (R95).
-/

namespace Sys2Proof.Machine

/-- The capacities are in the range of R6. -/
def Arch.capsOk (a : Arch) : Prop :=
  Capacities.wellFormed ⟨a.ibufCap, a.pbufCap, a.obufCap⟩ = true

/-- What R23 to R26 and R39 (e) say of the status registers between commands. -/
structure Arch.StatusOk (a : Arch) : Prop where
  /-- "`DONE` and `ERR` are never both 1" (R23). -/
  not_both : ¬(a.done = true ∧ a.err = true)
  /-- "`STATUS.ERR = 0` exactly when `ERRCODE = 0`" (R39 (e)). -/
  err_iff : a.err = false ↔ a.errcode = 0
  /-- "Values 7 to 255 never occur" (R24). -/
  code_range : a.errcode.toNat ≤ 6
  /-- "0 when `ERR = 0`" (R25). -/
  info_zero : a.err = false → a.errinfo = 0
  /-- "0 when `ERR = 0`" (R26). -/
  cmd_zero : a.err = false → a.errcmd = 0

/-- What R18, R19, R20 and R39 (b) say of the length registers between commands. -/
structure Arch.LengthsOk (a : Arch) : Prop where
  /-- "`PLEN <= PBUF_CAP` always" (R18). -/
  plen_le : a.plen.toNat ≤ a.pbufCap.toNat
  /-- "`OLEN <= OBUF_CAP` always" (R20). -/
  olen_le : a.olen.toNat ≤ a.obufCap.toNat
  /-- "the number of padding bits is `8*PLEN - NBITS`, in `0..7`" (R19). -/
  nbits_le : a.nbits.toNat ≤ 8 * a.plen.toNat
  padding_lt : 8 * a.plen.toNat < a.nbits.toNat + 8

/-- `sum over s of FT[s]`, a natural number. -/
def tableSum (ft : SymTable Word64) : Nat := (allSymbols.map fun s => (tableGet ft s).toNat).sum

/-- "`sum over s of FT[s] = OCNT`" (R39 (a)). -/
def Arch.CountsOk (a : Arch) : Prop := tableSum a.ft = a.ocnt.toNat

/-- Slot `p` is `INTERNAL` and `i` is one of its children. -/
def isChildOf (t : NodeTable) (p i : Nat) : Prop :=
  (nodeAt t p).kind = .inner ∧ ((nodeAt t p).left.toNat = i ∨ (nodeAt t p).right.toNat = i)

/-- The `LEAF` slots, ascending. -/
def leafSlots (t : NodeTable) : List Nat :=
  (List.range Config.nodeMax).filter fun i => (nodeAt t i).kind = .leaf

/-- Tree well-formedness (R31, with the field values of R30 and the count of R22). -/
structure TreeWf (t : NodeTable) (root nleaf : NodeIndex) : Prop where
  /-- R31.1. -/
  absent_iff : root = Config.nil ↔ ∀ i, i < Config.nodeMax → nodeAt t i = freeNode
  absent_nleaf : root = Config.nil → nleaf = 0
  /-- R30: the fields of a `FREE` slot. -/
  free_record : ∀ i, (nodeAt t i).kind = .free → nodeAt t i = freeNode
  /-- R31.2, R30: a slot below 256 is `FREE` or the `LEAF` of its symbol, with no child. -/
  low_slot : ∀ i, i < 256 → (nodeAt t i).kind = .free ∨
    ((nodeAt t i).kind = .leaf ∧ (nodeAt t i).sym = BitVec.ofNat 8 i ∧
      (nodeAt t i).left = Config.nil ∧ (nodeAt t i).right = Config.nil)
  /-- R31.2: no slot from 256 on is a `LEAF`. -/
  high_slot : ∀ i, 256 ≤ i → (nodeAt t i).kind ≠ .leaf
  /-- R31.3. -/
  inner_iff : ∀ i, (nodeAt t i).kind = .inner ↔ 256 ≤ i ∧ i + 2 ≤ 256 + nleaf.toNat
  /-- R31.4. -/
  links : ∀ i, (nodeAt t i).kind = .inner →
    (nodeAt t i).left ≠ Config.nil ∧ (nodeAt t i).right ≠ Config.nil ∧
    (nodeAt t i).left ≠ (nodeAt t i).right ∧
    (nodeAt t (nodeAt t i).left.toNat).kind ≠ .free ∧
    (nodeAt t (nodeAt t i).right.toNat).kind ≠ .free ∧
    (nodeAt t i).left.toNat < i ∧ (nodeAt t i).right.toNat < i
  /-- R31.4: the frequency of an `INTERNAL` slot, as a sum without wrap-around. -/
  freq_sum : ∀ i, (nodeAt t i).kind = .inner → (nodeAt t i).freq.toNat =
    (nodeAt t (nodeAt t i).left.toNat).freq.toNat + (nodeAt t (nodeAt t i).right.toNat).freq.toNat
  /-- R30: "0 in a `FREE` or `INTERNAL` slot". -/
  inner_sym : ∀ i, (nodeAt t i).kind = .inner → (nodeAt t i).sym = 0
  /-- R31.5. -/
  one_parent : ∀ i, (nodeAt t i).kind ≠ .free → i ≠ root.toNat →
    ∃ p, isChildOf t p i ∧ ∀ q, isChildOf t q i → q = p
  /-- R31.6. -/
  root_lone : nleaf = 1 → (nodeAt t root.toNat).kind = .leaf ∧
    ∀ i, (nodeAt t i).kind = .leaf → i = root.toNat
  root_top : 2 ≤ nleaf.toNat → root.toNat + 2 = 256 + nleaf.toNat
  /-- R31.7. -/
  freq_pos : ∀ i, (nodeAt t i).kind ≠ .free → 1 ≤ (nodeAt t i).freq.toNat
  root_freq : root ≠ Config.nil → (nodeAt t root.toNat).freq.toNat =
    ((leafSlots t).map fun i => (nodeAt t i).freq.toNat).sum
  /-- R22: the number of leaves. -/
  leaf_count : nleaf.toNat = (leafSlots t).length

/-- R31, "at every point between commands". -/
def Arch.TreeOk (a : Arch) : Prop := TreeWf a.node a.root a.nleaf

/-- What R32 and R39 (d) say of the codebook between commands. -/
structure Arch.CodebookOk (a : Arch) : Prop where
  /-- "Bits `CODE[s][j]` for `j >= CLEN[s]` are 0" (R32). -/
  unused_zero : ∀ (s : Byte) (j : Nat), (tableGet a.clen s).toNat ≤ j →
    (tableGet a.code s).getLsbD j = false
  /-- "the set `{CODE of s : CLEN[s] > 0}` is prefix-free" (R39 (d)). -/
  no_prefix : ∀ s u : Byte, s ≠ u → tableGet a.clen s ≠ 0 → tableGet a.clen u ≠ 0 →
    ¬a.codeBits s <+: a.codeBits u

/-- One buffer memory in canonical form, no cell beyond its capacity (R33 to R35). -/
def memoryOk (cap : Word64) (m : Memory) : Prop :=
  Memory.wf m = true ∧ ∀ c ∈ m, c.1 < cap.toNat

/-- The three buffers are in canonical form, within their capacities. -/
structure Arch.BuffersOk (a : Arch) : Prop where
  ibuf : memoryOk a.ibufCap a.ibuf
  pbuf : memoryOk a.pbufCap a.pbuf
  obuf : memoryOk a.obufCap a.obuf

/-- Everything the spec says of the state between commands (R39). -/
structure Arch.Ok (a : Arch) : Prop where
  caps : a.capsOk
  status : a.StatusOk
  lengths : a.LengthsOk
  counts : a.CountsOk
  tree : a.TreeOk
  codebook : a.CodebookOk
  buffers : a.BuffersOk

/-- The table of reset values of R38; the bytes of the buffers are in no clause. -/
structure Arch.Clean (a : Arch) : Prop where
  lengths : a.ilen = 0 ∧ a.ocnt = 0 ∧ a.plen = 0 ∧ a.nbits = 0 ∧ a.olen = 0
  root : a.root = 511
  nleaf : a.nleaf = 0
  status : a.status = 0
  errors : a.errcode = 0 ∧ a.errinfo = 0 ∧ a.errcmd = 0
  ft : ∀ s, tableGet a.ft s = 0
  node : ∀ i, nodeAt a.node i = freeNode
  codebook : ∀ s, tableGet a.clen s = 0 ∧ tableGet a.code s = 0

/-- Where a path leads: each bit goes to a child, 0 to the left and 1 to the right (R95). -/
def follow (t : NodeTable) (i : NodeIndex) (path : List Bool) : NodeIndex :=
  path.foldl (childOf t) i

/-- The path leads from the slot to the `LEAF` of the symbol (R95). -/
def leadsTo (t : NodeTable) (i : NodeIndex) (path : List Bool) (s : Byte) : Prop :=
  (nodeAt t (follow t i path).toNat).kind = .leaf ∧ (nodeAt t (follow t i path).toNat).sym = s

/-- The code of a symbol: "0" for a lone leaf (R96), else the path from the root (R95). -/
def codePath (t : NodeTable) (root : NodeIndex) (s : Byte) (p : List Bool) : Prop :=
  root ≠ Config.nil ∧
  (((nodeAt t root.toNat).kind = .leaf ∧ (nodeAt t root.toNat).sym = s ∧ p = [false]) ∨
   ((nodeAt t root.toNat).kind = .inner ∧ leadsTo t root p s))

/-- The symbol value of pair `k` of a blob (R121). -/
def pairSymbol (rd : Nat → Byte) (k : Nat) : Byte := rd (2 + 9 * k)

/-- The frequency of pair `k` of a blob (R121). -/
def pairFreq (rd : Nat → Byte) (k : Nat) : Nat := ofBE (readFrom rd (3 + 9 * k) 8)

/-- Pair `k`'s symbol is greater than the previous pair's (R127, sub-cause 4). -/
def pairInOrder (rd : Nat → Byte) (k : Nat) : Prop :=
  k = 0 ∨ (pairSymbol rd (k - 1)).toNat < (pairSymbol rd k).toNat

/-- Pair `k` passes both checks of the loop of R126. -/
def pairOk (rd : Nat → Byte) (k : Nat) : Prop := pairInOrder rd k ∧ pairFreq rd k ≠ 0

/-- The sum of the pairs' frequencies, without wrap-around (R126). -/
def pairFreqSum (rd : Nat → Byte) (n : Nat) : Nat := ((List.range n).map (pairFreq rd)).sum

/-- The checks of DESERIALIZE in their order, each with the error it raises (R126, R127, R162). -/
inductive DeserializeFails (a : Arch) : ErrorKind → Nat → Prop
  | inputTooLong : a.ibufCap.toNat < a.ilen.toNat → DeserializeFails a .capacity a.ilen.toNat
  /-- Sub-cause 1. -/
  | noCountField : a.ilen.toNat ≤ a.ibufCap.toNat → a.ilen.toNat < 2 →
      DeserializeFails a .malformedContainer 1
  /-- Sub-cause 2. -/
  | tooManySymbols : a.ilen.toNat ≤ a.ibufCap.toNat → 2 ≤ a.ilen.toNat → 256 < nsymOf a.ibufByte →
      DeserializeFails a .malformedContainer 2
  /-- Sub-cause 3. -/
  | metadataTooShort : a.ilen.toNat ≤ a.ibufCap.toNat → 2 ≤ a.ilen.toNat → nsymOf a.ibufByte ≤ 256 →
      a.ilen.toNat < 10 + 9 * nsymOf a.ibufByte → DeserializeFails a .malformedContainer 3
  /-- Sub-cause 4. -/
  | outOfOrder (k : Nat) : a.ilen.toNat ≤ a.ibufCap.toNat → nsymOf a.ibufByte ≤ 256 →
      10 + 9 * nsymOf a.ibufByte ≤ a.ilen.toNat → k < nsymOf a.ibufByte →
      (∀ j, j < k → pairOk a.ibufByte j) → ¬pairInOrder a.ibufByte k →
      DeserializeFails a .malformedContainer 4
  /-- Sub-cause 5. -/
  | zeroFrequency (k : Nat) : a.ilen.toNat ≤ a.ibufCap.toNat → nsymOf a.ibufByte ≤ 256 →
      10 + 9 * nsymOf a.ibufByte ≤ a.ilen.toNat → k < nsymOf a.ibufByte →
      (∀ j, j < k → pairOk a.ibufByte j) → pairInOrder a.ibufByte k → pairFreq a.ibufByte k = 0 →
      DeserializeFails a .malformedContainer 5
  /-- Sub-cause 6. -/
  | wrongSum : a.ilen.toNat ≤ a.ibufCap.toNat → nsymOf a.ibufByte ≤ 256 →
      10 + 9 * nsymOf a.ibufByte ≤ a.ilen.toNat →
      (∀ k, k < nsymOf a.ibufByte → pairOk a.ibufByte k) →
      pairFreqSum a.ibufByte (nsymOf a.ibufByte) ≠ countOf a.ibufByte →
      DeserializeFails a .malformedContainer 6
  | payloadTooLong : a.ilen.toNat ≤ a.ibufCap.toNat → nsymOf a.ibufByte ≤ 256 →
      10 + 9 * nsymOf a.ibufByte ≤ a.ilen.toNat →
      (∀ k, k < nsymOf a.ibufByte → pairOk a.ibufByte k) →
      pairFreqSum a.ibufByte (nsymOf a.ibufByte) = countOf a.ibufByte →
      a.pbufCap.toNat < a.ilen.toNat - (10 + 9 * nsymOf a.ibufByte) →
      DeserializeFails a .capacity (a.ilen.toNat - (10 + 9 * nsymOf a.ibufByte))

/-- The state with the status registers of another. -/
def withStatusOf (a b : Arch) : Arch :=
  { a with status := b.status, errcode := b.errcode, errinfo := b.errinfo, errcmd := b.errcmd }

/-- No byte of any buffer's storage changed. -/
def sameBytes (a b : Arch) : Prop :=
  ∀ k, b.ibufByte k = a.ibufByte k ∧ b.pbufByte k = a.pbufByte k ∧ b.obufByte k = a.obufByte k

/-- What the model keeps of the host's port is the same: a command does not touch it. -/
def samePort (s t : State) : Prop :=
  t.pending = s.pending ∧ t.reply = s.reply ∧ t.errorReads = s.errorReads

/-- The results a host can read of two states are the same: every register, table and tree, and the bytes of
`PBUF` and `OBUF` below their lengths (R184). -/
structure SameResults (a b : Arch) : Prop where
  ft : a.ft = b.ft
  ocnt : a.ocnt = b.ocnt
  node : a.node = b.node
  root : a.root = b.root
  nleaf : a.nleaf = b.nleaf
  clen : a.clen = b.clen
  code : a.code = b.code
  plen : a.plen = b.plen
  nbits : a.nbits = b.nbits
  olen : a.olen = b.olen
  payload : a.payload = b.payload
  output : a.output = b.output
  status : a.status = b.status
  errcode : a.errcode = b.errcode
  errinfo : a.errinfo = b.errinfo
  errcmd : a.errcmd = b.errcmd

/-- The error kinds each command can raise from a state with a well-formed tree (R170, R144, R145). -/
def canRaise : Instr → ErrorKind → Bool
  | .count, .capacity => true
  | .pack, .capacity => true
  | .pack, .noCode => true
  | .serialize, .capacity => true
  | .deserialize, .malformedContainer => true
  | .deserialize, .capacity => true
  | .decode, .truncatedStream => true
  | .decode, .malformedTree => true
  | .decode, .capacity => true
  | _, _ => false

/-- Slot `i` is live before merge `k`: it holds a node, and no earlier merge took it (R83). -/
def liveBefore (t : NodeTable) (k i : Nat) : Prop :=
  (nodeAt t i).kind ≠ .free ∧ i < 256 + k ∧ ∀ p, p < 256 + k → ¬isChildOf t p i

/-- How a command other than CLEAR that raised no error ends: `DONE = 1`, `ERR = 0`, the error registers kept
(R157). -/
def completesFrom (t s : Arch) : Prop :=
  t.status = 1 ∧ t.errcode = s.errcode ∧ t.errinfo = s.errinfo ∧ t.errcmd = s.errcmd

/-- The status registers after an error entry (R158). -/
def Arch.raised (a : Arch) (cmd : Byte) (kind : ErrorKind) (info : Nat) : Prop :=
  a.status = 2 ∧ a.errcode = kind.errcode ∧ a.errinfo = BitVec.ofNat 64 info ∧ a.errcmd = cmd

end Sys2Proof.Machine
end

