-- ==== Sys2Proof/Certificates/Slice0/Obligations.lean ====
section
/-!
DEFINITION. The statements for the provers, each from the spec's numbered rules. "The arch" is the
architectural state (R13); `epoch`, `pending`, `reply`, `errorReads` and `seed` are the model's own.
-/

open Sys2Proof
open Sys2Proof.Machine

/-! ### Encoding and the command decoder -/

/-- R64: each assigned opcode decodes to its command, every other value is reserved; and the decoder and the
encoder agree, both ways. -/
def Obligations.AssignedOpcodesDecode : Prop :=
  decodeByte 0x01 = .command .clear ∧ decodeByte 0x02 = .command .count ∧
  decodeByte 0x03 = .command .build ∧ decodeByte 0x04 = .command .codes ∧
  decodeByte 0x05 = .command .pack ∧ decodeByte 0x06 = .command .serialize ∧
  decodeByte 0x07 = .command .deserialize ∧ decodeByte 0x08 = .command .decode ∧
  decodeByte 0x10 = .command .compress ∧ decodeByte 0x11 = .command .decompress ∧
  (∀ op : Byte, op ∉ ([0x01, 0x02, 0x03, 0x04, 0x05, 0x06, 0x07, 0x08, 0x10, 0x11] : List Byte) →
    decodeByte op = .reserved op) ∧
  (∀ i : Instr, decodeByte (encode i) = .command i) ∧
  ∀ (op : Byte) (i : Instr), decodeByte op = .command i → encode i = op

/-- R67: which opcodes are reserved, and what issuing one does when `ERR = 0`. -/
def Obligations.ReservedOpcodeRaisesIllegalCommand : Prop :=
  (∀ op : Byte, decodeByte op = .reserved op ↔
    (op = 0x00 ∨ (0x09 ≤ op.toNat ∧ op.toNat ≤ 0x0F) ∨ 0x12 ≤ op.toNat)) ∧
  ∀ (s : State) (op : Byte) (v : Word64) (rest : List HostAccess),
    s.pending = .write 0 0 v :: rest → v.setWidth 8 = op → decodeByte op = .reserved op →
    s.err = false →
    ∃ t, step s = .next t ∧ t.raised op .illegalCommand op.toNat ∧
      t.toArch = withStatusOf s.toArch t.toArch ∧ t.pending = rest ∧ t.reply = .ack

/-- R63: a host write to `CMD` executes, as one atomic transition, the command decoded from the low eight
bits; while `ERR = 1` only CLEAR; and a reserved opcode raises. -/
def Obligations.StepRunsTheDecodedCommand : Prop :=
  ∀ (s : State) (v : Word64) (rest : List HostAccess), s.pending = .write 0 0 v :: rest →
    (s.err = true → v.setWidth 8 ≠ (0x01 : Byte) →
      step s = .next { s with pending := rest, reply := .ack }) ∧
    (∀ i, (s.err = false ∨ v.setWidth 8 = (0x01 : Byte)) → decodeByte (v.setWidth 8) = .command i →
      step s = exec i { s with pending := rest, reply := .ack }) ∧
    (∀ op, s.err = false → decodeByte (v.setWidth 8) = .reserved op →
      step s = .next { s with
        toArch := recordError op .illegalCommand op.toNat s.toArch, pending := rest, reply := .ack })

/-- R160: while `ERR = 1` a write to `CMD` of any value but `0x01` changes no architectural state, reads and
writes to `IBUF` and `ILEN` work as always, and a step that is no reset and no CLEAR leaves the four status
registers, and so the error on record, as they are. -/
def Obligations.OnlyClearActsWhileErr : Prop :=
  ∀ s : State, s.err = true →
    (∀ i, i ≠ .clear → exec i s = .next s) ∧
    (∀ (v : Word64) (rest : List HostAccess), s.pending = .write 0 0 v :: rest →
      v.setWidth 8 ≠ (0x01 : Byte) →
      ∃ t, step s = .next t ∧ t.toArch = s.toArch ∧ t.epoch = s.epoch ∧ t.pending = rest) ∧
    (∀ (k : Nat) (v : Word64) (rest : List HostAccess), s.pending = .write 1 k v :: rest →
      k < s.ibufCap.toNat → ∃ t, step s = .next t ∧ t.ibufByte k = v.setWidth 8 ∧
        (∀ j, j ≠ k → t.ibufByte j = s.ibufByte j) ∧ t.toArch = { s.toArch with ibuf := t.ibuf }) ∧
    (∀ (v : Word64) (rest : List HostAccess), s.pending = .write 0 5 v :: rest →
      ∃ t, step s = .next t ∧ t.toArch = { s.toArch with ilen := v }) ∧
    (∀ (id : SpaceId) (k : Nat) (rest : List HostAccess), s.pending = .read id k :: rest →
      step s = .next (hostRead id k { s with pending := rest })) ∧
    ∀ t, step s = .next t →
      (∃ rest, s.pending = .reset :: rest ∨
        ∃ v : Word64, v.setWidth 8 = (0x01 : Byte) ∧ s.pending = .write 0 0 v :: rest) ∨
      (t.status = s.status ∧ t.errcode = s.errcode ∧ t.errinfo = s.errinfo ∧ t.errcmd = s.errcmd)

/-- Every step answers a next state (R167, R186: a command never fails to end); with no access pending the
CORE waits (R158, R176). -/
def Obligations.StepAlwaysAnswers : Prop :=
  (∀ s : State, ∃ t, step s = .next t) ∧
  (∀ (i : Instr) (s : State), ∃ t, exec i s = .next t) ∧
  (∀ s : State, s.pending = [] → step s = .next s)

/-! ### The host's port -/

/-- R53: a host read has no side effect and reading again gives the same, at once or after other reads; a
write to `IBUF` or `ILEN` stores the value and does nothing else; and no other write but one to `CMD` does
anything. -/
def Obligations.HostAccessSideEffects : Prop :=
  (∀ (s : State) (id : SpaceId) (k : Nat) (rest : List HostAccess), s.pending = .read id k :: rest →
    ∃ t, step s = .next t ∧ t.toArch = s.toArch ∧ t.epoch = s.epoch ∧ t.pending = rest) ∧
  (∀ (s : State) (id : SpaceId) (k : Nat) (rest : List HostAccess),
    s.pending = .read id k :: .read id k :: rest → accessWellFormed s.toArch id k = true →
    ∃ t u v, step s = .next t ∧ step t = .next u ∧ t.reply = .data v ∧ u.reply = .data v) ∧
  (∀ (s : State) (id : SpaceId) (k : Nat) (mid : SpaceId × Nat) (rest : List HostAccess),
    s.pending = .read id k :: .read mid.1 mid.2 :: .read id k :: rest →
    accessWellFormed s.toArch id k = true →
    ∃ t u w v, step s = .next t ∧ step t = .next u ∧ step u = .next w ∧
      t.reply = .data v ∧ w.reply = .data v) ∧
  (∀ (s : State) (k : Nat) (v : Word64) (rest : List HostAccess), s.pending = .write 1 k v :: rest →
    k < s.ibufCap.toNat →
    ∃ t, step s = .next t ∧ t.toArch = { s.toArch with ibuf := t.ibuf } ∧
      t.ibufByte k = v.setWidth 8 ∧ ∀ j, j ≠ k → t.ibufByte j = s.ibufByte j) ∧
  (∀ (s : State) (v : Word64) (rest : List HostAccess), s.pending = .write 0 5 v :: rest →
    ∃ t, step s = .next t ∧ t.toArch = { s.toArch with ilen := v }) ∧
  ∀ (s : State) (id : SpaceId) (k : Nat) (v : Word64) (rest : List HostAccess),
    s.pending = .write id k v :: rest → id ≠ 1 → ¬(id = 0 ∧ (k = 0 ∨ k = 5)) →
    ∃ t, step s = .next t ∧ t.toArch = s.toArch

/-- R57: a host write other than to `CMD` changes at most a byte of `IBUF` or `ILEN`, to the value written, and a
write to a read-only space is ignored; a write to `CMD` changes what the command issued changes. -/
def Obligations.HostWritesReachOnlyInput : Prop :=
  (∀ (s : State) (v : Word64) (rest : List HostAccess), s.pending = .write 0 0 v :: rest →
    step s = issueCommand (v.setWidth 8) { s with pending := rest, reply := .ack }) ∧
  ∀ (s t : State) (id : SpaceId) (k : Nat) (v : Word64) (rest : List HostAccess),
    s.pending = .write id k v :: rest → ¬(id = 0 ∧ k = 0) → step s = .next t →
    t.toArch = { s.toArch with ibuf := t.ibuf, ilen := t.ilen } ∧
    (∀ j, ¬(id = 1 ∧ j = k) → t.ibufByte j = s.ibufByte j) ∧
    (id = 1 → k < s.ibufCap.toNat → t.ibufByte k = v.setWidth 8) ∧
    (¬(id = 0 ∧ k = 5) → t.ilen = s.ilen) ∧ (id = 0 ∧ k = 5 → t.ilen = v) ∧
    (2 ≤ id.toNat → t.toArch = s.toArch)

/-- R58: an access to a reserved space or to an index out of range changes no state and is an access
error, and is none otherwise. -/
def Obligations.AccessErrorsChangeNothing : Prop :=
  ∀ (s : State) (id : SpaceId) (k : Nat),
    (7 ≤ id.toNat ∨ (id = 0 ∧ 15 ≤ k) ∨ (id = 1 ∧ s.ibufCap.toNat ≤ k) ∨
      (id = 2 ∧ s.pbufCap.toNat ≤ k) ∨ (id = 3 ∧ s.obufCap.toNat ≤ k) ∨ (id = 4 ∧ 256 ≤ k) ∨
      (id = 5 ∧ 1022 ≤ k) ∨ (id = 6 ∧ 2048 ≤ k) ↔ accessWellFormed s.toArch id k = false) ∧
    (accessWellFormed s.toArch id k = false →
      (∀ rest, s.pending = .read id k :: rest →
        ∃ t v, step s = .next t ∧ t.toArch = s.toArch ∧ t.reply = .accessError (some v)) ∧
      (∀ v rest, s.pending = .write id k v :: rest →
        ∃ t, step s = .next t ∧ t.toArch = s.toArch ∧ t.reply = .accessError none))

/-- R55: what a read of each register of space 0 gives; a write to one without "W" is ignored, one to `ILEN` is
stored, one to `CMD` issues a command. -/
def Obligations.RegisterMapReads : Prop :=
  (∀ (s : State) (k : Nat) (rest : List HostAccess), s.pending = .read 0 k :: rest → k < 15 →
    ∃ t v, step s = .next t ∧ t.reply = .data v ∧
      (k = 0 → v = 0) ∧ (k = 1 → v.toNat = s.status.toNat) ∧ (k = 2 → v.toNat = s.errcode.toNat) ∧
      (k = 3 → v = s.errinfo) ∧ (k = 4 → v.toNat = s.errcmd.toNat) ∧ (k = 5 → v = s.ilen) ∧
      (k = 6 → v = s.ocnt) ∧ (k = 7 → v = s.plen) ∧ (k = 8 → v = s.nbits) ∧ (k = 9 → v = s.olen) ∧
      (k = 10 → v.toNat = s.root.toNat) ∧ (k = 11 → v.toNat = s.nleaf.toNat) ∧
      (k = 12 → v = s.ibufCap) ∧ (k = 13 → v = s.pbufCap) ∧ (k = 14 → v = s.obufCap)) ∧
  (∀ (s : State) (k : Nat) (w : Word64) (rest : List HostAccess), s.pending = .write 0 k w :: rest →
    k < 15 →
    (k ≠ 0 → k ≠ 5 → ∃ t, step s = .next t ∧ t.toArch = s.toArch ∧ t.reply = .ack) ∧
    (k = 5 → ∃ t, step s = .next t ∧ t.toArch = { s.toArch with ilen := w } ∧ t.reply = .ack) ∧
    (k = 0 → step s = issueCommand (w.setWidth 8) { s with pending := rest, reply := .ack }))

/-- R56: the packed views of `NODE` and of the codebook, bit by bit. -/
def Obligations.PackedViewsRead : Prop :=
  (∀ (s : State) (i w : Nat) (rest : List HostAccess), s.pending = .read 5 (2 * i + w) :: rest →
    i ≤ 510 → w ≤ 1 →
    ∃ t v, step s = .next t ∧ t.reply = .data v ∧
      (w = 0 → v = (nodeAt s.node i).freq) ∧
      (w = 1 → v.extractLsb 8 0 = (nodeAt s.node i).left ∧
        v.extractLsb 17 9 = (nodeAt s.node i).right ∧ v.extractLsb 25 18 = (nodeAt s.node i).sym ∧
        v.extractLsb 27 26 = kindBits (nodeAt s.node i).kind ∧ v.extractLsb 63 28 = 0)) ∧
  (∀ (s : State) (b : Byte) (w : Nat) (rest : List HostAccess),
    s.pending = .read 6 (8 * b.toNat + w) :: rest → w ≤ 7 →
    ∃ t v, step s = .next t ∧ t.reply = .data v ∧
      (w = 0 → v.toNat = (tableGet s.clen b).toNat) ∧
      (1 ≤ w → w ≤ 4 → ∀ j, j < 64 →
        v.getLsbD j = (tableGet s.code b).getLsbD (64 * (w - 1) + j)) ∧
      (5 ≤ w → v = 0))

/-- A byte below the length register reads as the byte stored (R34, R35, R184), one from there on as some byte; every
byte of `IBUF` and entry of `FT` reads as it stands (R46). -/
def Obligations.BufferBytesRead : Prop :=
  ∀ (s : State) (k : Nat) (rest : List HostAccess),
    (s.pending = .read 1 k :: rest → k < s.ibufCap.toNat →
      ∃ t, step s = .next t ∧ t.reply = .data ((s.ibufByte k).setWidth 64)) ∧
    (s.pending = .read 2 k :: rest → k < s.pbufCap.toNat → k < s.plen.toNat →
      ∃ t, step s = .next t ∧ t.reply = .data ((s.pbufByte k).setWidth 64)) ∧
    (s.pending = .read 3 k :: rest → k < s.obufCap.toNat → k < s.olen.toNat →
      ∃ t, step s = .next t ∧ t.reply = .data ((s.obufByte k).setWidth 64)) ∧
    (s.pending = .read 4 k :: rest → k < 256 →
      ∃ t, step s = .next t ∧ t.reply = .data (tableGet s.ft (BitVec.ofNat 8 k))) ∧
    ((s.pending = .read 2 k :: rest ∧ k < s.pbufCap.toNat) ∨
      (s.pending = .read 3 k :: rest ∧ k < s.obufCap.toNat) →
      ∃ t v, step s = .next t ∧ t.reply = .data v ∧ v.toNat < 256)

/-- R38: the state after a reset, asserted at any time, the capacities kept; and the state after power-on, with
any capacities. -/
def Obligations.ResetLeavesTheCleanState : Prop :=
  (∀ (s : State) (rest : List HostAccess), s.pending = .reset :: rest →
    ∃ t, step s = .next t ∧ t.Clean ∧ t.pending = rest ∧
      t.ibufCap = s.ibufCap ∧ t.pbufCap = s.pbufCap ∧ t.obufCap = s.obufCap) ∧
  ∀ c : Capacities, (State.resetWith c).Clean ∧ (State.resetWith c).ibufCap = c.ibuf ∧
    (State.resetWith c).pbufCap = c.pbuf ∧ (State.resetWith c).obufCap = c.obuf

/-! ### CLEAR and COUNT -/

/-- R74: CLEAR executes in every state, `ERR = 1` included, and returns everything but `IBUF`, `ILEN`, the
capacities and the contents of `PBUF` and `OBUF` to its reset value. -/
def Obligations.ClearLeavesResetValues : Prop :=
  ∀ s : State, ∃ t, exec .clear s = .next t ∧ (∀ b, tableGet t.ft b = 0) ∧ t.ocnt = 0 ∧
    (∀ i, nodeAt t.node i = freeNode) ∧ t.root = Config.nil ∧ t.nleaf = 0 ∧
    (∀ b, tableGet t.clen b = 0 ∧ tableGet t.code b = 0) ∧ t.plen = 0 ∧ t.nbits = 0 ∧
    t.olen = 0 ∧ t.status = 0 ∧ t.errcode = 0 ∧ t.errinfo = 0 ∧ t.errcmd = 0 ∧
    t.ibuf = s.ibuf ∧ t.ilen = s.ilen ∧ t.ibufCap = s.ibufCap ∧ t.pbufCap = s.pbufCap ∧
    t.obufCap = s.obufCap ∧ sameBytes s.toArch t.toArch ∧ samePort s t ∧
    (s.err = true → ∀ i, i ≠ .clear → exec i s = .next s)

/-- R75: CLEAR is idempotent on the arch, and changes nothing in the reset state. -/
def Obligations.ClearIsIdempotent : Prop :=
  (∀ s t u : State, exec .clear s = .next t → exec .clear t = .next u → u.toArch = t.toArch) ∧
  ∀ (c : Capacities) (t : State), exec .clear (State.resetWith c) = .next t →
    t.toArch = (State.resetWith c).toArch

/-- R77: COUNT counts each symbol of the input, or raises `CapacityError` and clears its destinations; it
changes nothing but `FT`, `OCNT` and status. -/
def Obligations.CountTalliesTheInput : Prop :=
  ∀ s : State, s.err = false →
    (s.ilen.toNat ≤ s.ibufCap.toNat → ∃ t, exec .count s = .next t ∧
      (∀ b, (tableGet t.ft b).toNat = s.input.count b) ∧ t.ocnt = s.ilen ∧
      completesFrom t.toArch s.toArch ∧
      t.toArch = { withStatusOf s.toArch t.toArch with ft := t.ft, ocnt := t.ocnt }) ∧
    (s.ibufCap.toNat < s.ilen.toNat → ∃ t, exec .count s = .next t ∧
      t.raised 0x02 .capacity s.ilen.toNat ∧ (∀ b, tableGet t.ft b = 0) ∧ t.ocnt = 0 ∧
      t.toArch = { withStatusOf s.toArch t.toArch with ft := t.ft, ocnt := t.ocnt })

/-- R78: after a COUNT that completes the counts sum to the input's length, the nonzero entries are the symbols
that occur, and no later command of the compress path writes `FT`. -/
def Obligations.CountsSumToInputLength : Prop :=
  ∀ s t : State, s.err = false → exec .count s = .next t → t.err = false →
    tableSum t.ft = s.ilen.toNat ∧ t.ocnt = s.ilen ∧ (∀ b, tableGet t.ft b ≠ 0 ↔ b ∈ s.input) ∧
    ∀ i ∈ [Instr.build, Instr.codes, Instr.pack, Instr.serialize], ∀ u v : State,
      exec i u = .next v → v.ft = u.ft

/-! ### BUILD -/

/-- R83 with R84 to R86: the leaves in their slots; merge `k` takes the two least live nodes by the order of
R85, the first on the left, into slot `256 + k`; the last node left is the root. -/
def Obligations.BuildMergesTheTwoLeast : Prop :=
  ∀ s : State, s.err = false → ∃ t, exec .build s = .next t ∧ completesFrom t.toArch s.toArch ∧
    t.nleaf.toNat = (presentSymbols s.ft).length ∧
    (∀ b : Byte, nodeAt t.node b.toNat =
      if tableGet s.ft b = 0 then freeNode
      else ⟨.leaf, b, tableGet s.ft b, Config.nil, Config.nil⟩) ∧
    (∀ k, k + 1 < t.nleaf.toNat → ∃ a b,
      liveBefore t.node k a ∧ liveBefore t.node k b ∧ a ≠ b ∧
      (∀ c, liveBefore t.node k c → c ≠ a → comesBefore t.node a c = true) ∧
      (∀ c, liveBefore t.node k c → c ≠ a → c ≠ b → comesBefore t.node b c = true) ∧
      nodeAt t.node (256 + k) = ⟨.inner, 0, (nodeAt t.node a).freq + (nodeAt t.node b).freq,
        BitVec.ofNat 9 a, BitVec.ofNat 9 b⟩) ∧
    (∀ i, 256 + t.nleaf.toNat ≤ i + 1 → 256 ≤ i → nodeAt t.node i = freeNode) ∧
    (t.nleaf = 0 → t.root = Config.nil) ∧
    (t.nleaf ≠ 0 → ∀ i, liveBefore t.node (t.nleaf.toNat - 1) i ↔ i = t.root.toNat)

/-- R85: the tie-break is a strict total order on node indices. -/
def Obligations.TieBreakIsAStrictTotalOrder : Prop :=
  ∀ (t : NodeTable) (i j k : Nat),
    (comesBefore t i j = true ↔ (nodeAt t i).freq.toNat < (nodeAt t j).freq.toNat ∨
      ((nodeAt t i).freq.toNat = (nodeAt t j).freq.toNat ∧ i < j)) ∧
    comesBefore t i i = false ∧
    (comesBefore t i j = true → comesBefore t j k = true → comesBefore t i k = true) ∧
    (i ≠ j → (comesBefore t i j = true ↔ comesBefore t j i = false))

/-- R87: no symbol gives the absent tree, one symbol a lone leaf. -/
def Obligations.BuildOfDegenerateTables : Prop :=
  ∀ s : State, s.err = false →
    ((∀ b, tableGet s.ft b = 0) → ∃ t, exec .build s = .next t ∧ t.root = Config.nil ∧ t.nleaf = 0 ∧
      ∀ i, nodeAt t.node i = freeNode) ∧
    (∀ b, tableGet s.ft b ≠ 0 → (∀ u, u ≠ b → tableGet s.ft u = 0) →
      ∃ t, exec .build s = .next t ∧ t.root.toNat = b.toNat ∧ t.nleaf = 1 ∧
        nodeAt t.node b.toNat = ⟨.leaf, b, tableGet s.ft b, Config.nil, Config.nil⟩ ∧
        ∀ i, (nodeAt t.node i).kind ≠ .inner)

/-- R88, R31: BUILD of a table whose sum fits 64 bits leaves a well-formed tree: `m - 1` internal slots from
256 on, the last one the root, no path longer than `m - 1`, and the frequency of every node is the sum, without
wrap-around, of the `FT` entries of the leaves below it, and no more than the table's sum. -/
def Obligations.BuildLeavesAWellFormedTree : Prop :=
  ∀ s : State, s.err = false → s.CountsOk → ∃ t, exec .build s = .next t ∧ t.TreeOk ∧
    t.nleaf.toNat = (presentSymbols s.ft).length ∧
    (∀ i, (nodeAt t.node i).kind = .inner ↔ 256 ≤ i ∧ i + 2 ≤ 256 + t.nleaf.toNat) ∧
    (2 ≤ t.nleaf.toNat → t.root.toNat = 256 + t.nleaf.toNat - 2) ∧
    (∀ p b, leadsTo t.node t.root p b → p.length ≤ t.nleaf.toNat - 1) ∧
    (∀ i : NodeIndex, (nodeAt t.node i.toNat).kind ≠ .free → ∃ below : List Byte, below.Nodup ∧
      (∀ b, b ∈ below ↔ ∃ p, leadsTo t.node i p b) ∧
      (nodeAt t.node i.toNat).freq.toNat = (below.map fun b => (tableGet s.ft b).toNat).sum) ∧
    ∀ i, (nodeAt t.node i).freq.toNat ≤ tableSum s.ft

/-- R89: the paths of the tree BUILD leaves, weighted by frequency, are in all no longer than any binary prefix
code for the same symbols (the paths of any other binary tree with those leaves are one). -/
def Obligations.BuildIsOptimal : Prop :=
  ∀ s : State, s.err = false → s.CountsOk → 2 ≤ (presentSymbols s.ft).length →
    ∃ t, exec .build s = .next t ∧
      (∀ b, tableGet s.ft b ≠ 0 → ∃ p, leadsTo t.node t.root p b) ∧
      ∀ path c : Byte → List Bool,
        (∀ b, tableGet s.ft b ≠ 0 → leadsTo t.node t.root (path b) b) →
        (∀ b u, b ≠ u → tableGet s.ft b ≠ 0 → tableGet s.ft u ≠ 0 → ¬c b <+: c u) →
        (allSymbols.map fun b => (tableGet s.ft b).toNat * (path b).length).sum ≤
          (allSymbols.map fun b => (tableGet s.ft b).toNat * (c b).length).sum

/-! ### CODES -/

/-- R94, R95: CODES of a well-formed tree gives each symbol of the tree its path from the root (or "0" for a lone
leaf), and every other symbol no code. -/
def Obligations.CodesAreRootToLeafPaths : Prop :=
  ∀ s : State, s.err = false → s.TreeOk → ∃ t, exec .codes s = .next t ∧
    completesFrom t.toArch s.toArch ∧
    (∀ b p, codePath s.node s.root b p → (tableGet t.clen b).toNat = p.length ∧ t.codeBits b = p) ∧
    (∀ b, (∀ p, ¬codePath s.node s.root b p) → tableGet t.clen b = 0 ∧ tableGet t.code b = 0) ∧
    (∀ b, (nodeAt s.node b.toNat).kind = .leaf → ∃ p, codePath s.node s.root b p ∧
      ∀ q, codePath s.node s.root b q → q = p)

/-- R97 (a), (b), (c), (e): every symbol of the tree gets one nonempty code, no code is a prefix of another, no
code is longer than `NLEAF - 1` (or 1), and the codebook is a function of `NODE` and `ROOT`. -/
def Obligations.CodesArePrefixFree : Prop :=
  (∀ s t : State, s.err = false → s.TreeOk → exec .codes s = .next t →
    (∀ b, tableGet t.clen b ≠ 0 ↔ (nodeAt s.node b.toNat).kind = .leaf) ∧
    (∀ b u, b ≠ u → tableGet t.clen b ≠ 0 → tableGet t.clen u ≠ 0 →
      ¬t.codeBits b <+: t.codeBits u) ∧
    (∀ b, 2 ≤ s.nleaf.toNat → (tableGet t.clen b).toNat ≤ s.nleaf.toNat - 1) ∧
    (∀ b, s.nleaf = 1 → (tableGet t.clen b).toNat ≤ 1)) ∧
  ∀ s s' t t' : State, s.err = false → s'.err = false → s.node = s'.node → s.root = s'.root →
    exec .codes s = .next t → exec .codes s' = .next t' → t.clen = t'.clen ∧ t.code = t'.code

/-- R96, R98: a lone leaf's symbol gets the code "0"; an absent tree gives the empty codebook. -/
def Obligations.CodesOfDegenerateTrees : Prop :=
  ∀ s : State, s.err = false →
    (s.root ≠ Config.nil → (nodeAt s.node s.root.toNat).kind = .leaf → ∃ t, exec .codes s = .next t ∧
      tableGet t.clen (nodeAt s.node s.root.toNat).sym = 1 ∧
      tableGet t.code (nodeAt s.node s.root.toNat).sym = 0 ∧
      ∀ b, b ≠ (nodeAt s.node s.root.toNat).sym → tableGet t.clen b = 0) ∧
    (s.root = Config.nil → ∃ t, exec .codes s = .next t ∧ ∀ b, tableGet t.clen b = 0)

/-! ### PACK -/

/-- R102: PACK's three checks in their order, and the stream it stores. -/
def Obligations.PackStoresTheBitStream : Prop :=
  ∀ s : State, s.err = false → s.capsOk →
    (s.ibufCap.toNat < s.ilen.toNat → ∃ t, exec .pack s = .next t ∧
      t.raised 0x05 .capacity s.ilen.toNat ∧ t.plen = 0 ∧ t.nbits = 0) ∧
    (∀ i, s.ilen.toNat ≤ s.ibufCap.toNat → i < s.ilen.toNat →
      tableGet s.clen (s.ibufByte i) = 0 → (∀ j, j < i → tableGet s.clen (s.ibufByte j) ≠ 0) →
      ∃ t, exec .pack s = .next t ∧ t.raised 0x05 .noCode i ∧ t.plen = 0 ∧ t.nbits = 0) ∧
    (s.ilen.toNat ≤ s.ibufCap.toNat → (∀ b ∈ s.input, tableGet s.clen b ≠ 0) →
      (s.pbufCap.toNat < ceil8 s.bitStream.length → ∃ t, exec .pack s = .next t ∧
        t.raised 0x05 .capacity (ceil8 s.bitStream.length) ∧ t.plen = 0 ∧ t.nbits = 0) ∧
      (ceil8 s.bitStream.length ≤ s.pbufCap.toNat → ∃ t, exec .pack s = .next t ∧
        completesFrom t.toArch s.toArch ∧ t.nbits.toNat = s.bitStream.length ∧
        t.nbits.toNat = (s.input.map fun b => (tableGet s.clen b).toNat).sum ∧
        t.plen.toNat = ceil8 s.bitStream.length ∧
        (∀ p, p < t.nbits.toNat → streamBit t.payload p = s.bitStream.getD p false) ∧
        (∀ p, t.nbits.toNat ≤ p → p < 8 * t.plen.toNat → streamBit t.payload p = false)))

/-- R103, R107: the bits after the stream in the last byte are 0, fewer than eight of them; the empty input packs to
nothing; one symbol with the code "0" packs to zero bytes. -/
def Obligations.PackPadsWithZeros : Prop :=
  (∀ s t : State, s.err = false → s.capsOk → exec .pack s = .next t → t.err = false →
    8 * t.plen.toNat - t.nbits.toNat ≤ 7 ∧ t.nbits.toNat ≤ 8 * t.plen.toNat ∧
    (∀ p, p < t.nbits.toNat → streamBit t.payload p = s.bitStream.getD p false) ∧
    (∀ p, t.nbits.toNat ≤ p → p < 8 * t.plen.toNat → streamBit t.payload p = false) ∧
    (t.nbits.toNat % 8 = 0 → 8 * t.plen.toNat = t.nbits.toNat)) ∧
  (∀ s : State, s.err = false → s.ilen = 0 → ∃ t, exec .pack s = .next t ∧ t.err = false ∧
    t.plen = 0 ∧ t.nbits = 0) ∧
  ∀ (s : State) (b : Byte), s.err = false → s.capsOk → s.ilen.toNat ≤ s.ibufCap.toNat →
    ceil8 s.ilen.toNat ≤ s.pbufCap.toNat → (∀ x ∈ s.input, x = b) → s.codeBits b = [false] →
    ∃ t, exec .pack s = .next t ∧ t.err = false ∧ t.nbits = s.ilen ∧
      t.plen.toNat = ceil8 s.ilen.toNat ∧ ∀ x ∈ t.payload, x = 0

/-! ### SERIALIZE and DESERIALIZE -/

/-- R121, R123: the blob SERIALIZE writes, field by field at its offset, or `CapacityError`. -/
def Obligations.SerializeWritesTheBlob : Prop :=
  ∀ s : State, s.err = false →
    (s.obufCap.toNat < 10 + 9 * (presentSymbols s.ft).length + s.plen.toNat →
      ∃ t, exec .serialize s = .next t ∧
        t.raised 0x06 .capacity (10 + 9 * (presentSymbols s.ft).length + s.plen.toNat) ∧ t.olen = 0) ∧
    (10 + 9 * (presentSymbols s.ft).length + s.plen.toNat ≤ s.obufCap.toNat →
      ∃ t, exec .serialize s = .next t ∧ completesFrom t.toArch s.toArch ∧
        t.olen.toNat = 10 + 9 * (presentSymbols s.ft).length + s.plen.toNat ∧
        ofBE (readFrom t.obufByte 0 2) = (presentSymbols s.ft).length ∧
        (∀ k b, (presentSymbols s.ft)[k]? = some b → t.obufByte (2 + 9 * k) = b ∧
          ofBE (readFrom t.obufByte (3 + 9 * k) 8) = (tableGet s.ft b).toNat) ∧
        ofBE (readFrom t.obufByte (2 + 9 * (presentSymbols s.ft).length) 8) = s.ocnt.toNat ∧
        (∀ j, j < s.plen.toNat →
          t.obufByte (10 + 9 * (presentSymbols s.ft).length + j) = s.pbufByte j)) ∧
    ((presentSymbols s.ft).Pairwise (fun b u => b.toNat < u.toNat) ∧
      ∀ b, b ∈ presentSymbols s.ft ↔ tableGet s.ft b ≠ 0)

/-- R124: SERIALIZE is a function of `OCNT`, `FT`, `PBUF[0..PLEN)` and `PLEN`, and is injective. -/
def Obligations.SerializeIsInjective : Prop :=
  ∀ s s' t t' : State, s.err = false → s'.err = false →
    exec .serialize s = .next t → exec .serialize s' = .next t' → t.err = false → t'.err = false →
    (t.output = t'.output ↔ s.ocnt = s'.ocnt ∧ s.ft = s'.ft ∧ s.payload = s'.payload)

/-- R126: what DESERIALIZE commits when every check passes. -/
def Obligations.DeserializeLoadsTheContainer : Prop :=
  ∀ s : State, s.err = false → s.capsOk → s.ilen.toNat ≤ s.ibufCap.toNat →
    nsymOf s.ibufByte ≤ 256 → 10 + 9 * nsymOf s.ibufByte ≤ s.ilen.toNat →
    (∀ k, k < nsymOf s.ibufByte → pairOk s.ibufByte k) →
    pairFreqSum s.ibufByte (nsymOf s.ibufByte) = countOf s.ibufByte →
    s.ilen.toNat - (10 + 9 * nsymOf s.ibufByte) ≤ s.pbufCap.toNat →
    ∃ t, exec .deserialize s = .next t ∧ completesFrom t.toArch s.toArch ∧
      (∀ k, k < nsymOf s.ibufByte →
        (tableGet t.ft (pairSymbol s.ibufByte k)).toNat = pairFreq s.ibufByte k) ∧
      (∀ b, (∀ k, k < nsymOf s.ibufByte → pairSymbol s.ibufByte k ≠ b) → tableGet t.ft b = 0) ∧
      t.ocnt.toNat = countOf s.ibufByte ∧
      t.plen.toNat = s.ilen.toNat - (10 + 9 * nsymOf s.ibufByte) ∧
      t.nbits.toNat = 8 * t.plen.toNat ∧
      (∀ j, j < t.plen.toNat → t.pbufByte j = s.ibufByte (10 + 9 * nsymOf s.ibufByte + j))

/-- R126, R127, R131: each check of DESERIALIZE, in its order, with the error it raises; a failed one leaves its
five destinations cleared and everything else as it was. -/
def Obligations.DeserializeRejectsBadBlobs : Prop :=
  ∀ (s : State) (kind : ErrorKind) (info : Nat), s.err = false →
    DeserializeFails s.toArch kind info →
    ∃ t, exec .deserialize s = .next t ∧ t.raised 0x07 kind info ∧
      (∀ b, tableGet t.ft b = 0) ∧ t.ocnt = 0 ∧ t.plen = 0 ∧ t.nbits = 0 ∧
      t.toArch = { withStatusOf s.toArch t.toArch with
        ft := t.ft, ocnt := t.ocnt, plen := t.plen, nbits := t.nbits }

/-- R132: the container's round trip, and its converse: an accepted blob is the one SERIALIZE writes. -/
def Obligations.ContainerRoundTrip : Prop :=
  (∀ s t u : State, s.err = false → s.CountsOk → exec .serialize s = .next t → t.err = false →
    u.err = false → u.input = t.output → u.ilen.toNat ≤ u.ibufCap.toNat →
    s.plen.toNat ≤ u.pbufCap.toNat →
    ∃ v, exec .deserialize u = .next v ∧ v.err = false ∧ v.ocnt = s.ocnt ∧ v.ft = s.ft ∧
      v.payload = s.payload) ∧
  (∀ u v w x : State, u.err = false → exec .deserialize u = .next v → v.err = false →
    w.err = false → w.ft = v.ft → w.ocnt = v.ocnt → w.payload = v.payload →
    exec .serialize w = .next x → x.err = false → x.output = u.input)

/-! ### DECODE -/

/-- R116, R117, R115 (step 3) and R112: the cases of DECODE that read no payload, in the order of R111. -/
def Obligations.DecodeWithoutAWalk : Prop :=
  ∀ s : State, s.err = false →
    (s.ocnt = 0 → ∃ t, exec .decode s = .next t ∧ completesFrom t.toArch s.toArch ∧ t.olen = 0) ∧
    (s.ocnt ≠ 0 → s.obufCap.toNat < s.ocnt.toNat → ∃ t, exec .decode s = .next t ∧
      t.raised 0x08 .capacity s.ocnt.toNat ∧ t.olen = 0) ∧
    (s.ocnt ≠ 0 → s.ocnt.toNat ≤ s.obufCap.toNat → s.root = Config.nil →
      ∃ t, exec .decode s = .next t ∧ t.raised 0x08 .malformedTree 0 ∧ t.olen = 0) ∧
    (s.ocnt ≠ 0 → s.ocnt.toNat ≤ s.obufCap.toNat → s.root ≠ Config.nil →
      (nodeAt s.node s.root.toNat).kind = .leaf → ∃ t, exec .decode s = .next t ∧
        completesFrom t.toArch s.toArch ∧ t.olen = s.ocnt ∧
        t.output = List.replicate s.ocnt.toNat (nodeAt s.node s.root.toNat).sym)

/-- R109, R110 (step 5): a payload that starts with the paths of `OCNT` symbols decodes to those symbols. -/
def Obligations.DecodeWalksThePaths : Prop :=
  ∀ (s : State) (xs : List Byte) (path : Byte → List Bool) (rest : List Bool),
    s.err = false → s.TreeOk → 2 ≤ s.nleaf.toNat → s.ocnt.toNat ≤ s.obufCap.toNat →
    xs.length = s.ocnt.toNat → (∀ x ∈ xs, leadsTo s.node s.root (path x) x) →
    bitsOfBytes s.payload = xs.flatMap path ++ rest →
    ∃ t, exec .decode s = .next t ∧ completesFrom t.toArch s.toArch ∧ t.olen = s.ocnt ∧
      t.output = xs

/-- R114: a payload that ends inside the paths of the symbols wanted raises `TruncatedStreamError` with the number
of symbols whose paths were whole; one that ends with the last path raises nothing. -/
def Obligations.DecodeOfATruncatedStream : Prop :=
  ∀ (s : State) (xs : List Byte) (path : Byte → List Bool),
    s.err = false → s.TreeOk → 2 ≤ s.nleaf.toNat → s.ocnt.toNat ≤ s.obufCap.toNat →
    xs.length = s.ocnt.toNat → (∀ x ∈ xs, leadsTo s.node s.root (path x) x) →
    (bitsOfBytes s.payload <+: xs.flatMap path →
      (bitsOfBytes s.payload).length < (xs.flatMap path).length →
      ∃ t m, exec .decode s = .next t ∧ t.raised 0x08 .truncatedStream m ∧ t.olen = 0 ∧
        m < xs.length ∧ ((xs.take m).flatMap path).length ≤ 8 * s.plen.toNat ∧
        8 * s.plen.toNat < ((xs.take (m + 1)).flatMap path).length) ∧
    (bitsOfBytes s.payload = xs.flatMap path →
      ∃ t, exec .decode s = .next t ∧ t.err = false ∧ t.output = xs)

/-- R113: payload bytes beyond those needed change nothing of what a completed DECODE emits, and the symbols emitted
are `OCNT` many. -/
def Obligations.DecodeIgnoresWhatFollows : Prop :=
  ∀ (s s' t t' : State) (extra : List Byte), s.err = false → s'.err = false →
    s.node = s'.node → s.root = s'.root → s.ocnt = s'.ocnt → s.obufCap = s'.obufCap →
    s'.payload = s.payload ++ extra → exec .decode s = .next t → exec .decode s' = .next t' →
    t.err = false → t'.err = false ∧ t'.output = t.output ∧ t.olen = s.ocnt

/-- R115: with a well-formed tree DECODE raises `MalformedTreeError` only for an absent tree. -/
def Obligations.DecodeMeetsNoBadLink : Prop :=
  ∀ s t : State, s.err = false → s.TreeOk → exec .decode s = .next t → t.err = true →
    t.errcode = ErrorKind.malformedTree.errcode → s.root = Config.nil ∧ t.errinfo = 0

/-- R118: DECODE of what PACK stored gives back the input, when the codebook is that of the tree. -/
def Obligations.DecodeInvertsPack : Prop :=
  ∀ s t u v w : State, s.err = false → s.capsOk → s.TreeOk → exec .codes s = .next t →
    exec .pack t = .next u → u.err = false → v.err = false → v.node = s.node → v.root = s.root →
    v.payload = u.payload → v.ocnt = s.ilen → v.ocnt.toNat ≤ v.obufCap.toNat →
    exec .decode v = .next w → w.err = false ∧ w.output = s.input ∧ w.olen = s.ilen

/-- R79, R90, R105, R120: COUNT is a function of the input (and its capacity), BUILD of `FT` alone, PACK of the input
and the codebook (and the capacities), DECODE of the tree, the payload and `OCNT` (and the output capacity). -/
def Obligations.UnitCommandsAreFunctions : Prop :=
  ∀ s s' t t' : State, s.err = false → s'.err = false →
    (s.input = s'.input → s.ilen = s'.ilen → s.ibufCap = s'.ibufCap →
      exec .count s = .next t → exec .count s' = .next t' →
      t.ft = t'.ft ∧ t.ocnt = t'.ocnt ∧ t.err = t'.err ∧
      (t.err = true → t.errcode = t'.errcode ∧ t.errinfo = t'.errinfo)) ∧
    (s.ft = s'.ft → exec .build s = .next t → exec .build s' = .next t' →
      t.node = t'.node ∧ t.root = t'.root ∧ t.nleaf = t'.nleaf) ∧
    (s.input = s'.input → s.ilen = s'.ilen → s.clen = s'.clen → s.code = s'.code →
      s.ibufCap = s'.ibufCap → s.pbufCap = s'.pbufCap →
      exec .pack s = .next t → exec .pack s' = .next t' →
      t.plen = t'.plen ∧ t.nbits = t'.nbits ∧ t.payload = t'.payload ∧ t.err = t'.err ∧
      (t.err = true → t.errcode = t'.errcode ∧ t.errinfo = t'.errinfo)) ∧
    (s.node = s'.node → s.root = s'.root → s.payload = s'.payload → s.plen = s'.plen →
      s.ocnt = s'.ocnt → s.obufCap = s'.obufCap →
      exec .decode s = .next t → exec .decode s' = .next t' →
      t.olen = t'.olen ∧ t.output = t'.output ∧ t.err = t'.err ∧
      (t.err = true → t.errcode = t'.errcode ∧ t.errinfo = t'.errinfo))

/-! ### COMPRESS and DECOMPRESS -/

/-- R141, R143: COMPRESS leaves the arch that CLEAR, COUNT, BUILD, CODES, PACK and SERIALIZE leave when issued one
after another: after a stage that raises, the later ones change nothing. -/
def Obligations.CompressRunsItsStages : Prop :=
  ∀ s : State, s.err = false → ∃ t0 t1 t2 t3 t4 t5 t, exec .clear s = .next t0 ∧
    exec .count t0 = .next t1 ∧ exec .build t1 = .next t2 ∧ exec .codes t2 = .next t3 ∧
    exec .pack t3 = .next t4 ∧ exec .serialize t4 = .next t5 ∧ exec .compress s = .next t ∧
    t.toArch = t5.toArch

/-- R142, R143: DECOMPRESS leaves the arch that CLEAR, DESERIALIZE, BUILD and DECODE leave when issued one after
another. -/
def Obligations.DecompressRunsItsStages : Prop :=
  ∀ s : State, s.err = false → ∃ t0 t1 t2 t3 t, exec .clear s = .next t0 ∧
    exec .deserialize t0 = .next t1 ∧ exec .build t1 = .next t2 ∧ exec .decode t2 = .next t3 ∧
    exec .decompress s = .next t ∧ t.toArch = t3.toArch

/-- R144, R106: with the capacities of R6's last sentence COMPRESS completes on every input that fits `IBUF`; the
payload is no longer than the input, and `NBITS` is the sum of frequency times code length. -/
def Obligations.CompressCompletes : Prop :=
  ∀ s : State, s.err = false → s.capsOk → s.ilen.toNat ≤ s.ibufCap.toNat →
    s.ibufCap.toNat ≤ s.pbufCap.toNat →
    s.ibufCap.toNat + 10 + 9 * min 256 s.ibufCap.toNat ≤ s.obufCap.toNat →
    ∃ t, exec .compress s = .next t ∧ completesFrom t.toArch { s.toArch with errcode := 0, errinfo := 0, errcmd := 0 } ∧
      (∀ b, (tableGet t.ft b).toNat = s.input.count b) ∧ t.ocnt = s.ilen ∧
      t.nbits.toNat = (allSymbols.map fun b =>
        (tableGet t.ft b).toNat * (tableGet t.clen b).toNat).sum ∧
      t.nbits.toNat ≤ 8 * s.ilen.toNat ∧ t.plen.toNat ≤ s.ilen.toNat ∧
      t.olen.toNat = 10 + 9 * (presentSymbols t.ft).length + t.plen.toNat

/-- R144: the only error COMPRESS can raise is `CapacityError`, in COUNT, PACK or SERIALIZE; with the capacities of
R6's last sentence only in COUNT. -/
def Obligations.CompressRaisesOnlyCapacityErrors : Prop :=
  ∀ s t : State, s.err = false → s.capsOk → exec .compress s = .next t → t.err = true →
    t.errcode = ErrorKind.capacity.errcode ∧
    ((t.errcmd = 0x02 ∧ s.ibufCap.toNat < s.ilen.toNat) ∨
     (t.errcmd = 0x05 ∧ s.ilen.toNat ≤ s.ibufCap.toNat ∧ s.pbufCap.toNat < t.errinfo.toNat) ∨
     (t.errcmd = 0x06 ∧ s.ilen.toNat ≤ s.ibufCap.toNat ∧ s.obufCap.toNat < t.errinfo.toNat)) ∧
    (s.ibufCap.toNat ≤ s.pbufCap.toNat →
      s.ibufCap.toNat + 10 + 9 * min 256 s.ibufCap.toNat ≤ s.obufCap.toNat → t.errcmd = 0x02)

/-- R145: DECOMPRESS raises from DESERIALIZE or DECODE, and never `MalformedTreeError`. -/
def Obligations.DecompressNeverMeetsABadTree : Prop :=
  ∀ s t : State, s.err = false → exec .decompress s = .next t → t.err = true →
    (t.errcmd = 0x07 ∧ (t.errcode = ErrorKind.capacity.errcode ∨
      t.errcode = ErrorKind.malformedContainer.errcode)) ∨
    (t.errcmd = 0x08 ∧ ((t.errcode = ErrorKind.capacity.errcode ∧ t.obufCap.toNat < t.ocnt.toNat) ∨
      t.errcode = ErrorKind.truncatedStream.errcode))

/-- R142: DECOMPRESS of an accepted blob whose payload starts with the codes of `COUNT` symbols, or whose table has
at most one symbol, completes with those symbols. -/
def Obligations.DecompressDecodesTheBlob : Prop :=
  ∀ (s : State) (m : Metadata) (xs : List Byte) (path : Byte → List Bool) (rest : List Bool),
    s.err = false → s.ilen.toNat ≤ s.ibufCap.toNat →
    parseMetadata s.ibufByte s.ilen.toNat = .accepted m →
    s.ilen.toNat - m.offset ≤ s.pbufCap.toNat → m.count.toNat ≤ s.obufCap.toNat →
    xs.length = m.count.toNat →
    (∀ x ∈ xs, codePath (mergeAll m.table).1 (rootOf (mergeAll m.table).2) x (path x)) →
    ((presentSymbols m.table).length ≤ 1 ∨
      bitsOfBytes (s.input.drop m.offset) = xs.flatMap path ++ rest) →
    ∃ t, exec .decompress s = .next t ∧ t.status = 1 ∧ t.errcode = 0 ∧ t.output = xs ∧
      t.olen = m.count ∧ t.ocnt = m.count ∧ t.ft = m.table ∧
      (∀ b, tableGet t.clen b = 0 ∧ tableGet t.code b = 0)

/-- R146: the round trip. What COMPRESS writes, loaded into `IBUF`, DECOMPRESS turns back into the input. -/
def Obligations.CompressDecompressRoundTrip : Prop :=
  ∀ s t u : State, s.err = false → s.capsOk → exec .compress s = .next t → t.err = false →
    u.err = false → u.input = t.output → u.ilen.toNat ≤ u.ibufCap.toNat →
    t.plen.toNat ≤ u.pbufCap.toNat → s.ilen.toNat ≤ u.obufCap.toNat →
    ∃ v, exec .decompress u = .next v ∧ v.err = false ∧ v.output = s.input ∧ v.olen = s.ilen

/-- R147: the empty input and the input of one distinct symbol. -/
def Obligations.CompressOfDegenerateInputs : Prop :=
  (∀ s : State, s.err = false → s.ilen = 0 → 10 ≤ s.obufCap.toNat → ∃ t, exec .compress s = .next t ∧
    t.status = 1 ∧ (∀ b, tableGet t.ft b = 0) ∧ t.ocnt = 0 ∧ t.root = Config.nil ∧ t.nleaf = 0 ∧
    (∀ b, tableGet t.clen b = 0) ∧ t.plen = 0 ∧ t.nbits = 0 ∧ t.output = List.replicate 10 0) ∧
  (∀ s : State, s.err = false → s.ilen.toNat ≤ s.ibufCap.toNat → s.input = List.replicate 10 0 →
    ∃ t, exec .decompress s = .next t ∧ t.status = 1 ∧ t.olen = 0) ∧
  (∀ (s t : State) (b : Byte), s.err = false → s.capsOk → s.ilen ≠ 0 → (∀ x ∈ s.input, x = b) →
    exec .compress s = .next t → t.err = false →
    tableGet t.clen b = 1 ∧ t.codeBits b = [false] ∧ t.nbits = s.ilen)

/-- R143: what COMPRESS and DECOMPRESS leave depends only on `IBUF[0..ILEN)`, `ILEN` and the capacities. -/
def Obligations.SequencesDependOnlyOnTheInput : Prop :=
  ∀ i ∈ [Instr.compress, Instr.decompress], ∀ s s' t t' : State, s.err = false → s'.err = false →
    s.ilen = s'.ilen → s.input = s'.input → s.ibufCap = s'.ibufCap → s.pbufCap = s'.pbufCap →
    s.obufCap = s'.obufCap → exec i s = .next t → exec i s' = .next t' →
    SameResults t.toArch t'.toArch

/-! ### Completion, error entry, frames -/

/-- R157, R158: a command other than CLEAR that executes either completes, setting `DONE` and keeping the other
status registers, or ends by an error entry; `DONE` and `ERR` are never both 1 then. -/
def Obligations.CommandsCompleteOrRaise : Prop :=
  ∀ (i : Instr) (s t : State), i ≠ .clear → i ≠ .compress → i ≠ .decompress → s.err = false →
    exec i s = .next t →
    completesFrom t.toArch s.toArch ∨ ∃ kind info, canRaise i kind = true ∧
      t.raised (encode i) kind info ∧
      t.toArch = recordError (encode i) kind info (clearDestinations i s.toArch)

/-- R158: what an error entry clears, command by command, and that nothing else changes. -/
def Obligations.ErrorEntryClearsDestinations : Prop :=
  ∀ (i : Instr) (s t : State), i ≠ .clear → i ≠ .compress → i ≠ .decompress → s.err = false →
    exec i s = .next t → t.err = true →
    (∃ kind info, canRaise i kind = true ∧ t.raised (encode i) kind info) ∧
    (i = .count → (∀ b, tableGet t.ft b = 0) ∧ t.ocnt = 0 ∧
      t.toArch = { withStatusOf s.toArch t.toArch with ft := t.ft, ocnt := 0 }) ∧
    (i = .pack → t.toArch = { withStatusOf s.toArch t.toArch with plen := 0, nbits := 0 }) ∧
    (i = .serialize → t.toArch = { withStatusOf s.toArch t.toArch with olen := 0 }) ∧
    (i = .deserialize → (∀ b, tableGet t.ft b = 0) ∧
      t.toArch = { withStatusOf s.toArch t.toArch with
        ft := t.ft, ocnt := 0, plen := 0, nbits := 0 }) ∧
    (i = .decode → t.toArch = { withStatusOf s.toArch t.toArch with olen := 0 }) ∧
    i ≠ .build ∧ i ≠ .codes

/-- Frame (R40) of the commands that store to no buffer: COUNT, BUILD, CODES. -/
def Obligations.FrameOfTableCommands : Prop :=
  ∀ s t : State,
    (exec .count s = .next t → samePort s t ∧ sameBytes s.toArch t.toArch ∧
      t.toArch = { withStatusOf s.toArch t.toArch with ft := t.ft, ocnt := t.ocnt }) ∧
    (exec .build s = .next t → samePort s t ∧ sameBytes s.toArch t.toArch ∧
      t.toArch = { withStatusOf s.toArch t.toArch with
        node := t.node, root := t.root, nleaf := t.nleaf }) ∧
    (exec .codes s = .next t → samePort s t ∧ sameBytes s.toArch t.toArch ∧
      t.toArch = { withStatusOf s.toArch t.toArch with clen := t.clen, code := t.code })

/-- Frame (R40, R48) of the commands that store to a buffer: PACK, SERIALIZE, DESERIALIZE, DECODE. The bytes stored
are those from index 0 up to the length the command computes; that the storage keeps the others is the model's choice
(notes/assumptions/4.md). -/
def Obligations.FrameOfStoringCommands : Prop :=
  ∀ s t : State,
    (exec .pack s = .next t → samePort s t ∧
      t.toArch = { withStatusOf s.toArch t.toArch with
        pbuf := t.pbuf, plen := t.plen, nbits := t.nbits } ∧
      ∀ k, t.ibufByte k = s.ibufByte k ∧ t.obufByte k = s.obufByte k ∧
        (ceil8 s.bitStream.length ≤ k → t.pbufByte k = s.pbufByte k)) ∧
    (exec .serialize s = .next t → samePort s t ∧
      t.toArch = { withStatusOf s.toArch t.toArch with obuf := t.obuf, olen := t.olen } ∧
      ∀ k, t.ibufByte k = s.ibufByte k ∧ t.pbufByte k = s.pbufByte k ∧
        (s.blobSize ≤ k → t.obufByte k = s.obufByte k)) ∧
    (exec .deserialize s = .next t → samePort s t ∧
      t.toArch = { withStatusOf s.toArch t.toArch with
        ft := t.ft, ocnt := t.ocnt, pbuf := t.pbuf, plen := t.plen, nbits := t.nbits } ∧
      ∀ k, t.ibufByte k = s.ibufByte k ∧ t.obufByte k = s.obufByte k ∧
        (s.ilen.toNat - (10 + 9 * nsymOf s.ibufByte) ≤ k → t.pbufByte k = s.pbufByte k)) ∧
    (exec .decode s = .next t → samePort s t ∧
      t.toArch = { withStatusOf s.toArch t.toArch with obuf := t.obuf, olen := t.olen } ∧
      ∀ k, t.ibufByte k = s.ibufByte k ∧ t.pbufByte k = s.pbufByte k ∧
        (s.ocnt.toNat ≤ k → t.obufByte k = s.obufByte k))

/-- Frame (R40) of COMPRESS and DECOMPRESS: `IBUF`, `ILEN` and the capacities, and the bytes of `PBUF` and `OBUF` from
the lengths they leave on; that the storage keeps those is the model's choice (notes/assumptions/4.md). -/
def Obligations.FrameOfSequences : Prop :=
  ∀ i ∈ [Instr.compress, Instr.decompress], ∀ s t : State, exec i s = .next t → s.err = false →
    samePort s t ∧ t.ibuf = s.ibuf ∧ t.ilen = s.ilen ∧ t.ibufCap = s.ibufCap ∧
    t.pbufCap = s.pbufCap ∧ t.obufCap = s.obufCap ∧
    ∀ k, t.ibufByte k = s.ibufByte k ∧ (t.plen.toNat ≤ k → t.pbufByte k = s.pbufByte k) ∧
      (t.olen.toNat ≤ k → t.obufByte k = s.obufByte k)

/-! ### Invariants -/

/-- The reset state, with any capacities in range, meets everything R39 says (R38, R39). -/
def Obligations.ResetMeetsTheInvariant : Prop :=
  ∀ c : Capacities, c.wellFormed = true → (State.resetWith c).Ok

/-- R23 to R26, R39 (e): every step keeps the status registers consistent. -/
def Obligations.StepKeepsStatusConsistent : Prop :=
  ∀ s t : State, step s = .next t → s.StatusOk → t.StatusOk

/-- R18 to R20, R39 (b): every step keeps the length registers within the capacities, with fewer than eight padding
bits. -/
def Obligations.StepKeepsLengthsInRange : Prop :=
  ∀ s t : State, step s = .next t → s.capsOk → s.LengthsOk → t.capsOk ∧ t.LengthsOk

/-- R39 (a): every step keeps the frequencies summing to the count. -/
def Obligations.StepKeepsCountsSummed : Prop :=
  ∀ s t : State, step s = .next t → s.CountsOk → t.CountsOk

/-- R31: every step keeps the tree well formed. -/
def Obligations.StepKeepsTheTreeWellFormed : Prop :=
  ∀ s t : State, step s = .next t → s.CountsOk → s.TreeOk → t.TreeOk

/-- R39 (d), R32: every step keeps the codebook prefix-free with its unused bits 0. -/
def Obligations.StepKeepsTheCodebookPrefixFree : Prop :=
  ∀ s t : State, step s = .next t → s.CountsOk → s.TreeOk → s.CodebookOk → t.CodebookOk

/-- R33 to R35: every step keeps the three buffers in canonical form within their capacities. -/
def Obligations.StepKeepsBuffersCanonical : Prop :=
  ∀ s t : State, step s = .next t → s.BuffersOk → t.BuffersOk

/-- R39: every step keeps all of it together. -/
def Obligations.StepKeepsTheInvariant : Prop :=
  ∀ s t : State, step s = .next t → s.Ok → t.Ok
end

