-- ==== Sys2Proof/Laws/Bits.lean ====
section
/-!
SUPPORT. Laws of bit strings, stream bytes and big-endian fields.
-/

namespace Sys2Proof.Machine

@[simp] theorem toBE_length (n v : Nat) : (toBE n v).length = n := by
  induction n with
  | zero => rfl
  | succ n ih => simp [toBE, ih]

theorem ofBE_foldl (bs : List Byte) (acc : Nat) :
    bs.foldl (fun acc b => 256 * acc + b.toNat) acc = acc * 256 ^ bs.length + ofBE bs := by
  induction bs generalizing acc with
  | nil => simp [ofBE]
  | cons b bs ih =>
    have h : ofBE (b :: bs) = (256 * 0 + b.toNat) * 256 ^ bs.length + ofBE bs := by
      rw [← ih]; rfl
    rw [List.foldl_cons, ih, h, List.length_cons, pow_succ]
    ring

theorem ofBE_cons (b : Byte) (bs : List Byte) :
    ofBE (b :: bs) = b.toNat * 256 ^ bs.length + ofBE bs := by
  simp only [ofBE, List.foldl_cons, Nat.mul_zero, Nat.zero_add]
  exact ofBE_foldl bs _

theorem ofBE_lt (bs : List Byte) : ofBE bs < 256 ^ bs.length := by
  induction bs with
  | nil => simp [ofBE]
  | cons b bs ih =>
    rw [ofBE_cons, List.length_cons, Nat.pow_succ]
    have := b.isLt
    have h : b.toNat * 256 ^ bs.length ≤ 255 * 256 ^ bs.length := Nat.mul_le_mul_right _ (by omega)
    omega

/-- A field read back is the number written, when it fits the field's width (R8: `toBE` is the inverse). -/
theorem ofBE_toBE (n v : Nat) (h : v < 256 ^ n) : ofBE (toBE n v) = v := by
  have key : ∀ n v, ofBE (toBE n v) = v % 256 ^ n := by
    intro n
    induction n with
    | zero => intro v; simp [toBE, ofBE, Nat.mod_one]
    | succ n ih =>
      intro v
      have e : (2 : Nat) ^ 8 = 256 := rfl
      rw [toBE, ofBE_cons, ih, toBE_length, BitVec.toNat_ofNat, e, pow_succ, Nat.mod_mul]
      ring
  rw [key, Nat.mod_eq_of_lt h]

/-- A byte sequence is the field of the number it stands for. -/
theorem toBE_ofBE (bs : List Byte) : toBE bs.length (ofBE bs) = bs := by
  induction bs with
  | nil => rfl
  | cons b bs ih =>
    have hlt := ofBE_lt bs
    have hpos : 0 < 256 ^ bs.length := by positivity
    rw [List.length_cons, toBE]
    have h1 : ofBE (b :: bs) / 256 ^ bs.length = b.toNat := by
      rw [ofBE_cons, Nat.mul_comm, Nat.mul_add_div hpos, Nat.div_eq_of_lt hlt, Nat.add_zero]
    have h2 : ∀ n w v, toBE n (w * 256 ^ n + v) = toBE n v := by
      intro n
      induction n with
      | zero => intros; rfl
      | succ n ihn =>
        intro w v
        rw [toBE, toBE]
        have e1 : (w * 256 ^ (n + 1) + v) / 256 ^ n = w * 256 + v / 256 ^ n := by
          have hp : 0 < 256 ^ n := by positivity
          have : w * 256 ^ (n + 1) + v = 256 ^ n * (w * 256) + v := by ring
          rw [this, Nat.mul_add_div hp]
        have e2 : w * 256 ^ (n + 1) + v = (w * 256) * 256 ^ n + v := by ring
        rw [e1, e2, ihn]
        congr 1
        apply BitVec.eq_of_toNat_eq
        simp only [BitVec.toNat_ofNat]
        omega
    rw [h1, ofBE_cons, h2, ih]
    simp

@[simp] theorem bitsOfByte_length (b : Byte) : (bitsOfByte b).length = 8 := by simp [bitsOfByte]

@[simp] theorem bitsOfBytes_length (bs : List Byte) : (bitsOfBytes bs).length = 8 * bs.length := by
  induction bs with
  | nil => rfl
  | cons b bs ih =>
    simp only [bitsOfBytes, List.flatMap_cons, List.length_append, bitsOfByte_length, List.length_cons]
    simp only [bitsOfBytes] at ih
    omega

theorem bitsOfBytes_cons (b : Byte) (bs : List Byte) :
    bitsOfBytes (b :: bs) = bitsOfByte b ++ bitsOfBytes bs := by simp [bitsOfBytes]

theorem bitsOfBytes_append (xs ys : List Byte) :
    bitsOfBytes (xs ++ ys) = bitsOfBytes xs ++ bitsOfBytes ys := by simp [bitsOfBytes]

/-- Stream bit `p` by its place in the bytes (R52) is the `p`-th bit of the bit sequence. -/
theorem bitsOfBytes_getElem? (bs : List Byte) (p : Nat) (h : p < 8 * bs.length) :
    (bitsOfBytes bs)[p]? = some (streamBit bs p) := by
  induction bs generalizing p with
  | nil => simp at h
  | cons b bs ih =>
    rw [bitsOfBytes_cons, List.getElem?_append, bitsOfByte_length]
    by_cases hp : p < 8
    · have h1 : p / 8 = 0 := by omega
      have h2 : p % 8 = p := by omega
      rw [if_pos hp]
      simp only [bitsOfByte, List.getElem?_map, List.getElem?_range hp, Option.map_some, streamBit,
        h1, h2, List.getD_cons_zero, BitVec.getMsbD]
      simp [hp]
    · have h1 : p / 8 = (p - 8) / 8 + 1 := by omega
      have h2 : p % 8 = (p - 8) % 8 := by omega
      rw [if_neg hp, ih (p - 8) (by simp at h; omega)]
      simp only [streamBit, h1, h2, List.getD_cons_succ]

theorem bitsOfBytes_getD (bs : List Byte) (p : Nat) : (bitsOfBytes bs).getD p false = streamBit bs p := by
  by_cases h : p < 8 * bs.length
  · simp [List.getD, bitsOfBytes_getElem? bs p h]
  · have h1 : (bitsOfBytes bs).length ≤ p := by simp; omega
    have h2 : bs.length ≤ p / 8 := by omega
    simp [List.getD, List.getElem?_eq_none h1, streamBit, List.getElem?_eq_none h2]

/-- The bits of a byte made from stream bits: those given, then zeros. -/
theorem bitsOfByte_byteOfBits (bits : List Bool) (h : bits.length ≤ 8) :
    bitsOfByte (byteOfBits bits) = bits ++ List.replicate (8 - bits.length) false := by
  have key : ∀ b0 b1 b2 b3 b4 b5 b6 b7 : Bool,
      bitsOfByte (byteOfBits [b0, b1, b2, b3, b4, b5, b6, b7]) = [b0, b1, b2, b3, b4, b5, b6, b7] := by
    decide
  have pad : byteOfBits bits = byteOfBits (bits ++ List.replicate (8 - bits.length) false) := by
    have : ∀ j, (bits ++ List.replicate (8 - bits.length) false).getD j false = bits.getD j false := by
      intro j
      simp only [List.getD_eq_getElem?_getD, List.getElem?_append, List.getElem?_replicate]
      split
      · rfl
      · rename_i hj
        rw [List.getElem?_eq_none (by omega)]
        split <;> rfl
    simp only [byteOfBits, this]
  have hl : (bits ++ List.replicate (8 - bits.length) false).length = 8 := by simp; omega
  rw [pad]
  match h8 : bits ++ List.replicate (8 - bits.length) false, hl with
  | [b0, b1, b2, b3, b4, b5, b6, b7], _ => exact key b0 b1 b2 b3 b4 b5 b6 b7

@[simp] theorem packBits_length (n : Nat) (bits : List Bool) : (packBits n bits).length = n := by
  induction n generalizing bits with
  | zero => rfl
  | succ n ih => simp [packBits, ih]

/-- The stream packed into enough bytes reads back as the stream followed by zero padding (R103). -/
theorem bitsOfBytes_packBits (n : Nat) (bits : List Bool) (h : bits.length ≤ 8 * n) :
    bitsOfBytes (packBits n bits) = bits ++ List.replicate (8 * n - bits.length) false := by
  induction n generalizing bits with
  | zero =>
    have : bits = [] := List.length_eq_zero_iff.mp (by omega)
    subst this; rfl
  | succ n ih =>
    rw [packBits, bitsOfBytes_cons, bitsOfByte_byteOfBits _ (by simp),
      ih _ (by simp; omega)]
    by_cases hl : 8 ≤ bits.length
    · have h1 : (bits.take 8).length = 8 := by simp; omega
      have h2 : (bits.drop 8).length = bits.length - 8 := by simp
      rw [h1, h2, Nat.sub_self, List.replicate_zero, List.append_nil, ← List.append_assoc,
        List.take_append_drop]
      congr 2
      omega
    · have h1 : bits.take 8 = bits := List.take_of_length_le (by omega)
      have h2 : bits.drop 8 = [] := List.drop_of_length_le (by omega)
      rw [h1, h2, List.append_assoc, List.nil_append, List.length_nil, List.replicate_append_replicate]
      congr 2
      omega

theorem length_le_ceil8 (n : Nat) : n ≤ 8 * ceil8 n := by unfold ceil8; omega

theorem ceil8_lt (n : Nat) : 8 * ceil8 n < n + 8 := by unfold ceil8; omega

theorem natOfBits_lt (p : List Bool) : natOfBits p < 2 ^ p.length := by
  induction p with
  | nil => simp [natOfBits]
  | cons b p ih =>
    rw [natOfBits, List.length_cons, Nat.pow_succ]
    have : b.toNat ≤ 1 := Bool.toNat_le b
    omega

theorem natOfBits_testBit (p : List Bool) (j : Nat) : (natOfBits p).testBit j = p.getD j false := by
  induction p generalizing j with
  | nil => simp [natOfBits]
  | cons b p ih =>
    cases j with
    | zero => cases b <;> simp [natOfBits]
    | succ j =>
      rw [natOfBits, List.getD_cons_succ, ← ih, Nat.testBit_succ]
      congr 1
      cases b <;> simp
      omega

/-- Bit `j` of a stored code is element `j` of its bit string (R32). -/
theorem codeOfBits_getLsbD (p : List Bool) (j : Nat) (h : p.length ≤ 255) :
    (codeOfBits p).getLsbD j = p.getD j false := by
  unfold codeOfBits
  rw [BitVec.getLsbD_ofNat, natOfBits_testBit]
  by_cases hj : j < 255
  · simp [hj]
  · rw [List.getD_eq_default _ _ (by omega)]
    simp

/-- A stored code stands for the bit string it was stored from. -/
theorem bitsOfCode_codeOfBits (p : List Bool) (h : p.length ≤ 255) :
    bitsOfCode (BitVec.ofNat 8 p.length) (codeOfBits p) = p := by
  unfold bitsOfCode
  rw [BitVec.toNat_ofNat, Nat.mod_eq_of_lt (by omega)]
  apply List.ext_getElem?
  intro j
  rw [List.getElem?_map]
  by_cases hj : j < p.length
  · rw [List.getElem?_range hj, Option.map_some, codeOfBits_getLsbD p j h,
      List.getD_eq_getElem _ _ hj, List.getElem?_eq_getElem hj]
  · rw [List.getElem?_eq_none (by simp; omega), List.getElem?_eq_none (by omega)]
    rfl

@[simp] theorem bitsOfCode_length (n : Byte) (c : CodeBits) : (bitsOfCode n c).length = n.toNat := by
  simp [bitsOfCode]

end Sys2Proof.Machine
end

