-- ==== Sys2Proof/Laws/Memory.lean ====
section
/-!
SUPPORT. Laws of the byte memories: a read after a write, what a write leaves alone, and the canonical
form.
-/

namespace Sys2Proof.Machine

/-- The index of the first listed cell is above `i`. -/
def Memory.above (i : Nat) : Memory → Prop
  | [] => True
  | (j, _) :: _ => i < j

theorem Memory.wf_cons (i : Nat) (b : Byte) (m : Memory) :
    Memory.wf ((i, b) :: m) = true ↔ Memory.above i m ∧ Memory.wf m = true := by
  cases m with
  | nil => simp [Memory.wf, Memory.above]
  | cons c m => obtain ⟨j, b'⟩ := c; simp [Memory.wf, Memory.above]

@[simp] theorem Memory.find_nil (i : Nat) : Memory.find [] i = none := rfl

theorem Memory.find_put (m : Memory) (i j : Nat) (v : Byte) :
    Memory.find (Memory.put m i v) j = if j = i then some v else Memory.find m j := by
  induction m with
  | nil => simp [Memory.put, Memory.find]
  | cons c m ih =>
    obtain ⟨k, b⟩ := c
    unfold Memory.put
    split
    · simp [Memory.find]
    · split
      · rename_i h; subst h; by_cases hj : j = i <;> simp [Memory.find, hj]
      · rename_i h1 h2
        by_cases hj : j = k
        · subst hj; simp [Memory.find, Ne.symm h2]
        · simp [Memory.find, hj, ih]

theorem Memory.above_put {m : Memory} {i k : Nat} (v : Byte) (h : Memory.above k m) (hk : k < i) :
    Memory.above k (Memory.put m i v) := by
  cases m with
  | nil => simpa [Memory.put, Memory.above] using hk
  | cons c m =>
    obtain ⟨j, b⟩ := c
    unfold Memory.put
    split
    · simpa [Memory.above] using hk
    · split
      · simpa [Memory.above] using hk
      · simpa [Memory.above] using h

/-- A byte written keeps the canonical form. -/
theorem Memory.wf_put {m : Memory} (i : Nat) (v : Byte) (h : Memory.wf m = true) :
    Memory.wf (Memory.put m i v) = true := by
  induction m with
  | nil => simp [Memory.put, Memory.wf]
  | cons c m ih =>
    obtain ⟨k, b⟩ := c
    rw [Memory.wf_cons] at h
    unfold Memory.put
    split
    · rename_i hlt
      rw [Memory.wf_cons, Memory.wf_cons]
      exact ⟨hlt, h⟩
    · split
      · rename_i heq; subst heq; rw [Memory.wf_cons]; exact h
      · rename_i h1 h2
        rw [Memory.wf_cons]
        exact ⟨Memory.above_put v h.1 (by omega), ih h.2⟩

/-- A run of bytes written keeps the canonical form. -/
theorem Memory.wf_write {m : Memory} (i : Nat) (bs : List Byte) (h : Memory.wf m = true) :
    Memory.wf (Memory.write m i bs) = true := by
  induction bs generalizing m i with
  | nil => exact h
  | cons b bs ih => exact ih _ (Memory.wf_put i b h)

/-- A read after a run of writes: the byte written there, else what was there before. -/
theorem Memory.find_write (m : Memory) (i : Nat) (bs : List Byte) (j : Nat) :
    Memory.find (Memory.write m i bs) j =
      if i ≤ j ∧ j < i + bs.length then bs[j - i]? else Memory.find m j := by
  induction bs generalizing m i with
  | nil => simp [Memory.write]
  | cons b bs ih =>
    simp only [Memory.write, ih, Memory.find_put, List.length_cons]
    by_cases h1 : j = i
    · subst h1
      simp
    · by_cases h2 : i + 1 ≤ j ∧ j < i + 1 + bs.length
      · have h3 : i ≤ j ∧ j < i + (bs.length + 1) := by omega
        have h4 : j - i = (j - (i + 1)) + 1 := by omega
        rw [if_pos h2, if_pos h3, h4, List.getElem?_cons_succ]
      · have h3 : ¬(i ≤ j ∧ j < i + (bs.length + 1)) := by omega
        rw [if_neg h2, if_neg h3, if_neg h1]

/-- A write leaves every byte outside its run alone. -/
theorem Memory.read_write_outside {seed : Nat} {buf : Buffer} {m : Memory} {i j : Nat}
    {bs : List Byte} (h : j < i ∨ i + bs.length ≤ j) :
    Memory.read seed buf (Memory.write m i bs) j = Memory.read seed buf m j := by
  have : ¬(i ≤ j ∧ j < i + bs.length) := by omega
  simp [Memory.read, Memory.find_write, this]

/-- A write stores its bytes at its run. -/
theorem Memory.read_write_inside {seed : Nat} {buf : Buffer} {m : Memory} {i j : Nat}
    {bs : List Byte} (h1 : i ≤ j) (h2 : j < i + bs.length) :
    Memory.read seed buf (Memory.write m i bs) j = bs[j - i]'(by omega) := by
  have : j - i < bs.length := by omega
  simp [Memory.read, Memory.find_write, h1, h2, List.getElem?_eq_getElem this]

@[simp] theorem Memory.read_put_same {seed : Nat} {buf : Buffer} {m : Memory} {i : Nat} {v : Byte} :
    Memory.read seed buf (Memory.put m i v) i = v := by
  simp [Memory.read, Memory.find_put]

theorem Memory.read_put_other {seed : Nat} {buf : Buffer} {m : Memory} {i j : Nat} {v : Byte}
    (h : j ≠ i) : Memory.read seed buf (Memory.put m i v) j = Memory.read seed buf m j := by
  simp [Memory.read, Memory.find_put, h]

/-- Every listed index is below the bound. -/
def Memory.below (n : Nat) (m : Memory) : Prop := ∀ c ∈ m, c.1 < n

theorem Memory.mem_put {m : Memory} {i : Nat} {v : Byte} {c : Host.Cell}
    (h : c ∈ Memory.put m i v) : c = (i, v) ∨ c ∈ m := by
  induction m with
  | nil => simpa [Memory.put] using h
  | cons d m ih =>
    obtain ⟨k, b⟩ := d
    unfold Memory.put at h
    split at h
    · simpa using h
    · split at h
      · simp only [List.mem_cons] at h ⊢
        rcases h with h | h
        · exact .inl h
        · exact .inr (.inr h)
      · simp only [List.mem_cons] at h ⊢
        rcases h with h | h
        · exact .inr (.inl h)
        · rcases ih h with h | h
          · exact .inl h
          · exact .inr (.inr h)

theorem Memory.below_put {m : Memory} {n i : Nat} (v : Byte) (h : Memory.below n m) (hi : i < n) :
    Memory.below n (Memory.put m i v) := by
  intro c hc
  rcases Memory.mem_put hc with rfl | hc
  · exact hi
  · exact h c hc

theorem Memory.below_write {m : Memory} {n i : Nat} {bs : List Byte} (h : Memory.below n m)
    (hi : i + bs.length ≤ n) : Memory.below n (Memory.write m i bs) := by
  induction bs generalizing m i with
  | nil => exact h
  | cons b bs ih =>
    simp only [List.length_cons] at hi
    exact ih (Memory.below_put b h (by omega)) (by omega)

@[simp] theorem readFrom_length (rd : Nat → Byte) (i n : Nat) : (readFrom rd i n).length = n := by
  induction n generalizing i with
  | zero => rfl
  | succ n ih => simp [readFrom, ih]

theorem readFrom_getElem? (rd : Nat → Byte) (i n k : Nat) :
    (readFrom rd i n)[k]? = if k < n then some (rd (i + k)) else none := by
  induction n generalizing i k with
  | zero => simp [readFrom]
  | succ n ih =>
    cases k with
    | zero => simp [readFrom]
    | succ k =>
      have : i + 1 + k = i + (k + 1) := by omega
      simp [readFrom, ih, this]

theorem readFrom_congr {rd rd' : Nat → Byte} {i n : Nat}
    (h : ∀ j, i ≤ j → j < i + n → rd j = rd' j) : readFrom rd i n = readFrom rd' i n := by
  induction n generalizing i with
  | zero => rfl
  | succ n ih =>
    simp only [readFrom]
    rw [h i (by omega) (by omega), ih fun j h1 h2 => h j (by omega) (by omega)]

theorem readFrom_append (rd : Nat → Byte) (i n k : Nat) :
    readFrom rd i (n + k) = readFrom rd i n ++ readFrom rd (i + n) k := by
  induction n generalizing i with
  | zero => simp [readFrom]
  | succ n ih =>
    have h1 : n + 1 + k = (n + k) + 1 := by omega
    have h2 : i + 1 + n = i + (n + 1) := by omega
    simp [h1, readFrom, ih, h2]

/-- Reading back a run just written. -/
theorem readFrom_write {seed : Nat} {buf : Buffer} (m : Memory) (i : Nat) (bs : List Byte) :
    readFrom (Memory.read seed buf (Memory.write m i bs)) i bs.length = bs := by
  apply List.ext_getElem?
  intro k
  rw [readFrom_getElem?]
  split
  · rename_i h
    rw [Memory.read_write_inside (by omega) (by omega), List.getElem?_eq_getElem h]
    congr 2
    omega
  · rename_i h
    rw [List.getElem?_eq_none (by omega)]

/-- A list whose elements a reader gives is what a run of reads gives. -/
theorem readFrom_eq_of_getElem? {rd : Nat → Byte} {i : Nat} {bs : List Byte}
    (h : ∀ k, k < bs.length → bs[k]? = some (rd (i + k))) : readFrom rd i bs.length = bs := by
  apply List.ext_getElem?
  intro k
  rw [readFrom_getElem?]
  split
  · rename_i hk; exact (h k hk).symm
  · rename_i hk; exact (List.getElem?_eq_none (by omega)).symm

end Sys2Proof.Machine
end

