-- ==== Sys2Proof/Laws/Tables.lean ====
section
/-!
SUPPORT. Laws of the tables read by symbol and by slot.
-/

namespace Sys2Proof.Machine

section SymTables
variable {α : Type}

@[simp] theorem tableGet_tableSet (t : SymTable α) (s u : Byte) (v : α) :
    tableGet (tableSet t s v) u = if u = s then v else tableGet t u := by
  unfold tableGet tableSet
  rw [Vector.getElem_set]
  by_cases h : u = s
  · simp [h]
  · have : s.toNat ≠ u.toNat := fun e => h (BitVec.eq_of_toNat_eq e.symm)
    simp [h, this]

@[simp] theorem tableGet_replicate (v : α) (s : Byte) :
    tableGet (Vector.replicate 256 v) s = v := by
  simp [tableGet]

@[simp] theorem tableGet_emptyTable (s : Byte) : tableGet emptyTable s = 0 := by
  simp [emptyTable]

/-- Two tables with the same entry for every symbol are equal. -/
theorem table_ext {t u : SymTable α} (h : ∀ s : Byte, tableGet t s = tableGet u s) : t = u := by
  apply Vector.ext
  intro i hi
  have := h (BitVec.ofNat 8 i)
  simpa [tableGet, Nat.mod_eq_of_lt hi] using this

end SymTables

theorem allSymbols_map_toNat : allSymbols.map BitVec.toNat = List.range 256 := by
  unfold allSymbols
  rw [List.map_map]
  conv => rhs; rw [← List.map_id (List.range 256)]
  apply List.map_congr_left
  intro i hi
  simp only [List.mem_range] at hi
  simp only [Function.comp_apply, BitVec.toNat_ofNat, id_eq]
  omega

theorem allSymbols_length : allSymbols.length = 256 := by
  simp only [allSymbols, List.length_map, List.length_range]

theorem mem_allSymbols (s : Byte) : s ∈ allSymbols := by
  unfold allSymbols
  rw [List.mem_map]
  exact ⟨s.toNat, by simp only [List.mem_range]; exact s.isLt, by simp⟩

theorem allSymbols_nodup : allSymbols.Nodup := by
  apply List.Nodup.of_map BitVec.toNat
  rw [allSymbols_map_toNat]
  exact List.nodup_range

/-- The symbols are listed in strictly ascending order. -/
theorem allSymbols_ascending : allSymbols.Pairwise fun s u => s.toNat < u.toNat := by
  rw [← List.pairwise_map (f := BitVec.toNat) (R := (· < ·)), allSymbols_map_toNat]
  exact List.pairwise_lt_range

theorem nodeAt_of_ge {t : NodeTable} {i : Nat} (h : 511 ≤ i) : nodeAt t i = freeNode := by
  simp [nodeAt, Config.nodeMax, Vector.getElem?_eq_none h]

@[simp] theorem nodeAt_nil (t : NodeTable) : nodeAt t Config.nil.toNat = freeNode :=
  nodeAt_of_ge (by decide)

theorem nodeAt_nodeSet (t : NodeTable) (i j : Nat) (n : Node) (hi : i < 511) :
    nodeAt (nodeSet t i n) j = if j = i then n else nodeAt t j := by
  unfold nodeAt nodeSet
  rw [Vector.getElem?_setIfInBounds]
  by_cases h : i = j
  · subst h; simp [Config.nodeMax, hi]
  · simp [h, Ne.symm h]

@[simp] theorem nodeAt_nodeSet_ne (t : NodeTable) {i j : Nat} (n : Node) (h : j ≠ i) :
    nodeAt (nodeSet t i n) j = nodeAt t j := by
  unfold nodeAt nodeSet
  rw [Vector.getElem?_setIfInBounds]
  simp [Ne.symm h]

@[simp] theorem nodeAt_freeTable (i : Nat) :
    nodeAt (Vector.replicate Config.nodeMax freeNode) i = freeNode := by
  unfold nodeAt
  rw [Vector.getElem?_replicate]
  split <;> rfl

/-- Two arenas with the same record in every slot are equal. -/
theorem node_ext {t u : NodeTable} (h : ∀ i, i < 511 → nodeAt t i = nodeAt u i) : t = u := by
  apply Vector.ext
  intro i hi
  have := h i hi
  simpa [nodeAt, Vector.getElem?_eq_getElem hi] using this

@[simp] theorem freeNode_kind : freeNode.kind = .free := rfl
@[simp] theorem freeNode_sym : freeNode.sym = 0 := rfl
@[simp] theorem freeNode_freq : freeNode.freq = 0 := rfl
@[simp] theorem freeNode_left : freeNode.left = Config.nil := rfl
@[simp] theorem freeNode_right : freeNode.right = Config.nil := rfl

end Sys2Proof.Machine
end

