-- ==== Sys2Proof/Laws/Tally.lean ====
section
/-!
SUPPORT. Laws of COUNT: each entry counts its symbol, and the entries sum to the input's length (R77, R78).
-/

namespace Sys2Proof.Machine

theorem tableGet_tally (bs : List Byte) (t : SymTable Word64) (s : Byte) :
    tableGet (tally bs t) s = tableGet t s + BitVec.ofNat 64 (bs.count s) := by
  induction bs generalizing t with
  | nil => simp [tally]
  | cons b bs ih =>
    rw [tally, ih, tableGet_tableSet, List.count_cons]
    by_cases h : s = b
    · subst h
      rw [if_pos rfl, beq_self_eq_true, if_pos rfl]
      apply BitVec.eq_of_toNat_eq
      simp only [BitVec.toNat_add, BitVec.toNat_ofNat]
      have : (1 : Word64).toNat = 1 := rfl
      omega
    · have hb : (b == s) = false := by simpa using Ne.symm h
      rw [if_neg h, hb]
      simp

/-- `FT[s]` after COUNT is the number of occurrences of `s` (R77, R78). -/
theorem tally_toNat {bs : List Byte} (h : bs.length < 2 ^ 64) (s : Byte) :
    (tableGet (tally bs emptyTable) s).toNat = bs.count s := by
  have := List.count_le_length (a := s) (l := bs)
  rw [tableGet_tally, tableGet_emptyTable, BitVec.toNat_add, BitVec.toNat_ofNat]
  have : (0 : Word64).toNat = 0 := rfl
  omega

theorem sum_indicator {b : Byte} {l : List Byte} :
    (l.map fun s => if b == s then 1 else 0).sum = l.count b := by
  induction l with
  | nil => rfl
  | cons x l ih =>
    rw [List.map_cons, List.sum_cons, ih, List.count_cons, Nat.add_comm]
    congr 1
    by_cases h : b = x
    · subst h; simp
    · simp [h, Ne.symm h]

theorem count_allSymbols (b : Byte) : allSymbols.count b = 1 :=
  List.count_eq_one_of_mem allSymbols_nodup (mem_allSymbols b)

/-- Every byte of a sequence is counted once. -/
theorem sum_counts (bs : List Byte) : (allSymbols.map fun s => bs.count s).sum = bs.length := by
  induction bs with
  | nil => simp
  | cons b bs ih =>
    have : (allSymbols.map fun s => (b :: bs).count s) =
        allSymbols.map fun s => bs.count s + if b == s then 1 else 0 := by
      apply List.map_congr_left
      intro s _
      rw [List.count_cons]
    rw [this, List.sum_map_add, ih, sum_indicator, count_allSymbols, List.length_cons]

/-- "sum of counts equals input length" (R78). -/
theorem tableSum_tally {bs : List Byte} (h : bs.length < 2 ^ 64) :
    tableSum (tally bs emptyTable) = bs.length := by
  unfold tableSum
  rw [← sum_counts bs]
  congr 1
  apply List.map_congr_left
  intro s _
  exact tally_toNat h s

@[simp] theorem tableSum_emptyTable : tableSum emptyTable = 0 := by
  unfold tableSum
  have : (allSymbols.map fun s => (tableGet emptyTable s).toNat) = allSymbols.map fun _ => 0 := by
    apply List.map_congr_left; intro s _; rw [tableGet_emptyTable]; rfl
  rw [this]; simp

end Sys2Proof.Machine
end

