-- ==== Sys2Proof/Laws/Merge.lean ====
section
/-!
SUPPORT. Laws of the merge of BUILD: what extracting a minimum gives, and an invariant of the merge loop.
-/

namespace Sys2Proof.Machine

section Order
variable (t : NodeTable)

theorem comesBefore_iff (i j : Nat) : comesBefore t i j = true ↔
    (nodeAt t i).freq.toNat < (nodeAt t j).freq.toNat ∨
      ((nodeAt t i).freq.toNat = (nodeAt t j).freq.toNat ∧ i < j) := by
  simp only [comesBefore, Bool.or_eq_true, Bool.and_eq_true, decide_eq_true_eq, beq_iff_eq,
    BitVec.lt_def, BitVec.toNat_inj]

theorem comesBefore_trans {i j k : Nat} (h1 : comesBefore t i j = true)
    (h2 : comesBefore t j k = true) : comesBefore t i k = true := by
  rw [comesBefore_iff] at *; omega

/-- Of two slots one comes before the other: R85 is a strict total order. -/
theorem comesBefore_total {i j : Nat} (h : i ≠ j) (h1 : comesBefore t i j = false) :
    comesBefore t j i = true := by
  have h1' : ¬comesBefore t i j = true := by simp [h1]
  rw [comesBefore_iff] at h1' ⊢; omega

theorem comesBefore_asymm {i j : Nat} (h1 : comesBefore t i j = true)
    (h2 : comesBefore t j i = true) : False := by
  rw [comesBefore_iff] at *; omega

end Order

/-- The order looks only at the two slots' frequencies. -/
theorem comesBefore_congr {t u : NodeTable} {i j : Nat} (hi : nodeAt t i = nodeAt u i)
    (hj : nodeAt t j = nodeAt u j) : comesBefore t i j = comesBefore u i j := by
  simp [comesBefore, hi, hj]

theorem extractMin_nil (t : NodeTable) : extractMin t [] = none := rfl

theorem extractMin_eq_none {t : NodeTable} {l : List Nat} (h : extractMin t l = none) : l = [] := by
  cases l with
  | nil => rfl
  | cons x xs =>
    simp only [extractMin] at h
    split at h
    · simp at h
    · split at h <;> simp at h

/-- The extracted element and the rest are the list. -/
theorem extractMin_perm {t : NodeTable} {l rest : List Nat} {m : Nat}
    (h : extractMin t l = some (m, rest)) : l.Perm (m :: rest) := by
  induction l generalizing m rest with
  | nil => simp [extractMin] at h
  | cons x xs ih =>
    simp only [extractMin] at h
    split at h
    · rename_i hn
      obtain ⟨rfl, rfl⟩ := by simpa using h
      rw [extractMin_eq_none hn]
    · rename_i m' rest' hs
      split at h
      · obtain ⟨rfl, rfl⟩ := by simpa using h
        exact List.Perm.refl _
      · obtain ⟨rfl, rfl⟩ := by simpa using h
        exact (List.Perm.cons x (ih hs)).trans (List.Perm.swap _ _ _)

/-- The extracted element comes before all others (R83, R85). -/
theorem extractMin_least {t : NodeTable} {l rest : List Nat} {m : Nat}
    (h : extractMin t l = some (m, rest)) (hl : l.Nodup) : ∀ x ∈ rest, comesBefore t m x = true := by
  induction l generalizing m rest with
  | nil => simp [extractMin] at h
  | cons x xs ih =>
    simp only [extractMin] at h
    rw [List.nodup_cons] at hl
    split at h
    · obtain ⟨rfl, rfl⟩ := by simpa using h
      simp
    · rename_i m' rest' hs
      have hm : m' ∈ xs := (extractMin_perm hs).symm.subset (by simp)
      split at h
      · rename_i hb
        obtain ⟨rfl, rfl⟩ := by simpa using h
        intro y hy
        rcases List.mem_cons.mp ((extractMin_perm hs).subset hy) with rfl | hy'
        · exact hb
        · exact comesBefore_trans t hb (ih hs hl.2 y hy')
      · rename_i hb
        obtain ⟨rfl, rfl⟩ := by simpa using h
        intro y hy
        rcases List.mem_cons.mp hy with rfl | hy'
        · exact comesBefore_total t (fun e => hl.1 (e ▸ hm)) (by simpa using hb)
        · exact ih hs hl.2 y hy'

theorem exists_extractMin {t : NodeTable} {l : List Nat} (h : l ≠ []) :
    ∃ m rest, extractMin t l = some (m, rest) := by
  cases he : extractMin t l with
  | none => exact absurd (extractMin_eq_none he) h
  | some p => exact ⟨p.1, p.2, rfl⟩

/-- The natural-number frequency of a slot. -/
def freqAt (t : NodeTable) (i : Nat) : Nat := (nodeAt t i).freq.toNat

/-- Merge number `k` took the two least live nodes (R83, R85, R86). -/
structure MergedLeast (t : NodeTable) (k a b : Nat) : Prop where
  left_eq : (nodeAt t (256 + k)).left.toNat = a
  right_eq : (nodeAt t (256 + k)).right.toNat = b
  left_live : liveBefore t k a
  right_live : liveBefore t k b
  ne : a ≠ b
  sym_zero : (nodeAt t (256 + k)).sym = 0
  freq_eq : (nodeAt t (256 + k)).freq = (nodeAt t a).freq + (nodeAt t b).freq
  left_least : ∀ c, liveBefore t k c → c ≠ a → comesBefore t a c = true
  right_least : ∀ c, liveBefore t k c → c ≠ a → c ≠ b → comesBefore t b c = true

/-- The merge loop's invariant before merge number `k`, with `m` leaves. -/
structure MergeInv (ft : SymTable Word64) (m k : Nat) (t : NodeTable) (live : List Nat) : Prop where
  leaves : ∀ i, i < 256 → nodeAt t i = leafSlot ft (BitVec.ofNat 8 i)
  merged : ∀ j, j < k → (nodeAt t (256 + j)).kind = .inner ∧ ∃ a b, MergedLeast t j a b
  rest_free : ∀ i, 256 + k ≤ i → nodeAt t i = freeNode
  nodup : live.Nodup
  live_iff : ∀ i, i ∈ live ↔ liveBefore t k i
  count : live.length + k = m

theorem liveBefore_set {t : NodeTable} {k j i : Nat} {n : Node} (h : j ≤ k) :
    liveBefore (nodeSet t (256 + k) n) j i ↔ liveBefore t j i := by
  unfold liveBefore isChildOf
  constructor
  · rintro ⟨h1, h2, h3⟩
    refine ⟨by rwa [nodeAt_nodeSet_ne _ _ (by omega)] at h1, h2, fun p hp => ?_⟩
    have := h3 p hp
    rwa [nodeAt_nodeSet_ne _ _ (by omega)] at this
  · rintro ⟨h1, h2, h3⟩
    refine ⟨by rwa [nodeAt_nodeSet_ne _ _ (by omega)], h2, fun p hp => ?_⟩
    have := h3 p hp
    rwa [nodeAt_nodeSet_ne _ _ (by omega)]

theorem MergedLeast.set {t : NodeTable} {k j a b : Nat} {n : Node} (h : MergedLeast t j a b)
    (hj : j < k) : MergedLeast (nodeSet t (256 + k) n) j a b := by
  have ha : a < 256 + j := h.left_live.2.1
  have hb : b < 256 + j := h.right_live.2.1
  have e : ∀ i, i ≤ 256 + j → nodeAt (nodeSet t (256 + k) n) i = nodeAt t i :=
    fun i hi => nodeAt_nodeSet_ne _ _ (by omega)
  refine ⟨?_, ?_, ?_, ?_, h.ne, ?_, ?_, ?_, ?_⟩
  · rw [e _ le_rfl]; exact h.left_eq
  · rw [e _ le_rfl]; exact h.right_eq
  · rw [liveBefore_set hj.le]; exact h.left_live
  · rw [liveBefore_set hj.le]; exact h.right_live
  · rw [e _ le_rfl]; exact h.sym_zero
  · rw [e _ le_rfl, e a (by omega), e b (by omega)]; exact h.freq_eq
  · intro c hc hne
    rw [liveBefore_set hj.le] at hc
    rw [comesBefore_congr (e a (by omega)) (e c (by have := hc.2.1; omega))]
    exact h.left_least c hc hne
  · intro c hc h1 h2
    rw [liveBefore_set hj.le] at hc
    rw [comesBefore_congr (e b (by omega)) (e c (by have := hc.2.1; omega))]
    exact h.right_least c hc h1 h2

/-- One merge keeps the invariant. -/
theorem MergeInv.step {ft : SymTable Word64} {m k : Nat} {t : NodeTable} {live rest rest' : List Nat}
    {a b : Nat} (h : MergeInv ft m k t live) (hm : m ≤ 256) (ha : extractMin t live = some (a, rest))
    (hb : extractMin t rest = some (b, rest')) :
    MergeInv ft m (k + 1) (nodeSet t (256 + k) (mergedNode t a b)) (rest' ++ [256 + k]) := by
  have pa := extractMin_perm ha
  have pb := extractMin_perm hb
  have nd1 : (a :: rest).Nodup := pa.nodup_iff.mp h.nodup
  have nd2 : (b :: rest').Nodup := pb.nodup_iff.mp (List.nodup_cons.mp nd1).2
  have len1 := pa.length_eq
  have len2 := pb.length_eq
  simp only [List.length_cons] at len1 len2
  have hcount := h.count
  have hk : 256 + k < 511 := by omega
  have ma : a ∈ live := pa.symm.subset (by simp)
  have mbr : b ∈ rest := pb.symm.subset (by simp)
  have mb : b ∈ live := pa.symm.subset (by simp [mbr])
  have hab : a ≠ b := fun e => (List.nodup_cons.mp nd1).1 (e ▸ mbr)
  have la := (h.live_iff a).mp ma
  have lb := (h.live_iff b).mp mb
  have hA : a < 256 + k := la.2.1
  have hB : b < 256 + k := lb.2.1
  set n := mergedNode t a b with hn
  set t' := nodeSet t (256 + k) n with ht'
  have eq_old : ∀ i, i ≠ 256 + k → nodeAt t' i = nodeAt t i := fun i hi => nodeAt_nodeSet_ne _ _ hi
  have eq_new : nodeAt t' (256 + k) = n := by rw [ht', nodeAt_nodeSet _ _ _ _ hk, if_pos rfl]
  have nl : n.left.toNat = a := by
    simp only [hn, mergedNode, BitVec.toNat_ofNat]; exact Nat.mod_eq_of_lt (by omega)
  have nr : n.right.toNat = b := by
    simp only [hn, mergedNode, BitVec.toNat_ofNat]; exact Nat.mod_eq_of_lt (by omega)
  -- membership in the new live list
  have mem' : ∀ i, i ∈ rest' ↔ i ∈ live ∧ i ≠ a ∧ i ≠ b := by
    intro i
    have h1 : i ∈ live ↔ i = a ∨ i ∈ rest := by rw [pa.mem_iff, List.mem_cons]
    have h2 : i ∈ rest ↔ i = b ∨ i ∈ rest' := by rw [pb.mem_iff, List.mem_cons]
    have h3 : a ∉ rest := (List.nodup_cons.mp nd1).1
    have h4 : b ∉ rest' := (List.nodup_cons.mp nd2).1
    constructor
    · intro hi
      exact ⟨h1.mpr (.inr (h2.mpr (.inr hi))),
        fun e => h3 (e ▸ h2.mpr (.inr hi)), fun e => h4 (e ▸ hi)⟩
    · rintro ⟨hi, n1, n2⟩
      exact (h2.mp ((h1.mp hi).resolve_left n1)).resolve_left n2
  have new_not_live : 256 + k ∉ live := fun hi => by
    have := ((h.live_iff _).mp hi).2.1; omega
  refine ⟨?_, ?_, ?_, ?_, ?_, ?_⟩
  · intro i hi
    rw [eq_old i (by omega)]; exact h.leaves i hi
  · intro j hj
    by_cases hjk : j < k
    · obtain ⟨h1, x, y, h2⟩ := h.merged j hjk
      exact ⟨by rw [eq_old _ (by omega)]; exact h1, x, y, h2.set hjk⟩
    · obtain rfl : j = k := by omega
      refine ⟨by rw [eq_new]; rfl, a, b, ?_⟩
      have ea := eq_old a (by omega)
      have eb := eq_old b (by omega)
      refine ⟨by rw [eq_new, nl], by rw [eq_new, nr], ?_, ?_, hab, by rw [eq_new]; rfl, ?_, ?_, ?_⟩
      · rw [ht', liveBefore_set le_rfl]; exact la
      · rw [ht', liveBefore_set le_rfl]; exact lb
      · rw [eq_new, ea, eb]; rfl
      · intro c hc hca
        rw [ht', liveBefore_set le_rfl] at hc
        rw [comesBefore_congr ea (eq_old c (by have := hc.2.1; omega))]
        refine extractMin_least ha h.nodup c ?_
        have := (h.live_iff c).mpr hc
        rw [pa.mem_iff, List.mem_cons] at this
        exact this.resolve_left hca
      · intro c hc hca hcb
        rw [ht', liveBefore_set le_rfl] at hc
        rw [comesBefore_congr eb (eq_old c (by have := hc.2.1; omega))]
        exact extractMin_least hb (List.nodup_cons.mp nd1).2 c
          ((mem' c).mpr ⟨(h.live_iff c).mpr hc, hca, hcb⟩)
  · intro i hi
    rw [eq_old i (by omega)]; exact h.rest_free i (by omega)
  · rw [List.nodup_append]
    refine ⟨(List.nodup_cons.mp nd2).2, by simp, ?_⟩
    intro x hx y hy
    simp only [List.mem_singleton] at hy
    subst hy
    rintro rfl
    exact new_not_live ((mem' _).mp hx).1
  · intro i
    rw [List.mem_append, List.mem_singleton, mem' i, h.live_iff]
    unfold liveBefore isChildOf
    constructor
    · rintro (⟨⟨h1, h2, h3⟩, n1, n2⟩ | rfl)
      · refine ⟨by rwa [eq_old i (by omega)], by omega, fun p hp => ?_⟩
        by_cases hpk : p = 256 + k
        · subst hpk
          rw [eq_new, nl, nr]
          rintro ⟨-, e | e⟩
          · exact n1 e.symm
          · exact n2 e.symm
        · rw [eq_old p hpk]
          exact h3 p (by omega)
      · refine ⟨by rw [eq_new]; simp [hn, mergedNode], by omega, fun p hp => ?_⟩
        by_cases hpk : p = 256 + k
        · subst hpk
          rw [eq_new, nl, nr]
          rintro ⟨-, e | e⟩ <;> omega
        · rw [eq_old p hpk]
          rintro ⟨hkind, hlr⟩
          have hp256 : 256 ≤ p := by
            by_contra hlt
            rw [h.leaves p (by omega)] at hkind
            unfold leafSlot at hkind
            split at hkind <;> simp at hkind
          obtain ⟨j, rfl⟩ : ∃ j, p = 256 + j := ⟨p - 256, by omega⟩
          obtain ⟨-, x, y, hml⟩ := h.merged j (by omega)
          have hx := hml.left_live.2.1
          have hy := hml.right_live.2.1
          rw [hml.left_eq, hml.right_eq] at hlr
          omega
    · rintro ⟨h1, h2, h3⟩
      by_cases hik : i = 256 + k
      · exact .inr hik
      · left
        rw [eq_old i hik] at h1
        refine ⟨⟨h1, by omega, fun p hp => ?_⟩, ?_, ?_⟩
        · have := h3 p (by omega)
          rwa [eq_old p (by omega)] at this
        · rintro rfl
          have := h3 (256 + k) (by omega)
          rw [eq_new, nl] at this
          exact this ⟨rfl, .inl rfl⟩
        · rintro rfl
          have := h3 (256 + k) (by omega)
          rw [eq_new, nr] at this
          exact this ⟨rfl, .inr rfl⟩
  · simp only [List.length_append, List.length_cons, List.length_nil]
    omega

/-- Enough iterations of the loop leave the invariant, and what else each merge keeps, with at most one
live node. -/
theorem MergeInv.loop {ft : SymTable Word64} {m : Nat} (hm : m ≤ 256)
    {P : Nat → NodeTable → List Nat → Prop}
    (hP : ∀ k t live a rest b rest', MergeInv ft m k t live → P k t live →
      extractMin t live = some (a, rest) → extractMin t rest = some (b, rest') →
      P (k + 1) (nodeSet t (256 + k) (mergedNode t a b)) (rest' ++ [256 + k])) (fuel : Nat) :
    ∀ {k : Nat} {t : NodeTable} {live : List Nat}, MergeInv ft m k t live → P k t live →
      live.length ≤ fuel + 1 →
      ∃ k', MergeInv ft m k' (mergeLoop fuel k t live).1 (mergeLoop fuel k t live).2 ∧
        P k' (mergeLoop fuel k t live).1 (mergeLoop fuel k t live).2 ∧
        (mergeLoop fuel k t live).2.length = min live.length 1 := by
  induction fuel with
  | zero => intro k t live h hp hl; exact ⟨k, h, hp, by simp only [mergeLoop]; omega⟩
  | succ fuel ih =>
    intro k t live h hp hl
    unfold mergeLoop
    cases ha : extractMin t live with
    | none =>
      have := extractMin_eq_none ha
      subst this
      exact ⟨k, h, hp, by simp⟩
    | some p =>
      obtain ⟨a, rest⟩ := p
      have len1 := (extractMin_perm ha).length_eq
      simp only [List.length_cons] at len1
      simp only
      cases hb : extractMin t rest with
      | none =>
        have := extractMin_eq_none hb
        subst this
        exact ⟨k, h, hp, by simp at len1; simp; omega⟩
      | some q =>
        obtain ⟨b, rest'⟩ := q
        have len2 := (extractMin_perm hb).length_eq
        simp only [List.length_cons] at len2
        obtain ⟨k', h1, h2, h3⟩ := ih (h.step hm ha hb) (hP k t live a rest b rest' h hp ha hb)
          (by simp; omega)
        refine ⟨k', h1, h2, ?_⟩
        simp only
        rw [h3]
        simp only [List.length_append, List.length_cons, List.length_nil]
        omega

end Sys2Proof.Machine
end

