-- ==== Sys2Proof/Laws/Tree.lean ====
section
/-!
SUPPORT. Laws of the tree BUILD leaves: its leaves, its merges, its root, and that it is well formed (R31).
-/

namespace Sys2Proof.Machine

theorem ofNat_toNat_byte (s : Byte) : BitVec.ofNat 8 s.toNat = s := by simp

theorem nodeAt_leafTable_low (ft : SymTable Word64) {i : Nat} (h : i < 256) :
    nodeAt (leafTable ft) i = leafSlot ft (BitVec.ofNat 8 i) := by
  have h1 : i < (allSymbols.map (leafSlot ft)).length := by
    rw [List.length_map, allSymbols_length]; exact h
  have h2 : (leafTable ft)[i]? =
      (allSymbols.map (leafSlot ft) ++ List.replicate 255 freeNode)[i]? := by
    simp only [leafTable, Vector.getElem?_mk, List.getElem?_toArray]
  unfold nodeAt
  rw [h2, List.getElem?_append_left h1, List.getElem?_map]
  simp only [allSymbols, List.getElem?_map, List.getElem?_range h, Option.map_some, Option.getD_some]

theorem nodeAt_leafTable_high (ft : SymTable Word64) {i : Nat} (h : 256 ≤ i) :
    nodeAt (leafTable ft) i = freeNode := by
  have h1 : (allSymbols.map (leafSlot ft)).length ≤ i := by
    rw [List.length_map, allSymbols_length]; exact h
  have h2 : (leafTable ft)[i]? =
      (allSymbols.map (leafSlot ft) ++ List.replicate 255 freeNode)[i]? := by
    simp only [leafTable, Vector.getElem?_mk, List.getElem?_toArray]
  unfold nodeAt
  rw [h2, List.getElem?_append_right h1, List.getElem?_replicate]
  split <;> rfl

theorem mem_presentSymbols (ft : SymTable Word64) (s : Byte) :
    s ∈ presentSymbols ft ↔ tableGet ft s ≠ 0 := by
  unfold presentSymbols
  rw [List.mem_filter]
  simp [mem_allSymbols]

theorem presentSymbols_ascending (ft : SymTable Word64) :
    (presentSymbols ft).Pairwise fun s u => s.toNat < u.toNat :=
  allSymbols_ascending.filter _

theorem presentSymbols_nodup (ft : SymTable Word64) : (presentSymbols ft).Nodup :=
  allSymbols_nodup.filter _

theorem presentSymbols_length_le (ft : SymTable Word64) : (presentSymbols ft).length ≤ 256 := by
  have := List.length_filter_le (fun s => decide (tableGet ft s ≠ 0)) allSymbols
  rwa [allSymbols_length] at this

theorem mem_initialLive (ft : SymTable Word64) (i : Nat) :
    i ∈ initialLive ft ↔ i < 256 ∧ tableGet ft (BitVec.ofNat 8 i) ≠ 0 := by
  unfold initialLive
  rw [List.mem_map]
  constructor
  · rintro ⟨s, hs, rfl⟩
    exact ⟨s.isLt, by rw [ofNat_toNat_byte]; exact (mem_presentSymbols ft s).mp hs⟩
  · rintro ⟨h1, h2⟩
    refine ⟨BitVec.ofNat 8 i, (mem_presentSymbols ft _).mpr h2, ?_⟩
    rw [BitVec.toNat_ofNat]; exact Nat.mod_eq_of_lt h1

theorem initialLive_nodup (ft : SymTable Word64) : (initialLive ft).Nodup :=
  (presentSymbols_nodup ft).map fun _ _ e => BitVec.eq_of_toNat_eq e

@[simp] theorem initialLive_length (ft : SymTable Word64) :
    (initialLive ft).length = (presentSymbols ft).length := by simp [initialLive]

theorem leafSlot_of_zero {ft : SymTable Word64} {s : Byte} (h : tableGet ft s = 0) :
    leafSlot ft s = freeNode := by rw [leafSlot, if_pos h]

theorem leafSlot_of_ne {ft : SymTable Word64} {s : Byte} (h : tableGet ft s ≠ 0) :
    leafSlot ft s = { kind := .leaf, sym := s, freq := tableGet ft s, left := Config.nil,
                      right := Config.nil } := by rw [leafSlot, if_neg h]

theorem leafSlot_freq (ft : SymTable Word64) (s : Byte) :
    (leafSlot ft s).freq = tableGet ft s := by
  by_cases h : tableGet ft s = 0
  · rw [leafSlot_of_zero h, h]; rfl
  · rw [leafSlot_of_ne h]

theorem leafSlot_kind_ne_inner (ft : SymTable Word64) (s : Byte) :
    (leafSlot ft s).kind ≠ .inner := by
  unfold leafSlot; split <;> simp

theorem leafSlot_kind_free (ft : SymTable Word64) (s : Byte) :
    (leafSlot ft s).kind = .free ↔ tableGet ft s = 0 := by
  by_cases h : tableGet ft s = 0
  · rw [leafSlot_of_zero h]; exact iff_of_true rfl h
  · rw [leafSlot_of_ne h]; exact iff_of_false (by simp) h

/-- The invariant before the first merge. -/
theorem mergeInv_start (ft : SymTable Word64) :
    MergeInv ft (presentSymbols ft).length 0 (leafTable ft) (initialLive ft) := by
  refine ⟨fun i hi => nodeAt_leafTable_low ft hi, fun j hj => absurd hj (by omega),
    fun i hi => nodeAt_leafTable_high ft (by omega), initialLive_nodup ft, fun i => ?_, by simp⟩
  rw [mem_initialLive]
  unfold liveBefore isChildOf
  constructor
  · rintro ⟨h1, h2⟩
    refine ⟨?_, by omega, fun p hp => ?_⟩
    · rw [nodeAt_leafTable_low ft h1, Ne, leafSlot_kind_free]; exact h2
    · rw [nodeAt_leafTable_low ft (by omega)]
      exact fun h => leafSlot_kind_ne_inner ft _ h.1
  · rintro ⟨h1, h2, -⟩
    refine ⟨by omega, ?_⟩
    rw [nodeAt_leafTable_low ft (by omega), Ne, leafSlot_kind_free] at h1; exact h1

theorem sum_filter_ne_zero {α : Type} (l : List α) (f : α → Nat) (p : α → Bool)
    (h : ∀ x ∈ l, p x = false → f x = 0) : ((l.filter p).map f).sum = (l.map f).sum := by
  induction l with
  | nil => rfl
  | cons x l ih =>
    have ih' := ih fun y hy => h y (by simp [hy])
    cases hp : p x with
    | true => simp [hp, ih']
    | false => simp [hp, ih', h x (by simp) hp]

/-- The frequencies of the symbols that occur sum to the whole table's sum. -/
theorem presentSymbols_sum (ft : SymTable Word64) :
    ((presentSymbols ft).map fun s => (tableGet ft s).toNat).sum = tableSum ft := by
  apply sum_filter_ne_zero
  intro s _ h
  simp only [decide_eq_false_iff_not, Decidable.not_not] at h
  rw [h]; rfl

/-- What the merges keep of the frequencies when the table's sum fits 64 bits. -/
structure MergeFreq (ft : SymTable Word64) (k : Nat) (t : NodeTable) (live : List Nat) : Prop where
  sum : (live.map (freqAt t)).sum = tableSum ft
  pos : ∀ i, (nodeAt t i).kind ≠ .free → 1 ≤ freqAt t i
  inner : ∀ j, j < k → freqAt t (256 + j) =
    freqAt t (nodeAt t (256 + j)).left.toNat + freqAt t (nodeAt t (256 + j)).right.toNat

theorem mergeFreq_start (ft : SymTable Word64) : MergeFreq ft 0 (leafTable ft) (initialLive ft) := by
  refine ⟨?_, fun i hi => ?_, fun j hj => absurd hj (by omega)⟩
  · rw [← presentSymbols_sum]
    unfold initialLive
    rw [List.map_map]
    congr 1
    apply List.map_congr_left
    intro s _
    simp only [Function.comp_apply, freqAt]
    rw [nodeAt_leafTable_low ft s.isLt, ofNat_toNat_byte, leafSlot_freq]
  · by_cases h : i < 256
    · unfold freqAt
      rw [nodeAt_leafTable_low ft h] at hi ⊢
      rw [leafSlot_freq]
      rw [Ne, leafSlot_kind_free] at hi
      have : (tableGet ft (BitVec.ofNat 8 i)).toNat ≠ 0 := fun e =>
        hi (BitVec.eq_of_toNat_eq e)
      omega
    · rw [nodeAt_leafTable_high ft (by omega)] at hi
      exact absurd rfl hi

theorem mergeFreq_step {ft : SymTable Word64} {m : Nat} (hm : m ≤ 256)
    (hsum : tableSum ft < 2 ^ 64) (k : Nat) (t : NodeTable) (live : List Nat) (a : Nat)
    (rest : List Nat) (b : Nat) (rest' : List Nat) (h : MergeInv ft m k t live)
    (hf : MergeFreq ft k t live) (ha : extractMin t live = some (a, rest))
    (hb : extractMin t rest = some (b, rest')) :
    MergeFreq ft (k + 1) (nodeSet t (256 + k) (mergedNode t a b)) (rest' ++ [256 + k]) := by
  have pa := extractMin_perm ha
  have pb := extractMin_perm hb
  have len1 := pa.length_eq
  have len2 := pb.length_eq
  simp only [List.length_cons] at len1 len2
  have hcount := h.count
  have hk : 256 + k < 511 := by omega
  have ma : a ∈ live := pa.symm.subset (by simp)
  have mb : b ∈ live := pa.symm.subset (by simp [pb.symm.subset (List.mem_cons_self ..)])
  have la := (h.live_iff a).mp ma
  have lb := (h.live_iff b).mp mb
  have hA : a < 256 + k := la.2.1
  have hB : b < 256 + k := lb.2.1
  have total : freqAt t a + (freqAt t b + (rest'.map (freqAt t)).sum) = tableSum ft := by
    rw [← hf.sum, (pa.map (freqAt t)).sum_eq, List.map_cons, List.sum_cons,
      (pb.map (freqAt t)).sum_eq, List.map_cons, List.sum_cons]
  set t' := nodeSet t (256 + k) (mergedNode t a b) with ht'
  have eq_old : ∀ i, i ≠ 256 + k → nodeAt t' i = nodeAt t i := fun i hi => nodeAt_nodeSet_ne _ _ hi
  have eq_new : nodeAt t' (256 + k) = mergedNode t a b := by
    rw [ht', nodeAt_nodeSet _ _ _ _ hk, if_pos rfl]
  have f_old : ∀ i, i ≠ 256 + k → freqAt t' i = freqAt t i := fun i hi => by
    unfold freqAt; rw [eq_old i hi]
  have f_new : freqAt t' (256 + k) = freqAt t a + freqAt t b := by
    unfold freqAt at total ⊢
    rw [eq_new]
    simp only [mergedNode, BitVec.toNat_add]
    exact Nat.mod_eq_of_lt (by omega)
  have not_new : ∀ i ∈ rest', i ≠ 256 + k := by
    rintro i hi rfl
    have : 256 + k ∈ live := pa.symm.subset (by simp [pb.symm.subset (List.mem_cons_of_mem _ hi)])
    have := ((h.live_iff _).mp this).2.1
    omega
  refine ⟨?_, fun i hi => ?_, fun j hj => ?_⟩
  · have e : rest'.map (freqAt t') = rest'.map (freqAt t) :=
      List.map_congr_left fun i hi => f_old i (not_new i hi)
    simp only [List.map_append, List.map_cons, List.map_nil, List.sum_append, List.sum_cons,
      List.sum_nil, e, f_new]
    omega
  · by_cases hik : i = 256 + k
    · subst hik
      have := hf.pos a la.1
      omega
    · rw [f_old i hik]
      rw [eq_old i hik] at hi
      exact hf.pos i hi
  · by_cases hjk : j < k
    · obtain ⟨-, x, y, hml⟩ := h.merged j hjk
      have hx := hml.left_live.2.1
      have hy := hml.right_live.2.1
      have := hf.inner j hjk
      rw [hml.left_eq, hml.right_eq] at this
      rw [f_old _ (by omega), eq_old _ (by omega), hml.left_eq, hml.right_eq, f_old x (by omega),
        f_old y (by omega)]
      exact this
    · obtain rfl : j = k := by omega
      have nl : (mergedNode t a b).left.toNat = a := by
        simp only [mergedNode, BitVec.toNat_ofNat]; exact Nat.mod_eq_of_lt (by omega)
      have nr : (mergedNode t a b).right.toNat = b := by
        simp only [mergedNode, BitVec.toNat_ofNat]; exact Nat.mod_eq_of_lt (by omega)
      rw [f_new, eq_new, nl, nr, f_old a (by omega), f_old b (by omega)]

/-- How BUILD's merging ends, for any table: `m - 1` merges (R88), the invariant, at most one live node. -/
theorem mergeAll_spec (ft : SymTable Word64) :
    MergeInv ft (presentSymbols ft).length ((presentSymbols ft).length - 1)
      (mergeAll ft).1 (mergeAll ft).2 ∧
    (mergeAll ft).2.length = min (presentSymbols ft).length 1 := by
  obtain ⟨k, h1, -, h3⟩ := MergeInv.loop (P := fun _ _ _ => True) (presentSymbols_length_le ft)
    (fun _ _ _ _ _ _ _ _ _ _ _ => trivial) ((initialLive ft).length - 1) (mergeInv_start ft)
    trivial (by omega)
  change MergeInv ft _ k (mergeAll ft).1 (mergeAll ft).2 at h1
  change (mergeAll ft).2.length = _ at h3
  rw [initialLive_length] at h3
  have hc := h1.count
  obtain rfl : k = (presentSymbols ft).length - 1 := by omega
  exact ⟨h1, h3⟩

/-- The tree BUILD leaves has the leaf of each symbol in its slot (R84). -/
theorem mergeAll_leaf (ft : SymTable Word64) (s : Byte) :
    nodeAt (mergeAll ft).1 s.toNat = leafSlot ft s := by
  rw [(mergeAll_spec ft).1.leaves _ s.isLt]
  simp

/-- The frequencies BUILD leaves, for a table whose sum fits 64 bits. -/
theorem mergeAll_freq (ft : SymTable Word64) (hsum : tableSum ft < 2 ^ 64) :
    MergeFreq ft ((presentSymbols ft).length - 1) (mergeAll ft).1 (mergeAll ft).2 := by
  obtain ⟨k, h1, h2, h3⟩ := MergeInv.loop (P := MergeFreq ft) (presentSymbols_length_le ft)
    (mergeFreq_step (presentSymbols_length_le ft) hsum) ((initialLive ft).length - 1)
    (mergeInv_start ft) (mergeFreq_start ft) (by omega)
  change MergeInv ft _ k (mergeAll ft).1 (mergeAll ft).2 at h1
  change (mergeAll ft).2.length = _ at h3
  rw [initialLive_length] at h3
  have hc := h1.count
  obtain rfl : k = (presentSymbols ft).length - 1 := by omega
  exact h2

section Built
variable {ft : SymTable Word64} {m k : Nat} {t : NodeTable} {live : List Nat}

theorem MergeInv.kind_low (h : MergeInv ft m k t live) {i : Nat} (hi : i < 256) :
    (nodeAt t i).kind ≠ .inner := by
  rw [h.leaves i hi]; exact leafSlot_kind_ne_inner ft _

theorem MergeInv.inner_iff (h : MergeInv ft m k t live) (i : Nat) :
    (nodeAt t i).kind = .inner ↔ 256 ≤ i ∧ i < 256 + k := by
  constructor
  · intro hk
    by_contra hc
    by_cases hi : i < 256
    · exact h.kind_low hi hk
    · rw [h.rest_free i (by omega)] at hk
      simp at hk
  · rintro ⟨h1, h2⟩
    have := (h.merged (i - 256) (by omega)).1
    rwa [show 256 + (i - 256) = i by omega] at this

theorem MergeInv.leaf_iff (h : MergeInv ft m k t live) (i : Nat) :
    (nodeAt t i).kind = .leaf ↔ i ∈ initialLive ft := by
  rw [mem_initialLive]
  by_cases hi : i < 256
  · rw [h.leaves i hi]
    by_cases hz : tableGet ft (BitVec.ofNat 8 i) = 0
    · rw [leafSlot_of_zero hz]; exact iff_of_false (by simp) fun h => h.2 hz
    · rw [leafSlot_of_ne hz]; exact iff_of_true rfl ⟨hi, hz⟩
  · constructor
    · intro hk
      by_cases hik : i < 256 + k
      · rw [(h.inner_iff i).mpr ⟨by omega, hik⟩] at hk; simp at hk
      · rw [h.rest_free i (by omega)] at hk; simp at hk
    · rintro ⟨h1, -⟩; omega

/-- A child of an internal slot has a smaller index (R31.4). -/
theorem MergeInv.child_lt (h : MergeInv ft m k t live) {p i : Nat} (hp : isChildOf t p i) :
    i < p := by
  have hk := (h.inner_iff p).mp hp.1
  obtain ⟨-, a, b, hml⟩ := h.merged (p - 256) (by omega)
  have h1 := hml.left_live.2.1
  have h2 := hml.right_live.2.1
  have h3 := hml.left_eq
  have h4 := hml.right_eq
  rw [show 256 + (p - 256) = p by omega] at h3 h4
  rcases hp.2 with e | e <;> omega

/-- A node is the child of one internal slot at most (R31.5). -/
theorem MergeInv.parent_unique (h : MergeInv ft m k t live) {p q i : Nat} (hp : isChildOf t p i)
    (hq : isChildOf t q i) : p = q := by
  have key : ∀ p q, isChildOf t p i → isChildOf t q i → p < q → False := by
    intro p q hp hq hlt
    have hk := (h.inner_iff q).mp hq.1
    obtain ⟨-, a, b, hml⟩ := h.merged (q - 256) (by omega)
    have h3 := hml.left_eq
    have h4 := hml.right_eq
    rw [show 256 + (q - 256) = q by omega] at h3 h4
    rcases hq.2 with e | e
    · exact hml.left_live.2.2 p (by omega) (by rw [← h3, e]; exact hp)
    · exact hml.right_live.2.2 p (by omega) (by rw [← h4, e]; exact hp)
  rcases Nat.lt_trichotomy p q with hlt | rfl | hlt
  · exact (key p q hp hq hlt).elim
  · rfl
  · exact (key q p hq hp hlt).elim

end Built

/-- The leaf slots BUILD leaves are those of the symbols that occur (R84). -/
theorem leafSlots_perm {ft : SymTable Word64} {m k : Nat} {t : NodeTable} {live : List Nat}
    (h : MergeInv ft m k t live) : (leafSlots t).Perm (initialLive ft) := by
  unfold leafSlots
  rw [List.perm_ext_iff_of_nodup (List.nodup_range.filter _) (initialLive_nodup ft)]
  intro i
  rw [List.mem_filter, ← h.leaf_iff i]
  simp only [decide_eq_true_eq, List.mem_range, and_iff_right_iff_imp]
  intro hk
  by_contra hc
  rw [nodeAt_of_ge (by unfold Config.nodeMax at hc; omega)] at hk
  simp at hk

/-- The root BUILD leaves. -/
theorem root_spec (ft : SymTable Word64) :
    (presentSymbols ft = [] ∧ rootOf (mergeAll ft).2 = Config.nil) ∨
    (presentSymbols ft ≠ [] ∧ ∃ r, (mergeAll ft).2 = [r] ∧ r < 511 ∧
      (rootOf (mergeAll ft).2).toNat = r ∧ rootOf (mergeAll ft).2 ≠ Config.nil) := by
  obtain ⟨h1, h2⟩ := mergeAll_spec ft
  by_cases hp : presentSymbols ft = []
  · left
    rw [hp, List.length_nil, Nat.zero_min, List.length_eq_zero_iff] at h2
    exact ⟨hp, by rw [h2]; rfl⟩
  · right
    have hpos : 0 < (presentSymbols ft).length := List.length_pos_iff.mpr hp
    have h3 : (mergeAll ft).2.length = 1 := by omega
    obtain ⟨r, hr⟩ := List.length_eq_one_iff.mp h3
    have hlive := (h1.live_iff r).mp (by rw [hr]; simp)
    have hle := presentSymbols_length_le ft
    have hlt : r < 511 := by have := hlive.2.1; omega
    have e : (rootOf (mergeAll ft).2).toNat = r := by
      rw [hr]; simp only [rootOf, BitVec.toNat_ofNat]; exact Nat.mod_eq_of_lt (by omega)
    refine ⟨hp, r, hr, hlt, e, fun hn => ?_⟩
    rw [hn] at e
    have : Config.nil.toNat = 511 := rfl
    omega

/-- With two or more leaves the root is the node merged last (R88). -/
theorem root_top (ft : SymTable Word64) (h : 2 ≤ (presentSymbols ft).length) :
    (rootOf (mergeAll ft).2).toNat + 2 = 256 + (presentSymbols ft).length := by
  obtain ⟨h1, -⟩ := mergeAll_spec ft
  rcases root_spec ft with ⟨h2, -⟩ | ⟨-, r, hr, -, he, -⟩
  · rw [h2] at h; simp at h
  · have hlast : 256 + ((presentSymbols ft).length - 2) ∈ (mergeAll ft).2 := by
      rw [h1.live_iff]
      refine ⟨?_, by omega, fun p hp hc => ?_⟩
      · rw [(h1.merged _ (by omega)).1]; simp
      · have := h1.child_lt hc
        omega
    rw [hr, List.mem_singleton] at hlast
    omega

/-- After BUILD of a table whose sum fits 64 bits the tree is well formed (R31, R88). -/
theorem treeWf_mergeAll (ft : SymTable Word64) (hsum : tableSum ft < 2 ^ 64) :
    TreeWf (mergeAll ft).1 (rootOf (mergeAll ft).2)
      (BitVec.ofNat 9 (presentSymbols ft).length) := by
  obtain ⟨h1, h2⟩ := mergeAll_spec ft
  have hf := mergeAll_freq ft hsum
  have hle := presentSymbols_length_le ft
  have hn : (BitVec.ofNat 9 (presentSymbols ft).length).toNat = (presentSymbols ft).length := by
    rw [BitVec.toNat_ofNat]; exact Nat.mod_eq_of_lt (by omega)
  set t := (mergeAll ft).1 with ht
  refine ⟨?_, ?_, ?_, ?_, ?_, ?_, ?_, ?_, ?_, ?_, ?_, ?_, ?_, ?_, ?_⟩
  · -- absent_iff
    rcases root_spec ft with ⟨hp, he⟩ | ⟨hp, r, hr, hlt, he, hne⟩
    · refine ⟨fun _ i _ => ?_, fun _ => he⟩
      by_cases hi : i < 256
      · rw [h1.leaves i hi]
        refine leafSlot_of_zero ?_
        by_contra hz
        have := (mem_presentSymbols ft _).mpr hz
        rw [hp] at this; simp at this
      · exact h1.rest_free i (by rw [hp]; simp; omega)
    · refine ⟨fun e => absurd e hne, fun hall => ?_⟩
      have hlive := (h1.live_iff r).mp (by rw [hr]; simp)
      exact absurd (by rw [hall r hlt]; rfl) hlive.1
  · -- absent_nleaf
    intro he
    rcases root_spec ft with ⟨hp, -⟩ | ⟨-, -, -, -, -, hne⟩
    · rw [hp]; rfl
    · exact absurd he hne
  · -- free_record
    intro i hi
    by_cases h256 : i < 256
    · rw [h1.leaves i h256] at hi ⊢
      exact leafSlot_of_zero ((leafSlot_kind_free ft _).mp hi)
    · by_cases hk : i < 256 + ((presentSymbols ft).length - 1)
      · rw [(h1.inner_iff i).mpr ⟨by omega, hk⟩] at hi; simp at hi
      · exact h1.rest_free i (by omega)
  · -- low_slot
    intro i hi
    rw [h1.leaves i hi]
    by_cases hz : tableGet ft (BitVec.ofNat 8 i) = 0
    · left; rw [leafSlot_of_zero hz]; rfl
    · right; rw [leafSlot_of_ne hz]; exact ⟨rfl, rfl, rfl, rfl⟩
  · -- high_slot
    intro i hi hk
    have := ((mem_initialLive ft i).mp ((h1.leaf_iff i).mp hk)).1
    omega
  · -- inner_iff
    intro i
    rw [h1.inner_iff i, hn]
    omega
  · -- links
    intro i hi
    have hk := (h1.inner_iff i).mp hi
    obtain ⟨-, a, b, hml⟩ := h1.merged (i - 256) (by omega)
    rw [show i = 256 + (i - 256) by omega]
    have hA := hml.left_live.2.1
    have hB := hml.right_live.2.1
    have n511 : Config.nil.toNat = 511 := rfl
    refine ⟨fun e => ?_, fun e => ?_, fun e => ?_, ?_, ?_, ?_, ?_⟩
    · have := hml.left_eq; rw [e] at this; omega
    · have := hml.right_eq; rw [e] at this; omega
    · have h3 := hml.left_eq; rw [e, hml.right_eq] at h3; exact hml.ne h3.symm
    · rw [hml.left_eq]; exact hml.left_live.1
    · rw [hml.right_eq]; exact hml.right_live.1
    · rw [hml.left_eq]; exact hA
    · rw [hml.right_eq]; exact hB
  · -- freq_sum
    intro i hi
    have hk := (h1.inner_iff i).mp hi
    have := hf.inner (i - 256) (by omega)
    rw [show 256 + (i - 256) = i by omega] at this
    exact this
  · -- inner_sym
    intro i hi
    have hk := (h1.inner_iff i).mp hi
    obtain ⟨-, a, b, hml⟩ := h1.merged (i - 256) (by omega)
    have := hml.sym_zero
    rwa [show 256 + (i - 256) = i by omega] at this
  · -- one_parent
    intro i hi hne
    have hnl : i ∉ (mergeAll ft).2 := by
      rcases root_spec ft with ⟨hp, -⟩ | ⟨-, r, hr, -, he, -⟩
      · rw [hp, List.length_nil, Nat.zero_min, List.length_eq_zero_iff] at h2
        rw [h2]; simp
      · rw [hr, List.mem_singleton, ← he]; exact hne
    rw [h1.live_iff] at hnl
    unfold liveBefore at hnl
    have hlt : i < 256 + ((presentSymbols ft).length - 1) := by
      by_contra hc
      rw [h1.rest_free i (by omega)] at hi; simp at hi
    have : ∃ p, isChildOf t p i := by
      by_contra hc
      exact hnl ⟨hi, hlt, fun p _ hp => hc ⟨p, hp⟩⟩
    obtain ⟨p, hp⟩ := this
    exact ⟨p, hp, fun q hq => h1.parent_unique hq hp⟩
  · -- root_lone
    intro hone
    have hlen : (presentSymbols ft).length = 1 := by rw [← hn, hone]; rfl
    rcases root_spec ft with ⟨hp, -⟩ | ⟨-, r, hr, -, he, -⟩
    · rw [hp] at hlen; simp at hlen
    · rw [he]
      have hlive := (h1.live_iff r).mp (by rw [hr]; simp)
      have hr256 : r < 256 := by have := hlive.2.1; omega
      have leaf : ∀ i, i ∈ initialLive ft → i = r := by
        intro i hi
        have hli : i ∈ (mergeAll ft).2 := by
          have hi' := (mem_initialLive ft i).mp hi
          rw [h1.live_iff]
          refine ⟨?_, by omega, fun p hp hc => ?_⟩
          · rw [h1.leaves i hi'.1, Ne, leafSlot_kind_free]; exact hi'.2
          · exact h1.kind_low (by omega) hc.1
        rwa [hr, List.mem_singleton] at hli
      constructor
      · cases hkr : (nodeAt t r).kind with
        | leaf => rfl
        | free => exact absurd hkr hlive.1
        | inner => exact absurd hkr (h1.kind_low hr256)
      · intro i hi
        exact leaf i ((h1.leaf_iff i).mp hi)
  · -- root_top
    intro h
    rw [hn] at h ⊢
    exact root_top ft h
  · -- freq_pos
    exact fun i hi => hf.pos i hi
  · -- root_freq
    intro hne
    have e1 : ((leafSlots t).map fun i => (nodeAt t i).freq.toNat).sum = tableSum ft := by
      rw [((leafSlots_perm h1).map _).sum_eq, ← presentSymbols_sum]
      unfold initialLive
      rw [List.map_map]
      congr 1
      apply List.map_congr_left
      intro s _
      simp only [Function.comp_apply]
      rw [h1.leaves _ s.isLt, ofNat_toNat_byte, leafSlot_freq]
    rw [e1, ← hf.sum]
    rcases root_spec ft with ⟨-, he⟩ | ⟨-, r, hr, -, he, -⟩
    · exact absurd he hne
    · rw [he, hr]; simp [freqAt]
  · -- leaf_count
    rw [hn, (leafSlots_perm h1).length_eq, initialLive_length]

end Sys2Proof.Machine
end

