-- ==== Sys2Proof/Laws/Blob.lean ====
section
/-!
SUPPORT. Laws of the blob: its length, and that parsing accepts exactly the canonical form (R121, R126, R132).
-/

namespace Sys2Proof.Machine

@[simp] theorem pairBytes_length (ft : SymTable Word64) (s : Byte) : (pairBytes ft s).length = 9 := by
  simp [pairBytes]

theorem flatMap_pairBytes_length (ft : SymTable Word64) (ss : List Byte) :
    (ss.flatMap (pairBytes ft)).length = 9 * ss.length := by
  induction ss with
  | nil => rfl
  | cons s ss ih => rw [List.flatMap_cons, List.length_append, ih, pairBytes_length, List.length_cons]; omega

/-- The metadata of `n` symbols has `10 + 9*n` bytes (R121). -/
theorem metadataBytes_length (ft : SymTable Word64) (c : Word64) :
    (metadataBytes ft c).length = 10 + 9 * (presentSymbols ft).length := by
  simp only [metadataBytes, List.length_append, toBE_length, flatMap_pairBytes_length]
  omega

@[simp] theorem payload_length (a : Arch) : a.payload.length = a.plen.toNat := by simp [Arch.payload]
@[simp] theorem input_length (a : Arch) : a.input.length = a.ilen.toNat := by simp [Arch.input]
@[simp] theorem output_length (a : Arch) : a.output.length = a.olen.toNat := by simp [Arch.output]

/-- The blob has the size SERIALIZE computes (R121, R123). -/
theorem blob_length (a : Arch) : a.blob.length = a.blobSize := by
  simp [Arch.blob, Arch.blobSize, metadataBytes_length]

/-- A table with one more entry for each of a list of symbols. -/
def withEntries (f : Byte → Word64) : List Byte → SymTable Word64 → SymTable Word64
  | [], t => t
  | s :: ss, t => withEntries f ss (tableSet t s (f s))

theorem tableGet_withEntries (f : Byte → Word64) (ss : List Byte) (t : SymTable Word64) (s : Byte) :
    tableGet (withEntries f ss t) s = if s ∈ ss then f s else tableGet t s := by
  induction ss generalizing t with
  | nil => simp [withEntries]
  | cons x ss ih =>
    rw [withEntries, ih, tableGet_tableSet]
    by_cases h1 : s ∈ ss
    · simp [h1]
    · by_cases h2 : s = x
      · subst h2; simp
      · simp [h1, h2]

/-- The table is made of its present symbols' entries. -/
theorem withEntries_present (ft : SymTable Word64) :
    withEntries (tableGet ft) (presentSymbols ft) emptyTable = ft := by
  apply table_ext
  intro s
  rw [tableGet_withEntries]
  split
  · rfl
  · rename_i h
    rw [mem_presentSymbols, not_not] at h
    rw [h, tableGet_emptyTable]

/-- What the reader gives from an offset on is a given byte sequence. -/
def readsAt (rd : Nat → Byte) (q : Nat) (bs : List Byte) : Prop := readFrom rd q bs.length = bs

theorem readsAt_append {rd : Nat → Byte} {q : Nat} {xs ys : List Byte} :
    readsAt rd q (xs ++ ys) ↔ readsAt rd q xs ∧ readsAt rd (q + xs.length) ys := by
  unfold readsAt
  rw [List.length_append, readFrom_append]
  constructor
  · intro h
    exact List.append_inj h (by simp)
  · rintro ⟨h1, h2⟩
    rw [h1, h2]

theorem readsAt_cons {rd : Nat → Byte} {q : Nat} {b : Byte} {bs : List Byte} :
    readsAt rd q (b :: bs) ↔ rd q = b ∧ readsAt rd (q + 1) bs := by
  unfold readsAt
  rw [List.length_cons, readFrom, List.cons.injEq]

/-- Parsing the pairs of ascending symbols with nonzero frequencies accepts them. -/
theorem parsePairs_of_readsAt {rd : Nat → Byte} {ft : SymTable Word64} (ss : List Byte) :
    ∀ (q lo : Nat) (t : SymTable Word64) (sum : Nat),
      readsAt rd q (ss.flatMap (pairBytes ft)) →
      ss.Pairwise (fun s u => s.toNat < u.toNat) → (∀ s ∈ ss, lo ≤ s.toNat) →
      (∀ s ∈ ss, tableGet ft s ≠ 0) →
      parsePairs rd ss.length q lo t sum = .accepted (withEntries (tableGet ft) ss t,
        sum + (ss.map fun s => (tableGet ft s).toNat).sum) := by
  induction ss with
  | nil => intros; simp [parsePairs, withEntries]
  | cons s ss ih =>
    intro q lo t sum hr hp hlo hne
    rw [List.flatMap_cons, readsAt_append, pairBytes, readsAt_cons] at hr
    obtain ⟨⟨h1, h2⟩, h3⟩ := hr
    have hf : ofBE (readFrom rd (q + 1) 8) = (tableGet ft s).toNat := by
      unfold readsAt at h2
      rw [toBE_length] at h2
      rw [h2]
      exact ofBE_toBE 8 _ (tableGet ft s).isLt
    rw [List.pairwise_cons] at hp
    have hs0 : (tableGet ft s).toNat ≠ 0 := fun e => hne s (by simp) (BitVec.eq_of_toNat_eq e)
    rw [List.length_cons, parsePairs, h1, hf, if_neg (by have := hlo s (by simp); omega), if_neg hs0,
      BitVec.ofNat_toNat, BitVec.setWidth_eq]
    have hq : q + (s :: toBE 8 (tableGet ft s).toNat).length = q + 9 := by simp
    rw [hq] at h3
    rw [ih (q + 9) (s.toNat + 1) _ _ h3 hp.2 (fun u hu => hp.1 u hu)
      (fun u hu => hne u (by simp [hu]))]
    simp only [withEntries, List.map_cons, List.sum_cons]
    congr 2
    omega

/-- Parsing a blob that starts with the metadata of a table and its sum accepts it (R132). -/
theorem parseMetadata_of_readsAt {rd : Nat → Byte} {ft : SymTable Word64} {c : Word64} {len : Nat}
    (hr : readsAt rd 0 (metadataBytes ft c)) (hlen : 10 + 9 * (presentSymbols ft).length ≤ len)
    (hc : tableSum ft = c.toNat) :
    parseMetadata rd len = .accepted ⟨ft, c, 10 + 9 * (presentSymbols ft).length⟩ := by
  unfold metadataBytes at hr
  rw [readsAt_append, readsAt_append] at hr
  obtain ⟨⟨h1, h2⟩, h3⟩ := hr
  have hle := presentSymbols_length_le ft
  have hn : nsymOf rd = (presentSymbols ft).length := by
    unfold nsymOf readsAt at *
    rw [toBE_length] at h1
    rw [h1]
    exact ofBE_toBE 2 _ (by omega)
  have hcount : countOf rd = c.toNat := by
    unfold countOf
    unfold readsAt at h3
    rw [hn]
    rw [List.length_append, toBE_length, toBE_length, flatMap_pairBytes_length, Nat.zero_add] at h3
    rw [h3]
    exact ofBE_toBE 8 _ c.isLt
  rw [toBE_length, Nat.zero_add] at h2
  have hp := parsePairs_of_readsAt (rd := rd) (ft := ft) (presentSymbols ft) 2 0 emptyTable 0 h2
    (presentSymbols_ascending ft) (fun _ _ => Nat.zero_le _)
    (fun s hs => (mem_presentSymbols ft s).mp hs)
  unfold parseMetadata
  rw [hn, if_neg (by omega), if_neg (by omega), if_neg (by omega), hp]
  simp only
  rw [Nat.zero_add, presentSymbols_sum, hc, hcount, withEntries_present, if_neg (by simp)]
  simp

/-- The symbols of the pairs, as the reader gives them. -/
def pairSymbols (rd : Nat → Byte) : Nat → Nat → List Byte
  | 0, _ => []
  | k + 1, q => rd q :: pairSymbols rd k (q + 9)

@[simp] theorem pairSymbols_length (rd : Nat → Byte) (k q : Nat) : (pairSymbols rd k q).length = k := by
  induction k generalizing q with
  | zero => rfl
  | succ k ih => simp [pairSymbols, ih]

/-- What an accepted parse of the pairs says: the symbols ascend, each has a nonzero frequency, and the pairs'
bytes are those of the table parsed. -/
theorem parsePairs_accepted {rd : Nat → Byte} {k : Nat} :
    ∀ {q lo : Nat} {t t' : SymTable Word64} {sum sum' : Nat},
      parsePairs rd k q lo t sum = .accepted (t', sum') →
      (pairSymbols rd k q).Pairwise (fun s u => s.toNat < u.toNat) ∧
      (∀ s ∈ pairSymbols rd k q, lo ≤ s.toNat ∧ tableGet t' s ≠ 0) ∧
      (∀ s, s ∉ pairSymbols rd k q → tableGet t' s = tableGet t s) ∧
      readsAt rd q ((pairSymbols rd k q).flatMap (pairBytes t')) ∧
      sum' = sum + ((pairSymbols rd k q).map fun s => (tableGet t' s).toNat).sum := by
  induction k with
  | zero =>
    intro q lo t t' sum sum' h
    simp only [parsePairs, Parsed.accepted.injEq, Prod.mk.injEq] at h
    obtain ⟨rfl, rfl⟩ := h
    exact ⟨by simp [pairSymbols], by simp [pairSymbols], fun _ _ => rfl,
      by simp [pairSymbols, readsAt, readFrom], by simp [pairSymbols]⟩
  | succ k ih =>
    intro q lo t t' sum sum' h
    rw [parsePairs] at h
    split at h
    · cases h
    · rename_i hlo
      split at h
      · cases h
      · rename_i hf
        obtain ⟨i1, i2, i3, i4, i5⟩ := ih h
        have hnot : rd q ∉ pairSymbols rd k (q + 9) := fun hm => by
          have := (i2 _ hm).1; omega
        have hfreq : tableGet t' (rd q) = BitVec.ofNat 64 (ofBE (readFrom rd (q + 1) 8)) := by
          rw [i3 _ hnot, tableGet_tableSet, if_pos rfl]
        have hlt : ofBE (readFrom rd (q + 1) 8) < 2 ^ 64 := by
          have := ofBE_lt (readFrom rd (q + 1) 8)
          rw [readFrom_length] at this
          omega
        have htoNat : (tableGet t' (rd q)).toNat = ofBE (readFrom rd (q + 1) 8) := by
          rw [hfreq, BitVec.toNat_ofNat]; exact Nat.mod_eq_of_lt hlt
        refine ⟨?_, ?_, ?_, ?_, ?_⟩
        · rw [pairSymbols, List.pairwise_cons]
          exact ⟨fun u hu => (i2 u hu).1, i1⟩
        · intro s hs
          rw [pairSymbols, List.mem_cons] at hs
          rcases hs with rfl | hs
          · exact ⟨by omega, fun e => hf (by rw [← htoNat, e]; rfl)⟩
          · exact ⟨by have := (i2 s hs).1; omega, (i2 s hs).2⟩
        · intro s hs
          rw [pairSymbols, List.mem_cons, not_or] at hs
          rw [i3 s hs.2, tableGet_tableSet, if_neg hs.1]
        · rw [pairSymbols, List.flatMap_cons, readsAt_append, pairBytes_length]
          refine ⟨?_, i4⟩
          rw [pairBytes, readsAt_cons]
          refine ⟨rfl, ?_⟩
          unfold readsAt
          rw [toBE_length, htoNat]
          have := toBE_ofBE (readFrom rd (q + 1) 8)
          rw [readFrom_length] at this
          exact this.symm
        · rw [i5, pairSymbols, List.map_cons, List.sum_cons, htoNat]
          omega

/-- The pairs of an accepted parse from the empty table are those of the table's present symbols. -/
theorem pairSymbols_eq_present {rd : Nat → Byte} {k q : Nat} {t : SymTable Word64} {sum : Nat}
    (h : parsePairs rd k q 0 emptyTable 0 = .accepted (t, sum)) :
    pairSymbols rd k q = presentSymbols t := by
  obtain ⟨h1, h2, h3, -, -⟩ := parsePairs_accepted h
  have nd : (pairSymbols rd k q).Nodup := h1.imp fun hlt e => by subst e; exact Nat.lt_irrefl _ hlt
  have hp : (pairSymbols rd k q).Perm (presentSymbols t) := by
    rw [List.perm_ext_iff_of_nodup nd (presentSymbols_nodup t)]
    intro s
    rw [mem_presentSymbols]
    constructor
    · exact fun hs => (h2 s hs).2
    · intro hne
      by_contra hs
      exact hne (by rw [h3 s hs, tableGet_emptyTable])
  exact hp.eq_of_pairwise (fun a b _ _ hab hba => absurd hab (by omega)) h1
    (presentSymbols_ascending t)

/-- What an accepted blob says: its metadata is the canonical one of the table and the count parsed, and the
frequencies sum to the count (R128, R132). -/
theorem parseMetadata_accepted {rd : Nat → Byte} {len : Nat} {m : Metadata}
    (h : parseMetadata rd len = .accepted m) :
    readsAt rd 0 (metadataBytes m.table m.count) ∧ tableSum m.table = m.count.toNat ∧
      m.offset = 10 + 9 * (presentSymbols m.table).length ∧ m.offset ≤ len ∧
      nsymOf rd = (presentSymbols m.table).length := by
  unfold parseMetadata at h
  split at h
  · cases h
  · split at h
    · cases h
    · split at h
      · cases h
      · rename_i hlen2 hn hlen
        split at h
        · cases h
        · rename_i t sum hp
          split at h
          · cases h
          · rename_i hsum
            rw [not_not] at hsum
            cases h
            have heq := pairSymbols_eq_present hp
            obtain ⟨-, -, -, h4, h5⟩ := parsePairs_accepted hp
            rw [heq] at h4 h5
            have hlenp : nsymOf rd = (presentSymbols t).length := by
              rw [← heq, pairSymbols_length]
            have hclt : countOf rd < 2 ^ 64 := by
              have := ofBE_lt (readFrom rd (2 + 9 * nsymOf rd) 8)
              rw [readFrom_length] at this
              unfold countOf; omega
            have hcn : (BitVec.ofNat 64 (countOf rd)).toNat = countOf rd := by
              rw [BitVec.toNat_ofNat]; exact Nat.mod_eq_of_lt hclt
            refine ⟨?_, ?_, by simp only; rw [hlenp], by simp only; omega, hlenp⟩
            · unfold metadataBytes
              rw [readsAt_append, readsAt_append, toBE_length, List.length_append, toBE_length,
                flatMap_pairBytes_length]
              refine ⟨⟨?_, by rw [Nat.zero_add]; exact h4⟩, ?_⟩
              · unfold readsAt
                rw [toBE_length, ← hlenp]
                have := toBE_ofBE (readFrom rd 0 2)
                rw [readFrom_length] at this
                exact this.symm
              · unfold readsAt
                rw [toBE_length, hcn, ← hlenp, Nat.zero_add]
                have := toBE_ofBE (readFrom rd (2 + 9 * nsymOf rd) 8)
                rw [readFrom_length] at this
                exact this.symm
            · simp only
              rw [hcn, ← hsum, h5, presentSymbols_sum, Nat.zero_add]

end Sys2Proof.Machine
end

