-- ==== Sys2Proof/Laws/Paths.lean ====
section
/-!
SUPPORT. Laws of the paths of a well-formed tree (R31, R95): each node has one path from the root, a path is
short, and no leaf lies on the way to another.
-/

namespace Sys2Proof.Machine

section Follow
variable {t : NodeTable}

@[simp] theorem follow_nil_path (i : NodeIndex) : follow t i [] = i := rfl

theorem follow_cons (i : NodeIndex) (b : Bool) (p : List Bool) :
    follow t i (b :: p) = follow t (childOf t i b) p := rfl

theorem follow_append (i : NodeIndex) (p q : List Bool) :
    follow t i (p ++ q) = follow t (follow t i p) q := by
  simp [follow, List.foldl_append]

theorem follow_snoc (i : NodeIndex) (p : List Bool) (b : Bool) :
    follow t i (p ++ [b]) = childOf t (follow t i p) b := by
  rw [follow_append]; rfl

theorem childOf_nil (b : Bool) : childOf t Config.nil b = Config.nil := by
  unfold childOf; rw [nodeAt_nil]; split <;> rfl

theorem follow_from_nil (p : List Bool) : follow t Config.nil p = Config.nil := by
  induction p with
  | nil => rfl
  | cons b p ih => rw [follow_cons, childOf_nil, ih]

theorem nil_of_nil_kind {i : NodeIndex} (h : (nodeAt t i.toNat).kind ≠ .free) : i ≠ Config.nil := by
  rintro rfl
  rw [nodeAt_nil] at h
  exact h rfl

end Follow

section WellFormed
variable {t : NodeTable} {root nleaf : NodeIndex}

/-- Only an internal slot has a child. -/
theorem TreeWf.childOf_eq_nil (h : TreeWf t root nleaf) {i : NodeIndex}
    (hk : (nodeAt t i.toNat).kind ≠ .inner) (b : Bool) : childOf t i b = Config.nil := by
  have key : (nodeAt t i.toNat).left = Config.nil ∧ (nodeAt t i.toNat).right = Config.nil := by
    cases hkind : (nodeAt t i.toNat).kind with
    | inner => exact absurd hkind hk
    | free => rw [h.free_record _ hkind]; exact ⟨rfl, rfl⟩
    | leaf =>
      have hlt : i.toNat < 256 := by
        by_contra hc
        exact h.high_slot _ (by omega) hkind
      rcases h.low_slot _ hlt with hf | ⟨-, -, hl, hr⟩
      · rw [hf] at hkind; simp at hkind
      · exact ⟨hl, hr⟩
  unfold childOf
  split
  · exact key.2
  · exact key.1

/-- Both children of an internal slot are nodes of smaller index. -/
theorem TreeWf.childOf_inner (h : TreeWf t root nleaf) {i : NodeIndex}
    (hk : (nodeAt t i.toNat).kind = .inner) (b : Bool) :
    (nodeAt t (childOf t i b).toNat).kind ≠ .free ∧ (childOf t i b).toNat < i.toNat ∧
      isChildOf t i.toNat (childOf t i b).toNat := by
  obtain ⟨-, -, -, h1, h2, h3, h4⟩ := h.links _ hk
  cases b with
  | false => exact ⟨h1, h3, hk, .inl rfl⟩
  | true => exact ⟨h2, h4, hk, .inr rfl⟩

/-- A step to a node starts at an internal slot. -/
theorem TreeWf.inner_of_child (h : TreeWf t root nleaf) {i : NodeIndex} {b : Bool}
    (hk : (nodeAt t (childOf t i b).toNat).kind ≠ .free) : (nodeAt t i.toNat).kind = .inner := by
  by_contra hc
  rw [h.childOf_eq_nil hc, nodeAt_nil] at hk
  exact hk rfl

/-- Whatever lies on the way to a node is a node. -/
theorem TreeWf.node_of_follow (h : TreeWf t root nleaf) {i : NodeIndex} {p : List Bool}
    (hk : (nodeAt t (follow t i p).toNat).kind ≠ .free) : (nodeAt t i.toNat).kind ≠ .free := by
  induction p generalizing i with
  | nil => exact hk
  | cons b p ih =>
    rw [follow_cons] at hk
    rw [h.inner_of_child (ih hk)]
    simp

/-- A nonempty path to a node starts at an internal slot. -/
theorem TreeWf.inner_of_follow (h : TreeWf t root nleaf) {i : NodeIndex} {b : Bool} {p : List Bool}
    (hk : (nodeAt t (follow t i (b :: p)).toNat).kind ≠ .free) :
    (nodeAt t i.toNat).kind = .inner := by
  rw [follow_cons] at hk
  exact h.inner_of_child (h.node_of_follow hk)

/-- A path to a node goes down in index. -/
theorem TreeWf.follow_le (h : TreeWf t root nleaf) {i : NodeIndex} {p : List Bool}
    (hk : (nodeAt t (follow t i p).toNat).kind ≠ .free) :
    (follow t i p).toNat + p.length ≤ i.toNat := by
  induction p generalizing i with
  | nil => simp
  | cons b p ih =>
    rw [follow_cons] at hk ⊢
    have h1 := ih hk
    have h2 := (h.childOf_inner (h.inner_of_child (h.node_of_follow hk)) b).2.1
    rw [List.length_cons]
    omega

/-- A path from slot `256 + j` has at most `j + 1` edges, one from a leaf none (R88, R97 (c)). -/
theorem TreeWf.path_length (h : TreeWf t root nleaf) {i : NodeIndex} {p : List Bool}
    (hk : (nodeAt t (follow t i p).toNat).kind ≠ .free) : p.length + 255 ≤ max i.toNat 255 := by
  induction p generalizing i with
  | nil => simp
  | cons b p ih =>
    have hin := h.inner_of_follow hk
    rw [follow_cons] at hk
    have h1 := ih hk
    have h2 := (h.childOf_inner hin b).2.1
    have h3 := ((h.inner_iff _).mp hin).1
    rw [List.length_cons]
    omega

/-- Frequencies do not grow on the way down (R88). -/
theorem TreeWf.follow_freq_le (h : TreeWf t root nleaf) {i : NodeIndex} {p : List Bool}
    (hk : (nodeAt t (follow t i p).toNat).kind ≠ .free) :
    (nodeAt t (follow t i p).toNat).freq.toNat ≤ (nodeAt t i.toNat).freq.toNat := by
  induction p generalizing i with
  | nil => exact le_refl _
  | cons b p ih =>
    have hin := h.inner_of_follow hk
    rw [follow_cons] at hk ⊢
    refine (ih hk).trans ?_
    have := h.freq_sum _ hin
    cases b with
    | false => rw [show childOf t i false = (nodeAt t i.toNat).left from rfl]; omega
    | true => rw [show childOf t i true = (nodeAt t i.toNat).right from rfl]; omega

/-- The children of an internal slot differ. -/
theorem TreeWf.childOf_inj (h : TreeWf t root nleaf) {i : NodeIndex}
    (hk : (nodeAt t i.toNat).kind = .inner) {b c : Bool} (e : childOf t i b = childOf t i c) :
    b = c := by
  have hne := (h.links _ hk).2.2.1
  cases b <;> cases c
  · rfl
  · exact absurd e hne
  · exact absurd e.symm hne
  · rfl

/-- A node other than the root is the child of one slot (R31.5). -/
theorem TreeWf.parent_unique (h : TreeWf t root nleaf) {p q i : Nat} (hp : isChildOf t p i)
    (hq : isChildOf t q i) : p = q := by
  have hnode : (nodeAt t i).kind ≠ .free ∧ i < p := by
    obtain ⟨-, -, -, h1, h2, h3, h4⟩ := h.links _ hp.1
    rcases hp.2 with e | e
    · rw [e] at h1 h3; exact ⟨h1, h3⟩
    · rw [e] at h2 h4; exact ⟨h2, h4⟩
  have hin := (h.inner_iff p).mp hp.1
  have hroot := h.root_top (by omega)
  have hne : i ≠ root.toNat := by omega
  obtain ⟨r, -, hr⟩ := h.one_parent i hnode.1 hne
  rw [hr p hp, hr q hq]

/-- Two paths from one slot to one node are the same path (R95). -/
theorem TreeWf.path_unique (h : TreeWf t root nleaf) {i : NodeIndex} {p q : List Bool}
    (e : follow t i p = follow t i q) (hk : (nodeAt t (follow t i p).toNat).kind ≠ .free) :
    p = q := by
  induction p using List.reverseRecOn generalizing q with
  | nil =>
    have hk' := hk
    rw [e] at hk'
    have := h.follow_le hk'
    rw [← e] at this
    simp only [follow_nil_path] at this
    exact (List.length_eq_zero_iff.mp (by omega)).symm
  | append_singleton p b ih =>
    cases q using List.reverseRecOn with
    | nil =>
      have := h.follow_le hk
      rw [e] at this
      simp only [follow_nil_path, List.length_append, List.length_singleton] at this
      omega
    | append_singleton q c =>
      rw [follow_snoc, follow_snoc] at e
      rw [follow_snoc] at hk
      have in1 := h.inner_of_child hk
      have hk2 := hk
      rw [e] at hk2
      have in2 := h.inner_of_child hk2
      have c1 := (h.childOf_inner in1 b).2.2
      have c2 := (h.childOf_inner in2 c).2.2
      rw [e] at c1
      have hpq : follow t i p = follow t i q := BitVec.eq_of_toNat_eq (h.parent_unique c1 c2)
      have hp := ih hpq (by rw [in1]; simp)
      subst hp
      rw [h.childOf_inj in1 e]

/-- Every node has a path from the root (R31.5). -/
theorem TreeWf.exists_path (h : TreeWf t root nleaf) (i : NodeIndex)
    (hk : (nodeAt t i.toNat).kind ≠ .free) : ∃ p, follow t root p = i := by
  generalize hn : 511 - i.toNat = n
  induction n using Nat.strong_induction_on generalizing i with
  | _ n ih =>
    by_cases hr : i.toNat = root.toNat
    · exact ⟨[], (BitVec.eq_of_toNat_eq hr).symm⟩
    · obtain ⟨q, hq, -⟩ := h.one_parent _ hk hr
      have hq511 : q < 511 := by
        by_contra hc
        have := hq.1
        rw [nodeAt_of_ge (by omega)] at this
        simp at this
      have eq : (BitVec.ofNat 9 q).toNat = q := by
        rw [BitVec.toNat_ofNat]; exact Nat.mod_eq_of_lt (by omega)
      obtain ⟨-, -, -, -, -, h3, h4⟩ := h.links q hq.1
      have hlt : i.toNat < q := by rcases hq.2 with e | e <;> omega
      obtain ⟨p, hp⟩ := ih (511 - q) (by omega) (BitVec.ofNat 9 q)
        (by rw [eq, hq.1]; simp) (by rw [eq])
      rcases hq.2 with e | e
      · refine ⟨p ++ [false], ?_⟩
        rw [follow_snoc, hp]
        apply BitVec.eq_of_toNat_eq
        simp only [childOf, eq, Bool.false_eq_true, if_false, e]
      · refine ⟨p ++ [true], ?_⟩
        rw [follow_snoc, hp]
        apply BitVec.eq_of_toNat_eq
        simp only [childOf, eq, if_true, e]

/-- The slot of a leaf is its symbol. -/
theorem TreeWf.leaf_slot (h : TreeWf t root nleaf) {i : Nat} (hk : (nodeAt t i).kind = .leaf) :
    i = (nodeAt t i).sym.toNat := by
  have hlt : i < 256 := by
    by_contra hc
    exact h.high_slot _ (by omega) hk
  rcases h.low_slot i hlt with hf | ⟨-, hs, -⟩
  · rw [hf] at hk; simp at hk
  · rw [hs, BitVec.toNat_ofNat]; exact (Nat.mod_eq_of_lt hlt).symm

theorem leadsTo.kind {i : NodeIndex} {p : List Bool} {s : Byte} (h : leadsTo t i p s) :
    (nodeAt t (follow t i p).toNat).kind ≠ .free := by rw [h.1]; simp

/-- The node a path to a symbol ends at is that symbol's slot. -/
theorem TreeWf.leadsTo_slot (h : TreeWf t root nleaf) {i : NodeIndex} {p : List Bool} {s : Byte}
    (hp : leadsTo t i p s) : (follow t i p).toNat = s.toNat := by
  rw [h.leaf_slot hp.1, hp.2]

/-- From one slot one path leads to a symbol (R95). -/
theorem TreeWf.leadsTo_unique (h : TreeWf t root nleaf) {i : NodeIndex} {p q : List Bool} {s : Byte}
    (hp : leadsTo t i p s) (hq : leadsTo t i q s) : p = q := by
  refine h.path_unique (BitVec.eq_of_toNat_eq ?_) hp.kind
  rw [h.leadsTo_slot hp, h.leadsTo_slot hq]

/-- The path to a leaf does not go on to another symbol (R97 (b)). -/
theorem TreeWf.leadsTo_no_prefix (h : TreeWf t root nleaf) {i : NodeIndex} {p q : List Bool}
    {s u : Byte} (hp : leadsTo t i p s) (hq : leadsTo t i q u) (hpq : p <+: q) : s = u := by
  obtain ⟨r, rfl⟩ := hpq
  cases r with
  | nil => rw [List.append_nil] at hq; exact hp.2.symm.trans hq.2
  | cons b r =>
    have := hq.kind
    rw [follow_append] at this
    have := h.inner_of_follow this
    rw [hp.1] at this
    simp at this

/-- Every leaf's symbol has its path from the root. -/
theorem TreeWf.exists_leadsTo (h : TreeWf t root nleaf) {s : Byte}
    (hk : (nodeAt t s.toNat).kind = .leaf) : ∃ p, leadsTo t root p s := by
  have e : (s.setWidth 9 : NodeIndex).toNat = s.toNat := by
    rw [BitVec.toNat_setWidth]; exact Nat.mod_eq_of_lt (by have := s.isLt; omega)
  obtain ⟨p, hp⟩ := h.exists_path (s.setWidth 9) (by rw [e, hk]; simp)
  refine ⟨p, ?_, ?_⟩
  · rw [hp, e]; exact hk
  · rw [hp, e]
    exact BitVec.eq_of_toNat_eq (h.leaf_slot hk).symm

/-- A symbol a path leads to has a leaf. -/
theorem TreeWf.leaf_of_leadsTo (h : TreeWf t root nleaf) {i : NodeIndex} {p : List Bool} {s : Byte}
    (hp : leadsTo t i p s) : (nodeAt t s.toNat).kind = .leaf := by
  rw [← h.leadsTo_slot hp]; exact hp.1

/-- From one slot each symbol is below one child only. -/
theorem TreeWf.leadsTo_one_side (h : TreeWf t root nleaf) {i : NodeIndex} {p q : List Bool} {s : Byte}
    (hp : leadsTo t (childOf t i false) p s) (hq : leadsTo t (childOf t i true) q s) : False := by
  have := h.leadsTo_unique (i := i) (p := false :: p) (q := true :: q) hp hq
  simp at this

/-- The frequency of a node is the sum of the frequencies of the leaves below it (R88). -/
theorem TreeWf.freq_of_leaves (h : TreeWf t root nleaf) (i : NodeIndex)
    (hk : (nodeAt t i.toNat).kind ≠ .free) : ∃ below : List Byte, below.Nodup ∧
      (∀ b, b ∈ below ↔ ∃ p, leadsTo t i p b) ∧
      (nodeAt t i.toNat).freq.toNat = (below.map fun b => (nodeAt t b.toNat).freq.toNat).sum := by
  generalize hn : i.toNat = n
  induction n using Nat.strong_induction_on generalizing i with
  | _ n ih =>
    subst hn
    by_cases hin : (nodeAt t i.toNat).kind = .inner
    · have hc := h.childOf_inner hin
      obtain ⟨l, l1, l2, l3⟩ := ih _ (hc false).2.1 _ (hc false).1 rfl
      obtain ⟨r, r1, r2, r3⟩ := ih _ (hc true).2.1 _ (hc true).1 rfl
      refine ⟨l ++ r, l1.append r1 fun b hl hr => ?_, fun b => ?_, ?_⟩
      · obtain ⟨p, hp⟩ := (l2 b).mp hl
        obtain ⟨q, hq⟩ := (r2 b).mp hr
        exact h.leadsTo_one_side hp hq
      · rw [List.mem_append, l2, r2]
        constructor
        · rintro (⟨p, hp⟩ | ⟨p, hp⟩)
          · exact ⟨false :: p, hp⟩
          · exact ⟨true :: p, hp⟩
        · rintro ⟨p, hp⟩
          cases p with
          | nil => have := hp.1; rw [show follow t i [] = i from rfl, hin] at this; cases this
          | cons c p =>
            cases c
            · exact .inl ⟨p, hp⟩
            · exact .inr ⟨p, hp⟩
      · rw [List.map_append, List.sum_append, ← l3, ← r3]
        exact h.freq_sum _ hin
    · have hl : (nodeAt t i.toNat).kind = .leaf := by
        cases hkind : (nodeAt t i.toNat).kind with
        | free => exact absurd hkind hk
        | leaf => rfl
        | inner => exact absurd hkind hin
      refine ⟨[(nodeAt t i.toNat).sym], List.nodup_singleton _, fun b => ?_, ?_⟩
      · rw [List.mem_singleton]
        constructor
        · rintro rfl; exact ⟨[], hl, rfl⟩
        · rintro ⟨p, hp⟩
          cases p with
          | nil => exact hp.2.symm
          | cons c p => exact absurd (h.inner_of_follow hp.kind) hin
      · rw [List.map_singleton, List.sum_singleton, ← h.leaf_slot hl]

/-- With two or more leaves the root is internal. -/
theorem TreeWf.root_inner (h : TreeWf t root nleaf) (h2 : 2 ≤ nleaf.toNat) :
    (nodeAt t root.toNat).kind = .inner := by
  have := h.root_top h2
  rw [h.inner_iff]
  omega

/-- A tree with a root has a leaf. -/
theorem TreeWf.nleaf_pos (h : TreeWf t root nleaf) (hr : root ≠ Config.nil) : 1 ≤ nleaf.toNat := by
  by_contra hc
  have h0 : nleaf.toNat = 0 := by omega
  apply hr
  rw [h.absent_iff]
  intro i _
  have hl := h.leaf_count
  rw [h0] at hl
  have hleaf : (nodeAt t i).kind ≠ .leaf := by
    intro hk
    have hi : i < Config.nodeMax := by
      by_contra hc
      rw [nodeAt_of_ge (by unfold Config.nodeMax at hc; omega)] at hk
      simp at hk
    have : i ∈ leafSlots t := by
      unfold leafSlots
      rw [List.mem_filter]
      exact ⟨List.mem_range.mpr hi, by simp [hk]⟩
    rw [List.length_eq_zero_iff.mp hl.symm] at this
    simp at this
  cases hk : (nodeAt t i).kind with
  | free => exact h.free_record i hk
  | leaf => exact absurd hk hleaf
  | inner =>
    have := (h.inner_iff i).mp hk
    omega

/-- The root of a tree is no free slot, and is a leaf exactly when it is alone. -/
theorem TreeWf.root_kind (h : TreeWf t root nleaf) (hr : root ≠ Config.nil) :
    ((nodeAt t root.toNat).kind = .leaf ∧ nleaf.toNat = 1) ∨
    ((nodeAt t root.toNat).kind = .inner ∧ 2 ≤ nleaf.toNat) := by
  have := h.nleaf_pos hr
  by_cases h1 : nleaf.toNat = 1
  · exact .inl ⟨(h.root_lone (BitVec.eq_of_toNat_eq h1)).1, h1⟩
  · exact .inr ⟨h.root_inner (by omega), by omega⟩

/-- A path from the root has at most 255 edges, and at most one fewer than there are leaves (R97 (c)). -/
theorem TreeWf.root_path_length (h : TreeWf t root nleaf) (h2 : 2 ≤ nleaf.toNat) {p : List Bool}
    (hk : (nodeAt t (follow t root p).toNat).kind ≠ .free) : p.length + 1 ≤ nleaf.toNat := by
  have h1 := h.path_length hk
  have h3 := h.root_top h2
  omega

end WellFormed

theorem leafSlots_length_le {t : NodeTable} {root nleaf : NodeIndex} (h : TreeWf t root nleaf) :
    (leafSlots t).length ≤ 256 := by
  have hsub : (leafSlots t) ⊆ List.range 256 := by
    intro i hi
    unfold leafSlots at hi
    rw [List.mem_filter] at hi
    rw [List.mem_range]
    by_contra hc
    exact h.high_slot i (by omega) (by simpa using hi.2)
  have hnd : (leafSlots t).Nodup := List.nodup_range.filter _
  have := (List.subperm_of_subset hnd hsub).length_le
  simpa using this

/-- `NLEAF` is at most 256 (R22). -/
theorem TreeWf.nleaf_le {t : NodeTable} {root nleaf : NodeIndex} (h : TreeWf t root nleaf) :
    nleaf.toNat ≤ 256 := by
  rw [h.leaf_count]; exact leafSlots_length_le h

end Sys2Proof.Machine
end

