-- ==== Sys2Proof/Laws/Codes.lean ====
section
/-!
SUPPORT. Laws of CODES: each symbol of a well-formed tree gets the path to its leaf, every other symbol none.
-/

namespace Sys2Proof.Machine

theorem Codebook.record_clen (cb : Codebook) (s u : Byte) (p : List Bool) :
    tableGet (cb.record s p).clen u =
      if u = s then BitVec.ofNat 8 p.length else tableGet cb.clen u := by
  simp [Codebook.record]

theorem Codebook.record_code (cb : Codebook) (s u : Byte) (p : List Bool) :
    tableGet (cb.record s p).code u = if u = s then codeOfBits p else tableGet cb.code u := by
  simp [Codebook.record]

/-- The entry of a symbol is the given bit string. -/
def Codebook.holds (cb : Codebook) (s : Byte) (p : List Bool) : Prop :=
  tableGet cb.clen s = BitVec.ofNat 8 p.length ∧ tableGet cb.code s = codeOfBits p

/-- Two codebooks have the same entry for a symbol. -/
def Codebook.agree (cb cb' : Codebook) (s : Byte) : Prop :=
  tableGet cb'.clen s = tableGet cb.clen s ∧ tableGet cb'.code s = tableGet cb.code s

theorem Codebook.agree_trans {a b c : Codebook} {s : Byte} (h1 : a.agree b s) (h2 : b.agree c s) :
    a.agree c s := ⟨h2.1.trans h1.1, h2.2.trans h1.2⟩

theorem Codebook.holds_of_agree {a b : Codebook} {s : Byte} {p : List Bool} (h1 : a.holds s p)
    (h2 : a.agree b s) : b.holds s p := ⟨h2.1.trans h1.1, h2.2.trans h1.2⟩

theorem Codebook.holds_record (cb : Codebook) (s : Byte) (p : List Bool) :
    (cb.record s p).holds s p := by
  constructor
  · rw [Codebook.record_clen, if_pos rfl]
  · rw [Codebook.record_code, if_pos rfl]

theorem Codebook.agree_record (cb : Codebook) {s u : Byte} (p : List Bool) (h : u ≠ s) :
    cb.agree (cb.record s p) u := by
  constructor
  · rw [Codebook.record_clen, if_neg h]
  · rw [Codebook.record_code, if_neg h]

section Visit
variable {t : NodeTable} {root nleaf : NodeIndex}

/-- What the traversal from one slot records: the path of each symbol below it, and nothing else (R94, R95). -/
theorem visit_spec (h : TreeWf t root nleaf) (fuel : Nat) :
    ∀ (i : NodeIndex) (path : List Bool) (cb : Codebook), (nodeAt t i.toNat).kind ≠ .free →
      1 ≤ fuel → i.toNat + 2 ≤ 256 + fuel →
      (∀ s q, leadsTo t i q s → (visit t fuel i.toNat path cb).holds s (path ++ q)) ∧
      (∀ s, (∀ q, ¬leadsTo t i q s) → cb.agree (visit t fuel i.toNat path cb) s) := by
  induction fuel with
  | zero => intro i path cb _ h1; omega
  | succ fuel ih =>
    intro i path cb hk _ hfuel
    unfold visit
    cases hkind : (nodeAt t i.toNat).kind with
    | free => exact absurd hkind hk
    | leaf =>
      simp only
      have here : leadsTo t i [] (nodeAt t i.toNat).sym := ⟨hkind, rfl⟩
      refine ⟨fun s q hq => ?_, fun s hs => ?_⟩
      · cases q with
        | nil =>
          have : s = (nodeAt t i.toNat).sym := hq.2.symm
          subst this
          rw [List.append_nil]
          exact Codebook.holds_record cb _ path
        | cons b q =>
          have := h.inner_of_follow hq.kind
          rw [hkind] at this; simp at this
      · refine Codebook.agree_record cb path ?_
        rintro rfl
        exact hs [] here
    | inner =>
      simp only
      have hi256 := ((h.inner_iff _).mp hkind).1
      have cl := h.childOf_inner hkind false
      have cr := h.childOf_inner hkind true
      have el : (nodeAt t i.toNat).left = childOf t i false := rfl
      have er : (nodeAt t i.toNat).right = childOf t i true := rfl
      rw [el, er]
      set cb1 := visit t fuel (childOf t i false).toNat (path ++ [false]) cb with hcb1
      obtain ⟨l1, l2⟩ := ih (childOf t i false) (path ++ [false]) cb cl.1 (by omega) (by omega)
      obtain ⟨r1, r2⟩ := ih (childOf t i true) (path ++ [true]) cb1 cr.1 (by omega) (by omega)
      refine ⟨fun s q hq => ?_, fun s hs => ?_⟩
      · cases q with
        | nil =>
          have := hq.1
          rw [follow_nil_path, hkind] at this; simp at this
        | cons b q =>
          cases b with
          | false =>
            have hl : leadsTo t (childOf t i false) q s := hq
            have hnr : ∀ q', ¬leadsTo t (childOf t i true) q' s := by
              intro q' hq'
              have : leadsTo t i (true :: q') s := hq'
              have := h.leadsTo_unique hq this
              simp at this
            have := Codebook.holds_of_agree (l1 s q hl) (r2 s hnr)
            rwa [List.append_assoc, List.singleton_append] at this
          | true =>
            have hr : leadsTo t (childOf t i true) q s := hq
            have := r1 s q hr
            rwa [List.append_assoc, List.singleton_append] at this
      · exact Codebook.agree_trans (l2 s fun q hq => hs (false :: q) hq)
          (r2 s fun q hq => hs (true :: q) hq)

/-- What CODES derives from a well-formed tree (R94 to R98). -/
theorem deriveCodes_spec (h : TreeWf t root nleaf) (s : Byte) :
    (∀ p, codePath t root s p → (deriveCodes t root).holds s p) ∧
    ((∀ p, ¬codePath t root s p) → Codebook.empty.agree (deriveCodes t root) s) := by
  unfold deriveCodes
  by_cases hr : root = Config.nil
  · rw [if_pos hr]
    exact ⟨fun p hp => absurd hr hp.1, fun _ => ⟨rfl, rfl⟩⟩
  · rw [if_neg hr]
    rcases h.root_kind hr with ⟨hk, -⟩ | ⟨hk, h2⟩
    · rw [if_pos hk]
      refine ⟨fun p hp => ?_, fun hno => ?_⟩
      · rcases hp.2 with ⟨-, hs, rfl⟩ | ⟨hk', -⟩
        · subst hs; exact Codebook.holds_record _ _ _
        · rw [hk] at hk'; simp at hk'
      · refine Codebook.agree_record _ _ ?_
        rintro rfl
        exact hno [false] ⟨hr, .inl ⟨hk, rfl, rfl⟩⟩
    · rw [if_neg (by rw [hk]; simp)]
      have ht := h.root_top h2
      have hle := h.nleaf_le
      obtain ⟨v1, v2⟩ := visit_spec h visitDepth root [] .empty (by rw [hk]; simp)
        (by unfold visitDepth; omega) (by unfold visitDepth; omega)
      refine ⟨fun p hp => ?_, fun hno => v2 s fun q hq => hno q ⟨hr, .inr ⟨hk, hq⟩⟩⟩
      rcases hp.2 with ⟨hk', -⟩ | ⟨-, hl⟩
      · rw [hk] at hk'; simp at hk'
      · have := v1 s p hl
        rwa [List.nil_append] at this

theorem codePath_length (h : TreeWf t root nleaf) {s : Byte} {p : List Bool}
    (hp : codePath t root s p) : 1 ≤ p.length ∧ p.length ≤ 255 := by
  rcases hp.2 with ⟨-, -, rfl⟩ | ⟨hk, hl⟩
  · simp
  · constructor
    · cases p with
      | nil =>
        have := hl.1
        rw [follow_nil_path, hk] at this; simp at this
      | cons b p => simp
    · have h1 := h.path_length hl.kind
      have h2 : 2 ≤ nleaf.toNat := by
        have := (h.inner_iff _).mp hk; omega
      have h3 := h.root_top h2
      have := h.nleaf_le
      omega

/-- A symbol has a code exactly when its slot is a leaf (R97 (a)). -/
theorem exists_codePath (h : TreeWf t root nleaf) (s : Byte) :
    (∃ p, codePath t root s p) ↔ (nodeAt t s.toNat).kind = .leaf := by
  constructor
  · rintro ⟨p, -, ⟨hk, hs, -⟩ | ⟨-, hl⟩⟩
    · rw [← hs, ← h.leaf_slot hk]; exact hk
    · exact h.leaf_of_leadsTo hl
  · intro hk
    have hr : root ≠ Config.nil := by
      rintro rfl
      have := h.absent_iff.mp rfl s.toNat (by have := s.isLt; unfold Config.nodeMax; omega)
      rw [this] at hk; simp at hk
    rcases h.root_kind hr with ⟨hrk, h1⟩ | ⟨hrk, -⟩
    · have := (h.root_lone (BitVec.eq_of_toNat_eq h1)).2 _ hk
      refine ⟨[false], hr, .inl ⟨hrk, ?_, rfl⟩⟩
      rw [← this]
      exact BitVec.eq_of_toNat_eq (h.leaf_slot hk).symm
    · obtain ⟨p, hp⟩ := h.exists_leadsTo hk
      exact ⟨p, hr, .inr ⟨hrk, hp⟩⟩

/-- The codes of two symbols are no prefix of one another (R97 (b)). -/
theorem codePath_no_prefix (h : TreeWf t root nleaf) {s u : Byte} {p q : List Bool}
    (hp : codePath t root s p) (hq : codePath t root u q) (hne : s ≠ u) : ¬p <+: q := by
  intro hpq
  rcases hp.2 with ⟨hk, hs, -⟩ | ⟨hk, hl⟩ <;> rcases hq.2 with ⟨hk', hu, -⟩ | ⟨hk', hl'⟩
  · exact hne (hs.symm.trans hu)
  · rw [hk] at hk'; simp at hk'
  · rw [hk] at hk'; simp at hk'
  · exact hne (h.leadsTo_no_prefix hl hl' hpq)

end Visit

/-- The stored code of a symbol stands for its path. -/
theorem bitsOfCode_of_holds {cb : Codebook} {s : Byte} {p : List Bool} (h : cb.holds s p)
    (hp : p.length ≤ 255) : bitsOfCode (tableGet cb.clen s) (tableGet cb.code s) = p := by
  rw [h.1, h.2]; exact bitsOfCode_codeOfBits p hp

theorem clen_of_holds {cb : Codebook} {s : Byte} {p : List Bool} (h : cb.holds s p)
    (hp : p.length ≤ 255) : (tableGet cb.clen s).toNat = p.length := by
  rw [h.1, BitVec.toNat_ofNat]; exact Nat.mod_eq_of_lt (by omega)

@[simp] theorem empty_clen (s : Byte) : tableGet Codebook.empty.clen s = 0 := by simp [Codebook.empty]
@[simp] theorem empty_code (s : Byte) : tableGet Codebook.empty.code s = 0 := by simp [Codebook.empty]

@[simp] theorem stageCodes_clen (a : Arch) : (stageCodes a).clen = (deriveCodes a.node a.root).clen :=
  rfl
@[simp] theorem stageCodes_code (a : Arch) : (stageCodes a).code = (deriveCodes a.node a.root).code :=
  rfl

/-- After CODES the code of a symbol is its path (R95, R96). -/
theorem stageCodes_codeBits {a : Arch} (h : a.TreeOk) {s : Byte} {p : List Bool}
    (hp : codePath a.node a.root s p) : (stageCodes a).codeBits s = p := by
  unfold Arch.codeBits
  rw [stageCodes_clen, stageCodes_code]
  exact bitsOfCode_of_holds ((deriveCodes_spec h s).1 p hp) (codePath_length h hp).2

/-- After CODES `CLEN[s] > 0` exactly for the symbols whose slot is a leaf (R97 (a)). -/
theorem stageCodes_clen_ne_zero {a : Arch} (h : a.TreeOk) (s : Byte) :
    tableGet (stageCodes a).clen s ≠ 0 ↔ (nodeAt a.node s.toNat).kind = .leaf := by
  rw [← exists_codePath h s]
  constructor
  · intro hne
    by_contra hc
    refine hne ?_
    rw [stageCodes_clen, ((deriveCodes_spec h s).2 fun p hp => hc ⟨p, hp⟩).1, empty_clen]
  · rintro ⟨p, hp⟩ he
    have hl := codePath_length h hp
    have := clen_of_holds ((deriveCodes_spec h s).1 p hp) hl.2
    rw [stageCodes_clen] at he
    rw [he] at this
    have e0 : (0 : Byte).toNat = 0 := rfl
    omega

/-- CODES of a well-formed tree leaves a codebook as R32 and R39 (d) say. -/
theorem stageCodes_codebookOk {a : Arch} (h : a.TreeOk) : (stageCodes a).CodebookOk := by
  constructor
  · intro s j hj
    by_cases hs : ∃ p, codePath a.node a.root s p
    · obtain ⟨p, hp⟩ := hs
      have hh := (deriveCodes_spec h s).1 p hp
      have hl := codePath_length h hp
      rw [stageCodes_clen, clen_of_holds hh hl.2] at hj
      rw [stageCodes_code, hh.2, codeOfBits_getLsbD p j hl.2, List.getD_eq_default _ _ hj]
    · have := ((deriveCodes_spec h s).2 fun p hp => hs ⟨p, hp⟩).2
      rw [stageCodes_code, this, empty_code]
      exact BitVec.getLsbD_zero
  · intro s u hne hs hu
    rw [stageCodes_clen_ne_zero h, ← exists_codePath h] at hs hu
    obtain ⟨p, hp⟩ := hs
    obtain ⟨q, hq⟩ := hu
    rw [stageCodes_codeBits h hp, stageCodes_codeBits h hq]
    exact codePath_no_prefix h hp hq hne

end Sys2Proof.Machine
end

