-- ==== Sys2Proof/Laws/Kraft.lean ====
section
/-!
SUPPORT. Kraft's inequality, as a list of code lengths meets it: what merging the two least weights saves
(R89), and that a prefix code meets it.
-/

namespace Sys2Proof.Machine

/-! ### Code lengths and the merge of the two least weights -/

/-- The lengths meet Kraft's inequality, scaled by `2 ^ d` with no length above `d`. -/
def kraft (d : Nat) (ls : List Nat) : Prop :=
  (∀ n ∈ ls, n ≤ d) ∧ (ls.map fun n => 2 ^ (d - n)).sum ≤ 2 ^ d

theorem kraft_perm {d : Nat} {xs ys : List Nat} (h : xs.Perm ys) (hk : kraft d xs) : kraft d ys :=
  ⟨fun n hn => hk.1 n (h.symm.subset hn), by
    have := (h.map fun n => 2 ^ (d - n)).sum_eq
    have := hk.2
    omega⟩

/-- The sum of weight times length. -/
def weighted (l : List (Nat × Nat)) : Nat := (l.map fun x => x.1 * x.2).sum

theorem weighted_perm {xs ys : List (Nat × Nat)} (h : xs.Perm ys) : weighted xs = weighted ys :=
  (h.map _).sum_eq

@[simp] theorem weighted_cons (x : Nat × Nat) (l : List (Nat × Nat)) :
    weighted (x :: l) = x.1 * x.2 + weighted l := by simp [weighted]

/-- The least weight can take the greatest length at no cost. -/
theorem exists_deepest {a : Nat} (da : Nat) (l : List (Nat × Nat)) (h : ∀ w ∈ l.map Prod.fst, a ≤ w) :
    ∃ d r, (d :: r.map Prod.snd).Perm (da :: l.map Prod.snd) ∧ r.map Prod.fst = l.map Prod.fst ∧
      a * d + weighted r ≤ a * da + weighted l ∧ ∀ x ∈ r.map Prod.snd, x ≤ d := by
  induction l with
  | nil => exact ⟨da, [], .refl _, rfl, le_refl _, by simp⟩
  | cons x l ih =>
    obtain ⟨w, e⟩ := x
    simp only [List.map_cons, List.mem_cons, forall_eq_or_imp] at h
    obtain ⟨d, r, h1, h2, h3, h4⟩ := ih h.2
    by_cases hd : e ≤ d
    · refine ⟨d, (w, e) :: r, ?_, by simp [h2], by simp; omega, by simpa using ⟨hd, by simpa using h4⟩⟩
      simp only [List.map_cons]
      exact (List.Perm.swap _ _ _).trans ((h1.cons e).trans (List.Perm.swap _ _ _))
    · refine ⟨e, (w, d) :: r, ?_, by simp [h2], ?_, ?_⟩
      · simp only [List.map_cons]
        exact (h1.cons e).trans (List.Perm.swap _ _ _)
      · obtain ⟨k, rfl⟩ : ∃ k, e = d + k := ⟨e - d, by omega⟩
        obtain ⟨j, rfl⟩ : ∃ j, w = a + j := ⟨w - a, by omega⟩
        simp only [weighted_cons]
        have e1 : (a + j) * (d + k) = a * d + a * k + j * d + j * k := by ring
        have e2 : (a + j) * d = a * d + j * d := by ring
        have e3 : a * (d + k) = a * d + a * k := by ring
        omega
      · simp only [List.map_cons, List.mem_cons, forall_eq_or_imp]
        exact ⟨by omega, fun x hx => by have := h4 x hx; omega⟩

/-- A length that is alone the greatest can be lowered to the next greatest. -/
theorem kraft_lower {d m n : Nat} {ls : List Nat} (h : kraft d (m :: n :: ls))
    (hl : ∀ x ∈ ls, x ≤ n) : kraft d (n :: n :: ls) := by
  obtain ⟨h1, h2⟩ := h
  simp only [List.mem_cons, forall_eq_or_imp] at h1
  refine ⟨by simpa using ⟨h1.2.1, h1.2.2⟩, ?_⟩
  simp only [List.map_cons, List.sum_cons] at h2 ⊢
  obtain ⟨q, hq⟩ : 2 ^ (d - n) ∣ (ls.map fun x => 2 ^ (d - x)).sum := by
    apply List.dvd_sum
    intro x hx
    obtain ⟨y, hy, rfl⟩ := List.mem_map.mp hx
    have := hl y hy
    exact pow_dvd_pow 2 (by omega)
  have h0 : (2:Nat) ^ d = 2 ^ (d - n) * 2 ^ n := by rw [← pow_add]; congr 1; omega
  have hm : 0 < 2 ^ (d - m) := Nat.two_pow_pos _
  have hp : 0 < 2 ^ (d - n) := Nat.two_pow_pos _
  rw [hq] at h2 ⊢
  rw [h0] at h2 ⊢
  have h3 : 2 ^ (d - n) * (1 + q) < 2 ^ (d - n) * 2 ^ n := by
    have : 2 ^ (d - n) * (1 + q) = 2 ^ (d - n) + 2 ^ (d - n) * q := by ring
    omega
  have h4 : 1 + q < 2 ^ n := Nat.lt_of_mul_lt_mul_left h3
  have h5 : 2 ^ (d - n) * (2 + q) ≤ 2 ^ (d - n) * 2 ^ n := Nat.mul_le_mul_left _ (by omega)
  have : 2 ^ (d - n) * (2 + q) = 2 ^ (d - n) + (2 ^ (d - n) + 2 ^ (d - n) * q) := by ring
  omega

/-- Merging the two least weights saves at least their sum (the step of Huffman's argument, R89). -/
theorem weighted_merge {d a b : Nat} {rest : List Nat} {l : List (Nat × Nat)} (hab : a ≤ b)
    (h : ∀ x ∈ rest, b ≤ x) (hk : kraft d (l.map Prod.snd))
    (hw : (l.map Prod.fst).Perm (a :: b :: rest)) :
    ∃ l' : List (Nat × Nat), kraft d (l'.map Prod.snd) ∧ (l'.map Prod.fst).Perm (rest ++ [a + b]) ∧
      a + b + weighted l' ≤ weighted l := by
  obtain ⟨⟨a', da⟩, hmem, he⟩ := List.mem_map.mp (hw.symm.subset (List.mem_cons_self ..))
  simp only at he; subst he
  have hl := List.perm_cons_erase hmem
  set r0 := l.erase (a', da)
  have w0 : (r0.map Prod.fst).Perm (b :: rest) := by
    have := ((hl.map Prod.fst).symm.trans hw); simpa using this
  obtain ⟨m, r1, p1, f1, c1, m1⟩ := exists_deepest (a := a') da r0 (fun w hw' => by
    have := w0.subset hw'
    simp only [List.mem_cons] at this
    rcases this with rfl | hr
    · exact hab
    · exact hab.trans (h w hr))
  have w1 : (r1.map Prod.fst).Perm (b :: rest) := f1 ▸ w0
  obtain ⟨⟨b', db⟩, hmem1, he⟩ := List.mem_map.mp (w1.symm.subset (List.mem_cons_self ..))
  simp only at he; subst he
  have hl1 := List.perm_cons_erase hmem1
  set r2 := r1.erase (b', db)
  have w2 : (r2.map Prod.fst).Perm rest := by
    have := ((hl1.map Prod.fst).symm.trans w1); simpa using this
  obtain ⟨n, r3, p3, f3, c3, m3⟩ := exists_deepest (a := b') db r2 (fun w hw' => h w (w2.subset hw'))
  have s1 := hl1.map Prod.snd
  simp only [List.map_cons] at s1
  have hdep : (m :: n :: r3.map Prod.snd).Perm (l.map Prod.snd) :=
    ((p3.trans s1.symm).cons m).trans (p1.trans (by simpa using (hl.map Prod.snd).symm))
  have hn : n ≤ m := m1 n ((p3.trans s1.symm).subset (List.mem_cons_self ..))
  have hk' := kraft_lower (kraft_perm hdep.symm hk) m3
  have hn1 : 1 ≤ n := by
    by_contra hc
    have : n = 0 := by omega
    subst this
    have := hk'.2
    simp only [List.map_cons, List.sum_cons, Nat.sub_zero] at this
    have := Nat.two_pow_pos d
    omega
  have hnd : n ≤ d := hk'.1 n (List.mem_cons_self ..)
  refine ⟨r3 ++ [(a' + b', n - 1)], ?_, ?_, ?_⟩
  · refine ⟨?_, ?_⟩
    · intro x hx
      simp only [List.map_append, List.map_cons, List.map_nil, List.mem_append, List.mem_singleton] at hx
      rcases hx with hx | rfl
      · exact hk'.1 x (by simp only [List.mem_cons]; exact .inr (.inr hx))
      · omega
    · have := hk'.2
      simp only [List.map_cons, List.sum_cons, List.map_append, List.map_nil, List.sum_append,
        List.sum_nil] at this ⊢
      have e : 2 ^ (d - (n - 1)) = 2 ^ (d - n) + 2 ^ (d - n) := by
        rw [show d - (n - 1) = (d - n) + 1 by omega, pow_succ]; ring
      omega
  · simp only [List.map_append, List.map_cons, List.map_nil, f3]
    exact w2.append_right _
  · have e1 := weighted_perm hl
    have e2 := weighted_perm hl1
    have e3 : weighted (r3 ++ [(a' + b', n - 1)]) = (a' + b') * (n - 1) + weighted r3 := by
      rw [weighted_perm List.perm_append_comm]; simp
    simp only [weighted_cons] at e1 e2
    have e4 : a' * n ≤ a' * m := Nat.mul_le_mul_left _ hn
    have e5 : (a' + b') * (n - 1) + (a' + b') = a' * n + b' * n := by
      obtain ⟨j, rfl⟩ : ∃ j, n = j + 1 := ⟨n - 1, by omega⟩
      simp only [Nat.add_sub_cancel]; ring
    omega

/-! ### Kraft's inequality of a prefix code -/

/-- The codes that go on after a first bit `b`, without it. -/
def tailsOf (b : Bool) (cs : List (List Bool)) : List (List Bool) :=
  cs.filterMap fun c => match c with
    | [] => none
    | x :: p => if x = b then some p else none

theorem mem_tailsOf {b : Bool} {cs : List (List Bool)} {p : List Bool} :
    p ∈ tailsOf b cs ↔ (b :: p) ∈ cs := by
  unfold tailsOf
  rw [List.mem_filterMap]
  constructor
  · rintro ⟨c, hc, h⟩
    cases c with
    | nil => simp at h
    | cons x q =>
      simp only at h
      split at h
      · simp only [Option.some.injEq] at h; subst_vars; exact hc
      · simp at h
  · intro h; exact ⟨_, h, by simp⟩

theorem tailsOf_pairwise {b : Bool} {cs : List (List Bool)}
    (h : cs.Pairwise fun c e => ¬c <+: e ∧ ¬e <+: c) :
    (tailsOf b cs).Pairwise fun c e => ¬c <+: e ∧ ¬e <+: c := by
  unfold tailsOf
  apply List.Pairwise.filterMap _ _ h
  intro c e hce p hp q hq
  cases c with
  | nil => simp at hp
  | cons x c =>
    cases e with
    | nil => simp at hq
    | cons y e =>
      simp only at hp hq
      split at hp <;> split at hq
      · simp only [Option.some.injEq] at hp hq; subst_vars
        simpa using hce
      all_goals simp_all

theorem sum_tailsOf (d : Nat) (cs : List (List Bool)) (h : [] ∉ cs) :
    (cs.map fun c => 2 ^ (d + 1 - c.length)).sum =
      ((tailsOf false cs).map fun c => 2 ^ (d - c.length)).sum +
      ((tailsOf true cs).map fun c => 2 ^ (d - c.length)).sum := by
  induction cs with
  | nil => rfl
  | cons c cs ih =>
    simp only [List.mem_cons, not_or] at h
    have := ih h.2
    cases c with
    | nil => exact absurd rfl h.1
    | cons x p =>
      cases x with
      | false =>
        have e1 : tailsOf false ((false :: p) :: cs) = p :: tailsOf false cs := rfl
        have e2 : tailsOf true ((false :: p) :: cs) = tailsOf true cs := rfl
        rw [e1, e2]
        simp only [List.map_cons, List.sum_cons, List.length_cons, Nat.add_sub_add_right]
        omega
      | true =>
        have e1 : tailsOf false ((true :: p) :: cs) = tailsOf false cs := rfl
        have e2 : tailsOf true ((true :: p) :: cs) = p :: tailsOf true cs := rfl
        rw [e1, e2]
        simp only [List.map_cons, List.sum_cons, List.length_cons, Nat.add_sub_add_right]
        omega

theorem kraft_of_prefixFree (d : Nat) : ∀ cs : List (List Bool),
    (cs.Pairwise fun c e => ¬c <+: e ∧ ¬e <+: c) → (∀ c ∈ cs, c.length ≤ d) →
    kraft d (cs.map List.length) := by
  induction d with
  | zero =>
    intro cs hp hl
    refine ⟨fun n hn => ?_, ?_⟩
    · obtain ⟨c, hc, rfl⟩ := List.mem_map.mp hn; exact hl c hc
    · cases cs with
      | nil => simp
      | cons c cs =>
        cases cs with
        | nil => simp
        | cons e cs =>
          have h1 := hl c (by simp)
          have : c = [] := List.length_eq_zero_iff.mp (by omega)
          subst this
          have := (List.pairwise_cons.mp hp).1 e (by simp)
          exact absurd List.nil_prefix this.1
  | succ d ih =>
    intro cs hp hl
    refine ⟨fun n hn => ?_, ?_⟩
    · obtain ⟨c, hc, rfl⟩ := List.mem_map.mp hn; exact hl c hc
    · rw [List.map_map]
      by_cases hnil : [] ∈ cs
      · have : cs = [[]] := by
          cases cs with
          | nil => simp at hnil
          | cons c cs =>
            cases cs with
            | nil => simp at hnil; simp [hnil]
            | cons e cs =>
              rw [List.pairwise_cons] at hp
              rcases List.mem_cons.mp hnil with rfl | hm
              · exact absurd List.nil_prefix (hp.1 e (by simp)).1
              · exact absurd List.nil_prefix (hp.1 [] hm).2
        subst this
        simp
      · have k0 := (ih _ (tailsOf_pairwise (b := false) hp) fun c hc => by
          have := hl _ (mem_tailsOf.mp hc); simp at this; exact this).2
        have k1 := (ih _ (tailsOf_pairwise (b := true) hp) fun c hc => by
          have := hl _ (mem_tailsOf.mp hc); simp at this; exact this).2
        rw [List.map_map] at k0 k1
        have := sum_tailsOf d cs hnil
        have e : ((fun n => 2 ^ (d + 1 - n)) ∘ List.length : List Bool → Nat) = fun c => 2 ^ (d + 1 - c.length) := rfl
        have e' : ((fun n => 2 ^ (d - n)) ∘ List.length : List Bool → Nat) = fun c => 2 ^ (d - c.length) := rfl
        rw [e]; rw [e'] at k0 k1
        rw [pow_succ]
        omega
end Sys2Proof.Machine
end

