-- ==== Sys2Proof/Laws/Cost.lean ====
section
/-!
SUPPORT. Laws of the encoded length: the frequencies of a well-formed tree weighted by depth, and the bound the
merges give it: the least among all prefix codes (R89), so at most eight bits for each input byte (R106).
-/

namespace Sys2Proof.Machine

/-! ### The weighted depth of a subtree -/

/-- The sum of the frequencies of the internal nodes at and below a slot, to a depth. -/
def subCost (t : NodeTable) : Nat → Nat → Nat
  | 0, _ => 0
  | fuel + 1, i =>
    match (nodeAt t i).kind with
    | .inner => freqAt t i + (subCost t fuel (nodeAt t i).left.toNat +
        subCost t fuel (nodeAt t i).right.toNat)
    | .leaf | .free => 0

theorem subCost_leaf {t : NodeTable} {fuel i : Nat} (h : (nodeAt t i).kind ≠ .inner) :
    subCost t fuel i = 0 := by
  cases fuel with
  | zero => rfl
  | succ fuel =>
    unfold subCost
    cases hk : (nodeAt t i).kind with
    | inner => exact absurd hk h
    | leaf => rfl
    | free => rfl

theorem subCost_inner {t : NodeTable} {fuel i : Nat} (h : (nodeAt t i).kind = .inner) :
    subCost t (fuel + 1) i = freqAt t i + (subCost t fuel (nodeAt t i).left.toNat +
      subCost t fuel (nodeAt t i).right.toNat) := by
  rw [subCost, h]

/-- Slots from a merge on do not matter to what lies before it. -/
theorem subCost_set {ft : SymTable Word64} {m k : Nat} {t : NodeTable} {live : List Nat} {n : Node}
    (h : MergeInv ft m k t live) (fuel i : Nat) (hi : i < 256 + k) :
    subCost (nodeSet t (256 + k) n) fuel i = subCost t fuel i := by
  induction fuel generalizing i with
  | zero => rfl
  | succ fuel ih =>
    have e : nodeAt (nodeSet t (256 + k) n) i = nodeAt t i := nodeAt_nodeSet_ne _ _ (by omega)
    by_cases hk : (nodeAt t i).kind = .inner
    · rw [subCost_inner hk, subCost_inner (by rw [e]; exact hk), e]
      have h1 := h.child_lt ⟨hk, .inl rfl⟩
      have h2 := h.child_lt ⟨hk, .inr rfl⟩
      rw [ih _ (by omega), ih _ (by omega)]
      unfold freqAt
      rw [e]
    · rw [subCost_leaf hk, subCost_leaf (by rw [e]; exact hk)]

/-- Depth enough for every slot before merge `k`. -/
theorem subCost_fuel {ft : SymTable Word64} {m k : Nat} {t : NodeTable} {live : List Nat}
    (h : MergeInv ft m k t live) (i fuel fuel' : Nat) (h1 : i < 256 + fuel) (h2 : i < 256 + fuel') :
    subCost t fuel i = subCost t fuel' i := by
  induction fuel generalizing i fuel' with
  | zero => rw [subCost_leaf (h.kind_low (by omega)), subCost_leaf (h.kind_low (by omega))]
  | succ fuel ih =>
    by_cases hk : (nodeAt t i).kind = .inner
    · have hi := ((h.inner_iff i).mp hk).1
      obtain ⟨f, rfl⟩ : ∃ f, fuel' = f + 1 := ⟨fuel' - 1, by omega⟩
      rw [subCost_inner hk, subCost_inner hk]
      have h3 := h.child_lt ⟨hk, .inl rfl⟩
      have h4 := h.child_lt ⟨hk, .inr rfl⟩
      rw [ih _ f (by omega) (by omega), ih _ f (by omega) (by omega)]
    · rw [subCost_leaf hk, subCost_leaf hk]

/-- What the merges keep of the cost: whatever lengths the leaves are given, what is built and some lengths for
what is left cost no more. -/
def CostInv (ft : SymTable Word64) (k : Nat) (t : NodeTable) (live : List Nat) : Prop :=
  MergeFreq ft k t live ∧
  ∀ (d : Nat) (l : List (Nat × Nat)), kraft d (l.map Prod.snd) →
    (l.map Prod.fst).Perm ((initialLive ft).map (freqAt (leafTable ft))) →
    ∃ l' : List (Nat × Nat), kraft d (l'.map Prod.snd) ∧
      (l'.map Prod.fst).Perm (live.map (freqAt t)) ∧
      (live.map (subCost t 256)).sum + weighted l' ≤ weighted l

theorem costInv_start (ft : SymTable Word64) : CostInv ft 0 (leafTable ft) (initialLive ft) := by
  refine ⟨mergeFreq_start ft, fun d l hk hw => ⟨l, hk, hw, ?_⟩⟩
  have : ((initialLive ft).map (subCost (leafTable ft) 256)).sum = 0 := by
    apply List.sum_eq_zero
    intro x hx
    obtain ⟨i, hi, rfl⟩ := List.mem_map.mp hx
    exact subCost_leaf ((mergeInv_start ft).kind_low ((mem_initialLive ft i).mp hi).1)
  omega

theorem costInv_step {ft : SymTable Word64} {m : Nat} (hm : m ≤ 256)
    (hsum : tableSum ft < 2 ^ 64) (k : Nat) (t : NodeTable) (live : List Nat) (a : Nat)
    (rest : List Nat) (b : Nat) (rest' : List Nat) (h : MergeInv ft m k t live)
    (hc : CostInv ft k t live) (ha : extractMin t live = some (a, rest))
    (hb : extractMin t rest = some (b, rest')) :
    CostInv ft (k + 1) (nodeSet t (256 + k) (mergedNode t a b)) (rest' ++ [256 + k]) := by
  have pa := extractMin_perm ha
  have pb := extractMin_perm hb
  have pall : live.Perm (a :: b :: rest') := pa.trans (pb.cons a)
  have nd1 : (a :: rest).Nodup := pa.nodup_iff.mp h.nodup
  have nd2 : (b :: rest').Nodup := pb.nodup_iff.mp (List.nodup_cons.mp nd1).2
  have lenall := pall.length_eq
  simp only [List.length_cons] at lenall
  have hcount := h.count
  have hk : 256 + k < 511 := by omega
  have hlive : ∀ i ∈ a :: b :: rest', i < 256 + k := fun i hi =>
    ((h.live_iff i).mp (pall.symm.subset hi)).2.1
  have hA := hlive a (by simp)
  have hB := hlive b (by simp)
  have hf := mergeFreq_step hm hsum k t live a rest b rest' h hc.1 ha hb
  have hinv := h.step hm ha hb
  refine ⟨hf, fun d l hkl hw => ?_⟩
  set t' := nodeSet t (256 + k) (mergedNode t a b) with ht'
  have eq_new : nodeAt t' (256 + k) = mergedNode t a b := by
    rw [ht', nodeAt_nodeSet _ _ _ _ hk, if_pos rfl]
  have nl : (nodeAt t' (256 + k)).left.toNat = a := by
    rw [eq_new]
    simp only [mergedNode, BitVec.toNat_ofNat]; exact Nat.mod_eq_of_lt (by omega)
  have nr : (nodeAt t' (256 + k)).right.toNat = b := by
    rw [eq_new]
    simp only [mergedNode, BitVec.toNat_ofNat]; exact Nat.mod_eq_of_lt (by omega)
  have f_old : ∀ i, i < 256 + k → freqAt t' i = freqAt t i := fun i hi => by
    unfold freqAt; rw [ht', nodeAt_nodeSet_ne _ _ (by omega)]
  have f_new : freqAt t' (256 + k) = freqAt t a + freqAt t b := by
    have := hf.inner k (by omega)
    rw [nl, nr, f_old a hA, f_old b hB] at this
    exact this
  have c_old : ∀ i, i < 256 + k → subCost t' 256 i = subCost t 256 i :=
    fun i hi => subCost_set h 256 i hi
  have c_new : subCost t' 256 (256 + k) =
      freqAt t a + freqAt t b + (subCost t 256 a + subCost t 256 b) := by
    have hkind : (nodeAt t' (256 + k)).kind = .inner := by rw [eq_new]; rfl
    rw [subCost_inner hkind, f_new, nl, nr,
      subCost_fuel hinv a 255 256 (by omega) (by omega),
      subCost_fuel hinv b 255 256 (by omega) (by omega), c_old a hA, c_old b hB]
  have m1 : rest'.map (subCost t' 256) = rest'.map (subCost t 256) :=
    List.map_congr_left fun i hi => c_old i (hlive i (by simp [hi]))
  have m2 : rest'.map (freqAt t') = rest'.map (freqAt t) :=
    List.map_congr_left fun i hi => f_old i (hlive i (by simp [hi]))
  have hab : freqAt t a ≤ freqAt t b := by
    have := extractMin_least ha h.nodup b (pb.symm.subset (by simp))
    rw [comesBefore_iff] at this
    unfold freqAt; omega
  have hrest : ∀ x ∈ rest'.map (freqAt t), freqAt t b ≤ x := by
    intro x hx
    obtain ⟨i, hi, rfl⟩ := List.mem_map.mp hx
    have := extractMin_least hb (List.nodup_cons.mp nd1).2 i hi
    rw [comesBefore_iff] at this
    unfold freqAt; omega
  have e1 := (pall.map (subCost t 256)).sum_eq
  simp only [List.map_cons, List.sum_cons] at e1
  obtain ⟨l1, hk1, hw1, hc1⟩ := hc.2 d l hkl hw
  have hw2 := hw1.trans (pall.map (freqAt t))
  simp only [List.map_cons] at hw2
  obtain ⟨l2, hk2, hw3, hc2⟩ := weighted_merge hab hrest hk1 hw2
  refine ⟨l2, hk2, ?_, ?_⟩
  · simp only [List.map_append, List.map_cons, List.map_nil, m2, f_new]
    exact hw3
  · simp only [List.map_append, List.map_cons, List.map_nil, List.sum_append, List.sum_cons,
      List.sum_nil, m1, c_new]
    omega

/-- The weighted depth of the tree BUILD leaves is least among all code lengths for its leaves (R89). -/
theorem subCost_mergeAll_least (ft : SymTable Word64) (hsum : tableSum ft < 2 ^ 64)
    (hne : presentSymbols ft ≠ []) {d : Nat} {l : List (Nat × Nat)} (hk : kraft d (l.map Prod.snd))
    (hw : (l.map Prod.fst).Perm ((initialLive ft).map (freqAt (leafTable ft)))) :
    subCost (mergeAll ft).1 256 (rootOf (mergeAll ft).2).toNat ≤ weighted l := by
  obtain ⟨k, h1, h2, h3⟩ := MergeInv.loop (P := CostInv ft) (presentSymbols_length_le ft)
    (costInv_step (presentSymbols_length_le ft) hsum) ((initialLive ft).length - 1)
    (mergeInv_start ft) (costInv_start ft) (by omega)
  change CostInv ft k (mergeAll ft).1 (mergeAll ft).2 at h2
  rcases root_spec ft with ⟨he, -⟩ | ⟨-, r, hr, -, he, -⟩
  · exact absurd he hne
  · obtain ⟨l', -, -, hc⟩ := h2.2 d l hk hw
    rw [hr] at hc
    simp only [List.map_cons, List.map_nil, List.sum_cons, List.sum_nil] at hc
    rw [he]
    omega

/-- It is at most eight times the table's sum: a code of eight bits for each symbol costs that (R106). -/
theorem subCost_mergeAll (ft : SymTable Word64) (hsum : tableSum ft < 2 ^ 64)
    (hne : presentSymbols ft ≠ []) :
    subCost (mergeAll ft).1 256 (rootOf (mergeAll ft).2).toNat ≤ 8 * tableSum ft := by
  have hle := presentSymbols_length_le ft
  refine (subCost_mergeAll_least ft hsum hne (d := 8)
    (l := ((initialLive ft).map (freqAt (leafTable ft))).map fun w => (w, 8)) ?_ ?_).trans ?_
  · rw [List.map_map]
    refine ⟨by simp, ?_⟩
    have e : (((initialLive ft).map (freqAt (leafTable ft))).map (Prod.snd ∘ fun w => (w, 8))).map
        (fun n => 2 ^ (8 - n)) = (initialLive ft).map fun _ => 1 := by
      simp [Function.comp_def]
    rw [e]
    simpa using hle
  · rw [List.map_map]
    simp [Function.comp_def]
  · have hs := (mergeFreq_start ft).sum
    unfold weighted
    rw [List.map_map]
    have : ((initialLive ft).map (freqAt (leafTable ft))).map ((fun x : Nat × Nat => x.1 * x.2) ∘ fun w => (w, 8)) =
      ((initialLive ft).map (freqAt (leafTable ft))).map fun w => w * 8 := rfl
    rw [this, List.sum_map_mul_right, List.map_id', hs]
    omega

/-! ### The weighted depth by symbols -/

section BySymbol
open Classical
variable {t : NodeTable} {root nleaf : NodeIndex}

/-- The length of the path from a slot to a symbol, 0 where there is none. -/
noncomputable def pathLength (t : NodeTable) (i : NodeIndex) (s : Byte) : Nat :=
  if h : ∃ q, leadsTo t i q s then h.choose.length else 0

/-- A symbol's frequency where a path leads to it, else 0. -/
noncomputable def freqBelow (t : NodeTable) (i : NodeIndex) (s : Byte) : Nat :=
  if ∃ q, leadsTo t i q s then freqAt t s.toNat else 0

theorem pathLength_eq (h : TreeWf t root nleaf) {i : NodeIndex} {q : List Bool} {s : Byte}
    (hq : leadsTo t i q s) : pathLength t i s = q.length := by
  have he : ∃ q, leadsTo t i q s := ⟨q, hq⟩
  unfold pathLength
  rw [dif_pos he, h.leadsTo_unique hq he.choose_spec]

theorem sum_freqBelow (h : TreeWf t root nleaf) (fuel : Nat) (i : NodeIndex)
    (hk : (nodeAt t i.toNat).kind ≠ .free) (hf : i.toNat < 256 + fuel) :
    (allSymbols.map (freqBelow t i)).sum = freqAt t i.toNat ∧
    (allSymbols.map fun s => freqBelow t i s * pathLength t i s).sum = subCost t fuel i.toNat := by
  have leaf_case : ∀ i : NodeIndex, (nodeAt t i.toNat).kind = .leaf →
      (allSymbols.map (freqBelow t i)).sum = freqAt t i.toNat ∧
      (allSymbols.map fun s => freqBelow t i s * pathLength t i s).sum = 0 := by
    intro i hkind
    have only : ∀ s q, leadsTo t i q s → q = [] := by
      intro s q hq
      cases q with
      | nil => rfl
      | cons b q =>
        have := h.inner_of_follow hq.kind
        rw [hkind] at this; simp at this
    have here : leadsTo t i [] (nodeAt t i.toNat).sym := ⟨hkind, rfl⟩
    have hslot := h.leaf_slot hkind
    constructor
    · have e : allSymbols.map (freqBelow t i) = allSymbols.map fun s =>
          freqAt t i.toNat * if (nodeAt t i.toNat).sym == s then 1 else 0 := by
        apply List.map_congr_left
        intro s _
        unfold freqBelow
        by_cases hs : (nodeAt t i.toNat).sym = s
        · subst hs
          rw [if_pos ⟨[], here⟩, ← hslot]; simp
        · rw [if_neg]
          · simp [hs]
          · rintro ⟨q, hq⟩
            have := only s q hq
            subst this
            exact hs hq.2
      rw [e, List.sum_map_mul_left, sum_indicator, count_allSymbols, Nat.mul_one]
    · apply List.sum_eq_zero
      intro x hx
      obtain ⟨s, -, rfl⟩ := List.mem_map.mp hx
      by_cases hs : ∃ q, leadsTo t i q s
      · obtain ⟨q, hq⟩ := hs
        rw [pathLength_eq h hq, only s q hq]; rfl
      · simp [freqBelow, hs]
  induction fuel generalizing i with
  | zero =>
    have hkind : (nodeAt t i.toNat).kind = .leaf := by
      cases hkind : (nodeAt t i.toNat).kind with
      | free => exact absurd hkind hk
      | leaf => rfl
      | inner => have := ((h.inner_iff _).mp hkind).1; omega
    exact leaf_case i hkind
  | succ fuel ih =>
    cases hkind : (nodeAt t i.toNat).kind with
    | free => exact absurd hkind hk
    | leaf =>
      rw [subCost_leaf (by rw [hkind]; simp)]
      exact leaf_case i hkind
    | inner =>
      have cl := h.childOf_inner hkind false
      have cr := h.childOf_inner hkind true
      obtain ⟨l1, l2⟩ := ih (childOf t i false) cl.1 (by omega)
      obtain ⟨r1, r2⟩ := ih (childOf t i true) cr.1 (by omega)
      have el : (nodeAt t i.toNat).left = childOf t i false := rfl
      have er : (nodeAt t i.toNat).right = childOf t i true := rfl
      have split1 : ∀ s, freqBelow t i s =
          freqBelow t (childOf t i false) s + freqBelow t (childOf t i true) s ∧
          freqBelow t i s * pathLength t i s =
          freqBelow t (childOf t i false) s * pathLength t (childOf t i false) s +
          freqBelow t (childOf t i true) s * pathLength t (childOf t i true) s +
          (freqBelow t (childOf t i false) s + freqBelow t (childOf t i true) s) := by
        intro s
        by_cases hs : ∃ q, leadsTo t i q s
        · obtain ⟨q, hq⟩ := hs
          have hpl := pathLength_eq h hq
          cases q with
          | nil =>
            have := hq.1
            rw [follow_nil_path, hkind] at this; simp at this
          | cons b q =>
            have hother : ∀ q', ¬leadsTo t (childOf t i !b) q' s := by
              intro q' hq'
              have : leadsTo t i ((!b) :: q') s := hq'
              have := h.leadsTo_unique hq this
              simp at this
            have hthis : leadsTo t (childOf t i b) q s := hq
            have f0 : freqBelow t i s = freqAt t s.toNat := if_pos ⟨_, hq⟩
            have f1 : freqBelow t (childOf t i b) s = freqAt t s.toNat := if_pos ⟨_, hthis⟩
            have f2 : freqBelow t (childOf t i !b) s = 0 := if_neg fun ⟨q', hq'⟩ => hother q' hq'
            have p1 := pathLength_eq h hthis
            rw [List.length_cons] at hpl
            cases b with
            | false =>
              simp only [Bool.not_false] at f2
              rw [f0, f1, f2, hpl, p1]
              constructor
              · omega
              · ring
            | true =>
              simp only [Bool.not_true] at f2
              rw [f0, f1, f2, hpl, p1]
              constructor
              · omega
              · ring
        · have g : ∀ b, freqBelow t (childOf t i b) s = 0 := fun b =>
            if_neg fun ⟨q, hq⟩ => hs ⟨b :: q, hq⟩
          have g0 : freqBelow t i s = 0 := if_neg hs
          rw [g0, g, g]
          simp
      have sum1 : (allSymbols.map (freqBelow t i)).sum =
          freqAt t (childOf t i false).toNat + freqAt t (childOf t i true).toNat := by
        rw [List.map_congr_left fun s _ => (split1 s).1, List.sum_map_add, l1, r1]
      have hfs := h.freq_sum _ hkind
      rw [el, er] at hfs
      constructor
      · rw [sum1]; exact hfs.symm
      · rw [List.map_congr_left fun s _ => (split1 s).2, List.sum_map_add, List.sum_map_add,
          List.sum_map_add, l1, r1, l2, r2, subCost_inner hkind, el, er]
        have : freqAt t i.toNat = _ := hfs
        rw [this]
        unfold freqAt
        omega

/-- The leaves are the symbols present (R84). -/
theorem leaf_iff_present (ft : SymTable Word64) (b : Byte) :
    (nodeAt (mergeAll ft).1 b.toNat).kind = .leaf ↔ tableGet ft b ≠ 0 := by
  rw [(mergeAll_spec ft).1.leaf_iff, mem_initialLive]
  simp [b.isLt]

/-- The frequency times the path length, summed over the symbols, is the weighted depth. -/
theorem sum_paths (ft : SymTable Word64) (hsum : tableSum ft < 2 ^ 64) {path : Byte → List Bool}
    (hne : presentSymbols ft ≠ [])
    (hp : ∀ b, tableGet ft b ≠ 0 → leadsTo (mergeAll ft).1 (rootOf (mergeAll ft).2) (path b) b) :
    (allSymbols.map fun b => (tableGet ft b).toNat * (path b).length).sum =
      subCost (mergeAll ft).1 256 (rootOf (mergeAll ft).2).toNat := by
  have ht := treeWf_mergeAll ft hsum
  rcases root_spec ft with ⟨h1, -⟩ | ⟨-, r, -, -, -, hr⟩
  · exact absurd h1 hne
  have hk : (nodeAt (mergeAll ft).1 (rootOf (mergeAll ft).2).toNat).kind ≠ .free := by
    rcases ht.root_kind hr with ⟨hk, -⟩ | ⟨hk, -⟩ <;> rw [hk] <;> simp
  rw [← (sum_freqBelow ht 256 _ hk (by have := (rootOf (mergeAll ft).2).isLt; omega)).2]
  refine congrArg List.sum (List.map_congr_left fun b _ => ?_)
  by_cases hb : tableGet ft b = 0
  · have : freqBelow (mergeAll ft).1 (rootOf (mergeAll ft).2) b = 0 := by
      unfold freqBelow
      rw [if_neg]
      rintro ⟨q, hq⟩
      exact (leaf_iff_present _ b).mp (ht.leaf_of_leadsTo hq) hb
    rw [this, hb]; simp
  · have hl := hp b hb
    rw [pathLength_eq ht hl]
    unfold freqBelow
    rw [if_pos ⟨_, hl⟩]
    refine congrArg (· * (path b).length) ?_
    unfold freqAt
    rw [mergeAll_leaf, leafSlot_freq]

/-- In the tree BUILD leaves the paths weigh in all no more than any prefix code does (R89). -/
theorem paths_least (ft : SymTable Word64) (hsum : tableSum ft < 2 ^ 64) {path c : Byte → List Bool}
    (hne : presentSymbols ft ≠ [])
    (hp : ∀ b, tableGet ft b ≠ 0 → leadsTo (mergeAll ft).1 (rootOf (mergeAll ft).2) (path b) b)
    (hc : ∀ b u, b ≠ u → tableGet ft b ≠ 0 → tableGet ft u ≠ 0 → ¬c b <+: c u) :
    (allSymbols.map fun b => (tableGet ft b).toNat * (path b).length).sum ≤
      (allSymbols.map fun b => (tableGet ft b).toNat * (c b).length).sum := by
  rw [sum_paths ft hsum hne hp]
  refine (subCost_mergeAll_least ft hsum hne
    (d := ((presentSymbols ft).map fun b => (c b).length).sum)
    (l := (presentSymbols ft).map fun b => ((tableGet ft b).toNat, (c b).length)) ?_ ?_).trans ?_
  · have e : ((presentSymbols ft).map fun b => ((tableGet ft b).toNat, (c b).length)).map Prod.snd =
        ((presentSymbols ft).map c).map List.length := by simp [Function.comp_def]
    rw [e]
    refine kraft_of_prefixFree _ _ ?_ fun x hx => ?_
    · rw [List.pairwise_map]
      refine (presentSymbols_nodup ft).imp_of_mem fun {b u} hb hu hbu => ?_
      rw [mem_presentSymbols] at hb hu
      exact ⟨hc b u hbu hb hu, hc u b (Ne.symm hbu) hu hb⟩
    · obtain ⟨b, hb, rfl⟩ := List.mem_map.mp hx
      exact List.le_sum_of_mem (List.mem_map.mpr ⟨b, hb, rfl⟩)
  · have e : (initialLive ft).map (freqAt (leafTable ft)) =
        (presentSymbols ft).map fun b => (tableGet ft b).toNat := by
      unfold initialLive
      rw [List.map_map]
      refine List.map_congr_left fun b _ => ?_
      simp only [Function.comp_apply, freqAt]
      rw [nodeAt_leafTable_low ft b.isLt, ofNat_toNat_byte, leafSlot_freq]
    rw [e, List.map_map]
    exact .refl _
  · unfold weighted presentSymbols
    rw [List.map_map]
    refine le_of_eq (sum_filter_ne_zero allSymbols
      (fun b => (tableGet ft b).toNat * (c b).length) _ fun b _ hb => ?_)
    simp only [ne_eq, decide_not, Bool.not_eq_false', decide_eq_true_eq] at hb
    simp [hb]

end BySymbol

end Sys2Proof.Machine
end

