-- ==== Sys2Proof/Laws/State.lean ====
section
/-!
SUPPORT. One lemma for each field and each update of the architectural state.
-/

namespace Sys2Proof.Machine

section Updates
variable (a : Arch) (c : Byte) (k : ErrorKind) (n : Nat) (i : Instr)

@[simp] theorem recordError_ibuf : (recordError c k n a).ibuf = a.ibuf := rfl
@[simp] theorem recordError_ilen : (recordError c k n a).ilen = a.ilen := rfl
@[simp] theorem recordError_ft : (recordError c k n a).ft = a.ft := rfl
@[simp] theorem recordError_ocnt : (recordError c k n a).ocnt = a.ocnt := rfl
@[simp] theorem recordError_node : (recordError c k n a).node = a.node := rfl
@[simp] theorem recordError_root : (recordError c k n a).root = a.root := rfl
@[simp] theorem recordError_nleaf : (recordError c k n a).nleaf = a.nleaf := rfl
@[simp] theorem recordError_clen : (recordError c k n a).clen = a.clen := rfl
@[simp] theorem recordError_code : (recordError c k n a).code = a.code := rfl
@[simp] theorem recordError_pbuf : (recordError c k n a).pbuf = a.pbuf := rfl
@[simp] theorem recordError_plen : (recordError c k n a).plen = a.plen := rfl
@[simp] theorem recordError_nbits : (recordError c k n a).nbits = a.nbits := rfl
@[simp] theorem recordError_obuf : (recordError c k n a).obuf = a.obuf := rfl
@[simp] theorem recordError_olen : (recordError c k n a).olen = a.olen := rfl
@[simp] theorem recordError_ibufCap : (recordError c k n a).ibufCap = a.ibufCap := rfl
@[simp] theorem recordError_pbufCap : (recordError c k n a).pbufCap = a.pbufCap := rfl
@[simp] theorem recordError_obufCap : (recordError c k n a).obufCap = a.obufCap := rfl
@[simp] theorem recordError_seed : (recordError c k n a).seed = a.seed := rfl
@[simp] theorem recordError_status : (recordError c k n a).status = 2 := rfl
@[simp] theorem recordError_errcode : (recordError c k n a).errcode = k.errcode := rfl
@[simp] theorem recordError_errinfo : (recordError c k n a).errinfo = BitVec.ofNat 64 n := rfl
@[simp] theorem recordError_errcmd : (recordError c k n a).errcmd = c := rfl
@[simp] theorem recordError_err : (recordError c k n a).err = true := by
  unfold Arch.err; rw [recordError_status]; decide
@[simp] theorem recordError_done : (recordError c k n a).done = false := by
  unfold Arch.done; rw [recordError_status]; decide

@[simp] theorem acknowledgeError_ibuf : (acknowledgeError a).ibuf = a.ibuf := rfl
@[simp] theorem acknowledgeError_ilen : (acknowledgeError a).ilen = a.ilen := rfl
@[simp] theorem acknowledgeError_ft : (acknowledgeError a).ft = a.ft := rfl
@[simp] theorem acknowledgeError_ocnt : (acknowledgeError a).ocnt = a.ocnt := rfl
@[simp] theorem acknowledgeError_node : (acknowledgeError a).node = a.node := rfl
@[simp] theorem acknowledgeError_root : (acknowledgeError a).root = a.root := rfl
@[simp] theorem acknowledgeError_nleaf : (acknowledgeError a).nleaf = a.nleaf := rfl
@[simp] theorem acknowledgeError_clen : (acknowledgeError a).clen = a.clen := rfl
@[simp] theorem acknowledgeError_code : (acknowledgeError a).code = a.code := rfl
@[simp] theorem acknowledgeError_pbuf : (acknowledgeError a).pbuf = a.pbuf := rfl
@[simp] theorem acknowledgeError_plen : (acknowledgeError a).plen = a.plen := rfl
@[simp] theorem acknowledgeError_nbits : (acknowledgeError a).nbits = a.nbits := rfl
@[simp] theorem acknowledgeError_obuf : (acknowledgeError a).obuf = a.obuf := rfl
@[simp] theorem acknowledgeError_olen : (acknowledgeError a).olen = a.olen := rfl
@[simp] theorem acknowledgeError_ibufCap : (acknowledgeError a).ibufCap = a.ibufCap := rfl
@[simp] theorem acknowledgeError_pbufCap : (acknowledgeError a).pbufCap = a.pbufCap := rfl
@[simp] theorem acknowledgeError_obufCap : (acknowledgeError a).obufCap = a.obufCap := rfl
@[simp] theorem acknowledgeError_seed : (acknowledgeError a).seed = a.seed := rfl
@[simp] theorem acknowledgeError_errcmd : (acknowledgeError a).errcmd = 0 := rfl
@[simp] theorem acknowledgeError_errcode : (acknowledgeError a).errcode = 0 := rfl
@[simp] theorem acknowledgeError_errinfo : (acknowledgeError a).errinfo = 0 := rfl
@[simp] theorem acknowledgeError_status : (acknowledgeError a).status = 0 := rfl

@[simp] theorem complete_ibuf : (complete a).ibuf = a.ibuf := by unfold complete; split <;> rfl
@[simp] theorem complete_ilen : (complete a).ilen = a.ilen := by unfold complete; split <;> rfl
@[simp] theorem complete_ft : (complete a).ft = a.ft := by unfold complete; split <;> rfl
@[simp] theorem complete_ocnt : (complete a).ocnt = a.ocnt := by unfold complete; split <;> rfl
@[simp] theorem complete_node : (complete a).node = a.node := by unfold complete; split <;> rfl
@[simp] theorem complete_root : (complete a).root = a.root := by unfold complete; split <;> rfl
@[simp] theorem complete_nleaf : (complete a).nleaf = a.nleaf := by unfold complete; split <;> rfl
@[simp] theorem complete_clen : (complete a).clen = a.clen := by unfold complete; split <;> rfl
@[simp] theorem complete_code : (complete a).code = a.code := by unfold complete; split <;> rfl
@[simp] theorem complete_pbuf : (complete a).pbuf = a.pbuf := by unfold complete; split <;> rfl
@[simp] theorem complete_plen : (complete a).plen = a.plen := by unfold complete; split <;> rfl
@[simp] theorem complete_nbits : (complete a).nbits = a.nbits := by unfold complete; split <;> rfl
@[simp] theorem complete_obuf : (complete a).obuf = a.obuf := by unfold complete; split <;> rfl
@[simp] theorem complete_olen : (complete a).olen = a.olen := by unfold complete; split <;> rfl
@[simp] theorem complete_errcode : (complete a).errcode = a.errcode := by unfold complete; split <;> rfl
@[simp] theorem complete_errinfo : (complete a).errinfo = a.errinfo := by unfold complete; split <;> rfl
@[simp] theorem complete_errcmd : (complete a).errcmd = a.errcmd := by unfold complete; split <;> rfl
@[simp] theorem complete_ibufCap : (complete a).ibufCap = a.ibufCap := by unfold complete; split <;> rfl
@[simp] theorem complete_pbufCap : (complete a).pbufCap = a.pbufCap := by unfold complete; split <;> rfl
@[simp] theorem complete_obufCap : (complete a).obufCap = a.obufCap := by unfold complete; split <;> rfl
@[simp] theorem complete_seed : (complete a).seed = a.seed := by unfold complete; split <;> rfl

theorem complete_of_err {a : Arch} (h : a.err = true) : complete a = a := by simp [complete, h]

theorem complete_of_ok {a : Arch} (h : a.err = false) :
    complete a = { a with status := statusWithDone a.status } := by simp [complete, h]

theorem statusWithDone_of_ok {a : Arch} (h : a.err = false) : statusWithDone a.status = 1 := by
  have key : ∀ st : BitVec 2, st.getLsbD 1 = false → statusWithDone st = 1 := by decide
  exact key _ h

/-- A command that raised nothing ends with `DONE = 1`, `ERR = 0` (R157). -/
theorem complete_status_of_ok {a : Arch} (h : a.err = false) : (complete a).status = 1 := by
  rw [complete_of_ok h]; exact statusWithDone_of_ok h

@[simp] theorem complete_err : (complete a).err = a.err := by
  by_cases h : a.err = true
  · rw [complete_of_err h]
  · have h' : a.err = false := by simpa using h
    unfold Arch.err at h' ⊢
    rw [complete_status_of_ok h']
    exact h'.symm

@[simp] theorem clearDestinations_ibuf : (clearDestinations i a).ibuf = a.ibuf := by cases i <;> rfl
@[simp] theorem clearDestinations_ilen : (clearDestinations i a).ilen = a.ilen := by cases i <;> rfl
@[simp] theorem clearDestinations_node : (clearDestinations i a).node = a.node := by cases i <;> rfl
@[simp] theorem clearDestinations_root : (clearDestinations i a).root = a.root := by cases i <;> rfl
@[simp] theorem clearDestinations_nleaf : (clearDestinations i a).nleaf = a.nleaf := by cases i <;> rfl
@[simp] theorem clearDestinations_clen : (clearDestinations i a).clen = a.clen := by cases i <;> rfl
@[simp] theorem clearDestinations_code : (clearDestinations i a).code = a.code := by cases i <;> rfl
@[simp] theorem clearDestinations_pbuf : (clearDestinations i a).pbuf = a.pbuf := by cases i <;> rfl
@[simp] theorem clearDestinations_obuf : (clearDestinations i a).obuf = a.obuf := by cases i <;> rfl
@[simp] theorem clearDestinations_status : (clearDestinations i a).status = a.status := by cases i <;> rfl
@[simp] theorem clearDestinations_errcode : (clearDestinations i a).errcode = a.errcode := by cases i <;> rfl
@[simp] theorem clearDestinations_errinfo : (clearDestinations i a).errinfo = a.errinfo := by cases i <;> rfl
@[simp] theorem clearDestinations_errcmd : (clearDestinations i a).errcmd = a.errcmd := by cases i <;> rfl
@[simp] theorem clearDestinations_ibufCap : (clearDestinations i a).ibufCap = a.ibufCap := by cases i <;> rfl
@[simp] theorem clearDestinations_pbufCap : (clearDestinations i a).pbufCap = a.pbufCap := by cases i <;> rfl
@[simp] theorem clearDestinations_obufCap : (clearDestinations i a).obufCap = a.obufCap := by cases i <;> rfl
@[simp] theorem clearDestinations_seed : (clearDestinations i a).seed = a.seed := by cases i <;> rfl

end Updates

end Sys2Proof.Machine
end

