-- ==== Sys2Proof/Laws/Ops.lean ====
section
/-!
SUPPORT. What each shared operation can do, said once: issuing a command, a run of stages, one step.
-/

namespace Sys2Proof.Machine

theorem issue_of_err {f : Arch → Arch} {s : State} (h : s.err = true) : issue f s = .next s := by
  simp [issue, h]

theorem issue_of_ok {f : Arch → Arch} {s : State} (h : s.err = false) :
    issue f s = .next { s with toArch := complete (f s.toArch), epoch := s.epoch + 1 } := by
  simp [issue, h]

theorem issueReserved_of_err {op : Byte} {s : State} (h : s.err = true) :
    issueReserved op s = .next s := by
  simp [issueReserved, h]

theorem issueReserved_of_ok {op : Byte} {s : State} (h : s.err = false) : issueReserved op s =
    .next { s with toArch := recordError op .illegalCommand op.toNat s.toArch } := by
  simp [issueReserved, h]

/-- The body of each command. -/
def bodyOf : Instr → Arch → Arch
  | .clear => stageClear
  | .count => stageCount
  | .build => stageBuild
  | .codes => stageCodes
  | .pack => stagePack
  | .serialize => stageSerialize
  | .deserialize => stageDeserialize
  | .decode => stageDecode
  | .compress => runStages compressStages
  | .decompress => runStages decompressStages

/-- The architectural state a command leaves when it executes. -/
def resultOf (i : Instr) (a : Arch) : Arch :=
  if i = .clear then stageClear a else complete (bodyOf i a)

theorem resultOf_clear (a : Arch) : resultOf .clear a = stageClear a := rfl

theorem resultOf_of_ne {i : Instr} (h : i ≠ .clear) (a : Arch) :
    resultOf i a = complete (bodyOf i a) := by simp [resultOf, h]

/-- While `ERR = 1` every command but CLEAR leaves the state as it is (R160). -/
theorem exec_of_err {i : Instr} {s : State} (h : s.err = true) (hi : i ≠ .clear) :
    exec i s = .next s := by
  cases i <;> first | exact absurd rfl hi | exact issue_of_err h

/-- A command that executes leaves `resultOf` and advances the epoch. -/
theorem exec_of_ok {i : Instr} {s : State} (h : s.err = false ∨ i = .clear) :
    exec i s = .next { s with toArch := resultOf i s.toArch, epoch := s.epoch + 1 } := by
  cases i with
  | clear => rfl
  | _ => exact issue_of_ok (h.resolve_right (by decide))

/-- A command other than CLEAR that executes leaves what its body leaves, completed (R157). -/
theorem exec_of_ok_ne {i : Instr} {s : State} (h : s.err = false) (hi : i ≠ .clear) :
    exec i s = .next { s with toArch := complete (bodyOf i s.toArch), epoch := s.epoch + 1 } := by
  rw [exec_of_ok (.inl h), resultOf_of_ne hi]

/-- All that `exec` can answer. -/
theorem exec_cases {i : Instr} {s t : State} (h : exec i s = .next t) :
    (t = s ∧ s.err = true ∧ i ≠ .clear) ∨
    (t = { s with toArch := resultOf i s.toArch, epoch := s.epoch + 1 } ∧
      (s.err = false ∨ i = .clear)) := by
  by_cases hs : s.err = false ∨ i = .clear
  · rw [exec_of_ok hs] at h
    exact .inr ⟨(Host.Outcome.next.inj h).symm, hs⟩
  · simp only [not_or, Bool.not_eq_false] at hs
    rw [exec_of_err hs.1 hs.2] at h
    exact .inl ⟨(Host.Outcome.next.inj h).symm, hs⟩

@[simp] theorem runStages_nil (a : Arch) : runStages [] a = a := rfl

theorem runStages_of_err {f : Arch → Arch} {fs : List (Arch → Arch)} {a : Arch}
    (h : (f a).err = true) : runStages (f :: fs) a = f a := by simp [runStages, h]

theorem runStages_of_ok {f : Arch → Arch} {fs : List (Arch → Arch)} {a : Arch}
    (h : (f a).err = false) : runStages (f :: fs) a = runStages fs (f a) := by simp [runStages, h]

/-- What every stage keeps, a run of stages keeps. -/
theorem runStages_keeps {P : Arch → Prop} {fs : List (Arch → Arch)}
    (h : ∀ f ∈ fs, ∀ a, P a → P (f a)) {a : Arch} (ha : P a) : P (runStages fs a) := by
  induction fs generalizing a with
  | nil => exact ha
  | cons f fs ih =>
    have hf : P (f a) := h f (by simp) a ha
    by_cases he : (f a).err = true
    · rw [runStages_of_err he]; exact hf
    · rw [runStages_of_ok (by simpa using he)]
      exact ih (fun g hg => h g (by simp [hg])) hf

/-- What one step can do to the architectural state. -/
inductive ArchStep (a : Arch) : Arch → Prop
  | same : ArchStep a a
  | ilen (v : Word64) : ArchStep a { a with ilen := v }
  | ibuf (i : Nat) (v : Byte) (h : i < a.ibufCap.toNat) :
      ArchStep a { a with ibuf := Memory.put a.ibuf i v }
  | command (i : Instr) (h : a.err = false ∨ i = .clear) : ArchStep a (resultOf i a)
  | reserved (op : Byte) (h : a.err = false) :
      ArchStep a (recordError op .illegalCommand op.toNat a)
  | reset (seed : Nat) : ArchStep a (Arch.reset ⟨a.ibufCap, a.pbufCap, a.obufCap⟩ seed)

theorem archStep_exec {i : Instr} {s t : State} (h : exec i s = .next t) :
    ArchStep s.toArch t.toArch := by
  rcases exec_cases h with ⟨rfl, -⟩ | ⟨rfl, hs⟩
  · exact .same
  · exact .command i hs

theorem archStep_issueCommand {op : Byte} {s t : State} (h : issueCommand op s = .next t) :
    ArchStep s.toArch t.toArch := by
  unfold issueCommand at h
  split at h
  · exact archStep_exec h
  · rename_i b _
    by_cases hs : s.err = true
    · rw [issueReserved_of_err hs] at h
      cases h; exact .same
    · have hs' : s.err = false := by simpa using hs
      rw [issueReserved_of_ok hs'] at h
      cases h; exact .reserved b hs'

theorem accessWellFormed_iff (a : Arch) (id : SpaceId) (i : Nat) :
    accessWellFormed a id i = true ↔ ∃ sp, spaceOf id = some sp ∧ i < a.spaceSize sp := by
  unfold accessWellFormed
  cases h : spaceOf id <;> simp

theorem hostRead_arch (id : SpaceId) (i : Nat) (s : State) :
    (hostRead id i s).toArch = s.toArch := by
  unfold hostRead; split <;> rfl

theorem archStep_hostWrite {id : SpaceId} {i : Nat} {v : Word64} {s t : State}
    (h : hostWrite id i v s = .next t) : ArchStep s.toArch t.toArch := by
  unfold hostWrite at h
  split at h
  · rename_i sp hw hsp
    obtain ⟨sp', hsp', hi⟩ := (accessWellFormed_iff _ _ _).mp hw
    obtain rfl : sp' = sp := by rw [hsp] at hsp'; exact (Option.some.inj hsp').symm
    cases sp' with
    | reg =>
      simp only [writeLocation] at h
      split at h
      · exact archStep_issueCommand (s := { s with reply := .ack }) h
      all_goals first | (cases h; exact .ilen v) | (cases h; exact .same)
    | ibuf => cases h; exact .ibuf i _ hi
    | _ => cases h; exact .same
  · cases h; exact .same

/-- All that a step can do to the architectural state. -/
theorem archStep_step {s t : State} (h : step s = .next t) : ArchStep s.toArch t.toArch := by
  unfold step nextAccess at h
  split at h
  · cases h; exact .same
  · rename_i h1 rest hp
    cases h1 with
    | read id i =>
      simp only [perform] at h
      cases h
      rw [hostRead_arch]; exact .same
    | write id i v => exact archStep_hostWrite (s := { s with pending := rest }) h
    | reset => cases h; exact .reset _

/-- An invariant kept by each thing a step can do is kept by every step. -/
theorem step_keeps {P : Arch → Prop} (h : ∀ a b, ArchStep a b → P a → P b) {s t : State}
    (hst : step s = .next t) (hs : P s.toArch) : P t.toArch :=
  h _ _ (archStep_step hst) hs

end Sys2Proof.Machine
end

