-- ==== Sys2Proof/Laws/Port.lean ====
section
/-!
SUPPORT. What one step does, by the access it takes: a command, a read, a write, an access error, a reset.
-/

namespace Sys2Proof.Machine

section Step
variable {s : State} {rest : List HostAccess}

theorem step_idle (h : s.pending = []) : step s = .next s := by
  unfold step nextAccess; rw [h]

theorem step_read {id : SpaceId} {k : Nat} (h : s.pending = .read id k :: rest) :
    step s = .next (hostRead id k { s with pending := rest }) := by
  unfold step nextAccess; rw [h]; rfl

theorem step_write {id : SpaceId} {k : Nat} {v : Word64} (h : s.pending = .write id k v :: rest) :
    step s = hostWrite id k v { s with pending := rest } := by
  unfold step nextAccess; rw [h]; rfl

theorem step_reset (h : s.pending = .reset :: rest) :
    step s = .next (hostReset { s with pending := rest }) := by
  unfold step nextAccess; rw [h]; rfl

/-- A write to `CMD` issues the command of its low eight bits (R63). -/
theorem step_command {v : Word64} (h : s.pending = .write 0 0 v :: rest) :
    step s = issueCommand (v.setWidth 8) { s with pending := rest, reply := .ack } := by
  rw [step_write h]; rfl

end Step

theorem hostRead_of_wf {s : State} {id : SpaceId} {k : Nat} {sp : Space} (h : spaceOf id = some sp)
    (hk : k < s.spaceSize sp) :
    hostRead id k s = { s with reply := .data (readLocation s sp k) } := by
  have hw : accessWellFormed s.toArch id k = true := (accessWellFormed_iff _ _ _).mpr ⟨sp, h, hk⟩
  unfold hostRead
  rw [hw, h]

theorem hostWrite_of_wf {s : State} {id : SpaceId} {k : Nat} {v : Word64} {sp : Space}
    (h : spaceOf id = some sp) (hk : k < s.spaceSize sp) :
    hostWrite id k v s = writeLocation sp k v { s with reply := .ack } := by
  have hw : accessWellFormed s.toArch id k = true := (accessWellFormed_iff _ _ _).mpr ⟨sp, h, hk⟩
  unfold hostWrite
  rw [hw, h]

theorem hostRead_of_error {s : State} {id : SpaceId} {k : Nat}
    (h : accessWellFormed s.toArch id k = false) : hostRead id k s = { s with
      reply := .accessError (some (accessErrorData s.errorReads (spaceOf id)))
      errorReads := s.errorReads + 1 } := by
  unfold hostRead
  rw [h]

theorem hostWrite_of_error {s : State} {id : SpaceId} {k : Nat} {v : Word64}
    (h : accessWellFormed s.toArch id k = false) :
    hostWrite id k v s = .next { s with reply := .accessError none } := by
  unfold hostWrite
  rw [h]

/-- What a read gives depends on the architectural state and the epoch alone (R53). -/
theorem readLocation_congr {s t : State} (h1 : s.toArch = t.toArch) (h2 : s.epoch = t.epoch)
    (sp : Space) (k : Nat) : readLocation s sp k = readLocation t sp k := by
  cases s; cases t; cases h1; cases h2; cases sp <;> rfl

/-- The step of a read in range (R50). -/
theorem step_read_of_wf {s : State} {rest : List HostAccess} {id : SpaceId} {k : Nat} {sp : Space}
    (h : s.pending = .read id k :: rest) (hsp : spaceOf id = some sp) (hk : k < s.spaceSize sp) :
    step s = .next { s with pending := rest, reply := .data (readLocation s sp k) } := by
  have e : readLocation { s with pending := rest } sp k = readLocation s sp k :=
    readLocation_congr rfl rfl sp k
  rw [step_read h, hostRead_of_wf (s := { s with pending := rest }) hsp hk, e]

/-- The step of a write in range (R57). -/
theorem step_write_of_wf {s : State} {rest : List HostAccess} {id : SpaceId} {k : Nat} {v : Word64}
    {sp : Space} (h : s.pending = .write id k v :: rest) (hsp : spaceOf id = some sp)
    (hk : k < s.spaceSize sp) :
    step s = writeLocation sp k v { s with pending := rest, reply := .ack } := by
  rw [step_write h, hostWrite_of_wf (s := { s with pending := rest }) hsp hk]

/-- What a host read keeps: everything but the reply and the count of access errors. -/
theorem hostRead_keeps (id : SpaceId) (k : Nat) (s : State) :
    (hostRead id k s).toArch = s.toArch ∧ (hostRead id k s).pending = s.pending ∧
      (hostRead id k s).epoch = s.epoch := by
  unfold hostRead; split <;> exact ⟨rfl, rfl, rfl⟩

theorem decodeByte_encode (i : Instr) : decodeByte (encode i) = .command i := by cases i <;> rfl

/-- The decoder against the encoder, over all 256 bytes. -/
theorem encode_of_decodeByte {op : Byte} {i : Instr} (h : decodeByte op = .command i) :
    encode i = op := by
  have key : ∀ op : Byte, (match decodeByte op with
      | .command i => encode i == op
      | .reserved b => b == op) = true := by decide
  have := key op
  rw [h] at this
  simpa using this

theorem reserved_of_decodeByte {op b : Byte} (h : decodeByte op = .reserved b) : b = op := by
  have key : ∀ op : Byte, (match decodeByte op with
      | .command i => encode i == op
      | .reserved b => b == op) = true := by decide
  have := key op
  rw [h] at this
  simpa using this

end Sys2Proof.Machine
end

