-- ==== Sys2Proof/Laws/Walk.lean ====
section
/-!
SUPPORT. Laws of the walk of DECODE: along a path to a leaf it emits that leaf's symbol, it emits as many symbols
as are wanted, it never reads past them, and in a well-formed tree it meets no bad link.
-/

namespace Sys2Proof.Machine

section Walk
variable {t : NodeTable} {root : NodeIndex}

theorem walk_zero (bits : List Bool) (cur : NodeIndex) (n : Nat) :
    walk t root bits cur n 0 = .emitted [] := by
  cases bits <;> rfl

theorem walk_nil (cur : NodeIndex) (n want : Nat) :
    walk t root [] cur n (want + 1) = .truncated n := rfl

theorem walk_cons (b : Bool) (bits : List Bool) (cur : NodeIndex) (n want : Nat) :
    walk t root (b :: bits) cur n (want + 1) =
      if childOf t cur b = Config.nil ∨ (nodeAt t (childOf t cur b).toNat).kind = .free then
        .badLink n
      else if (nodeAt t (childOf t cur b).toNat).kind = .leaf then
        (walk t root bits root (n + 1) want).emit (nodeAt t (childOf t cur b).toNat).sym
      else walk t root bits (childOf t cur b) n (want + 1) := rfl

theorem emit_eq_emitted {w : Walked} {s : Byte} {out : List Byte} (h : w.emit s = .emitted out) :
    ∃ out', w = .emitted out' ∧ out = s :: out' := by
  cases w with
  | emitted o => exact ⟨o, rfl, by simpa [Walked.emit] using h.symm⟩
  | truncated n => simp [Walked.emit] at h
  | badLink n => simp [Walked.emit] at h

theorem emit_eq_truncated {w : Walked} {s : Byte} {n : Nat} (h : w.emit s = .truncated n) :
    w = .truncated n := by
  cases w <;> simp_all [Walked.emit]

theorem emit_eq_badLink {w : Walked} {s : Byte} {n : Nat} (h : w.emit s = .badLink n) :
    w = .badLink n := by
  cases w <;> simp_all [Walked.emit]

/-- A walk that completes has emitted the symbols wanted (R113). -/
theorem walk_emitted_length {bits : List Bool} {cur : NodeIndex} {n want : Nat} {out : List Byte}
    (h : walk t root bits cur n want = .emitted out) : out.length = want := by
  induction bits generalizing cur n want out with
  | nil =>
    cases want with
    | zero => rw [walk_zero] at h; cases h; rfl
    | succ want => rw [walk_nil] at h; cases h
  | cons b bits ih =>
    cases want with
    | zero => rw [walk_zero] at h; cases h; rfl
    | succ want =>
      rw [walk_cons] at h
      split at h
      · cases h
      · split at h
        · obtain ⟨out', h1, rfl⟩ := emit_eq_emitted h
          rw [List.length_cons, ih h1]
        · exact ih h

/-- Bits after the last needed one are never read (R113). -/
theorem walk_append {bits extra : List Bool} {cur : NodeIndex} {n want : Nat} {out : List Byte}
    (h : walk t root bits cur n want = .emitted out) :
    walk t root (bits ++ extra) cur n want = .emitted out := by
  induction bits generalizing cur n want out with
  | nil =>
    cases want with
    | zero => rw [walk_zero] at h ⊢; exact h
    | succ want => rw [walk_nil] at h; cases h
  | cons b bits ih =>
    cases want with
    | zero => rw [walk_zero] at h ⊢; exact h
    | succ want =>
      rw [List.cons_append, walk_cons]
      rw [walk_cons] at h
      split at h
      · cases h
      · rename_i h1
        rw [if_neg h1]
        split at h
        · rename_i h2
          obtain ⟨out', h3, rfl⟩ := emit_eq_emitted h
          rw [if_pos h2, ih h3]; rfl
        · rename_i h2
          rw [if_neg h2]
          exact ih h

/-- The number a truncated walk reports: fewer symbols than wanted had been emitted (R114, R159). -/
theorem walk_truncated_bound {bits : List Bool} {cur : NodeIndex} {n want m : Nat}
    (h : walk t root bits cur n want = .truncated m) : n ≤ m ∧ m < n + want := by
  induction bits generalizing cur n want with
  | nil =>
    cases want with
    | zero => rw [walk_zero] at h; cases h
    | succ want => rw [walk_nil] at h; cases h; omega
  | cons b bits ih =>
    cases want with
    | zero => rw [walk_zero] at h; cases h
    | succ want =>
      rw [walk_cons] at h
      split at h
      · cases h
      · split at h
        · have := ih (emit_eq_truncated h); omega
        · exact ih h

variable {nleaf : NodeIndex}

/-- Below an internal slot the walk follows a path to a leaf and emits its symbol (R109). -/
theorem walk_path (h : TreeWf t root nleaf) {p : List Bool} {cur : NodeIndex} {s : Byte}
    (hk : (nodeAt t cur.toNat).kind = .inner) (hp : leadsTo t cur p s) (bits : List Bool)
    (n want : Nat) :
    walk t root (p ++ bits) cur n (want + 1) = (walk t root bits root (n + 1) want).emit s := by
  induction p generalizing cur with
  | nil =>
    have := hp.1
    rw [follow_nil_path, hk] at this; simp at this
  | cons b p ih =>
    have hp' : leadsTo t (childOf t cur b) p s := hp
    have hnode := (h.childOf_inner hk b).1
    rw [List.cons_append, walk_cons, if_neg (not_or.mpr ⟨nil_of_nil_kind hnode, hnode⟩)]
    cases p with
    | nil =>
      have h1 := hp'.1
      have h2 := hp'.2
      rw [follow_nil_path] at h1 h2
      rw [if_pos h1, h2]; rfl
    | cons c p =>
      have hin := h.inner_of_follow hp'.kind
      rw [if_neg (by rw [hin]; simp)]
      exact ih hin hp'

/-- The paths of a sequence of symbols walk back to that sequence (R118). -/
theorem walk_stream (h : TreeWf t root nleaf) (hk : (nodeAt t root.toNat).kind = .inner)
    {path : Byte → List Bool} (xs : List Byte) (hx : ∀ x ∈ xs, leadsTo t root (path x) x)
    (rest : List Bool) (n : Nat) :
    walk t root (xs.flatMap path ++ rest) root n xs.length = .emitted xs := by
  induction xs generalizing n with
  | nil => exact walk_zero _ _ _
  | cons x xs ih =>
    rw [List.flatMap_cons, List.append_assoc, List.length_cons,
      walk_path h hk (hx x (by simp)), ih fun y hy => hx y (by simp [hy])]
    rfl

/-- In a well-formed tree the walk meets no link to no node (R115). -/
theorem walk_no_badLink (h : TreeWf t root nleaf) (hr : (nodeAt t root.toNat).kind = .inner)
    {bits : List Bool} {cur : NodeIndex} (hk : (nodeAt t cur.toNat).kind = .inner) {n want m : Nat} :
    walk t root bits cur n want ≠ .badLink m := by
  induction bits generalizing cur n want with
  | nil =>
    cases want with
    | zero => rw [walk_zero]; simp
    | succ want => rw [walk_nil]; simp
  | cons b bits ih =>
    cases want with
    | zero => rw [walk_zero]; simp
    | succ want =>
      have hnode := (h.childOf_inner hk b).1
      rw [walk_cons, if_neg (not_or.mpr ⟨nil_of_nil_kind hnode, hnode⟩)]
      split
      · exact fun hb => ih hr (emit_eq_badLink hb)
      · rename_i hnl
        refine ih ?_
        cases hc : (nodeAt t (childOf t cur b).toNat).kind with
        | free => exact absurd hc hnode
        | leaf => exact absurd hc hnl
        | inner => rfl

/-- A walk over a proper part of one path stays inside the tree and runs out (R114). -/
theorem walk_inside (h : TreeWf t root nleaf) {r : List Bool} (hr : r ≠ []) {s : Byte}
    (bits : List Bool) (cur : NodeIndex) (hk : (nodeAt t cur.toNat).kind = .inner)
    (hl : leadsTo t cur (bits ++ r) s) (n want : Nat) :
    walk t root bits cur n (want + 1) = .truncated n := by
  induction bits generalizing cur with
  | nil => rfl
  | cons b bits ih =>
    have hnode := (h.childOf_inner hk b).1
    have hl' : leadsTo t (childOf t cur b) (bits ++ r) s := hl
    have hin : (nodeAt t (childOf t cur b).toNat).kind = .inner := by
      cases hbr : bits ++ r with
      | nil => exact absurd (List.append_eq_nil_iff.mp hbr).2 hr
      | cons c q => rw [hbr] at hl'; exact h.inner_of_follow hl'.kind
    rw [walk_cons, if_neg (not_or.mpr ⟨nil_of_nil_kind hnode, hnode⟩), if_neg (by rw [hin]; simp)]
    exact ih _ hin hl'

/-- Fewer bits than the wanted symbols need run out, and the number reported is that of the symbols whose paths
are whole (R114). -/
theorem walk_cut (h : TreeWf t root nleaf) (hk : (nodeAt t root.toNat).kind = .inner)
    {path : Byte → List Bool} (xs : List Byte) (hx : ∀ x ∈ xs, leadsTo t root (path x) x)
    {bits : List Bool} (hb : bits <+: xs.flatMap path) (hlt : bits.length < (xs.flatMap path).length)
    (n : Nat) : ∃ m, walk t root bits root n xs.length = .truncated (n + m) ∧ m < xs.length ∧
      ((xs.take m).flatMap path).length ≤ bits.length ∧
      bits.length < ((xs.take (m + 1)).flatMap path).length := by
  induction xs generalizing bits n with
  | nil => simp at hlt
  | cons x xs ih =>
    rw [List.flatMap_cons] at hb hlt
    by_cases hl : (path x).length ≤ bits.length
    · obtain ⟨r, rfl⟩ := List.prefix_of_prefix_length_le (List.prefix_append _ _) hb hl
      simp only [List.length_append] at hlt
      obtain ⟨m, h1, h2, h3, h4⟩ := ih (fun y hy => hx y (by simp [hy]))
        ((List.prefix_append_right_inj _).mp hb) (by omega) (n + 1)
      refine ⟨m + 1, ?_, by simpa using h2, ?_, ?_⟩
      · rw [List.length_cons, walk_path h hk (hx x (by simp)), h1]
        simp only [Walked.emit]
        congr 1
        omega
      · simp only [List.take_succ_cons, List.flatMap_cons, List.length_append]; omega
      · simp only [List.take_succ_cons, List.flatMap_cons, List.length_append] at h4 ⊢; omega
    · have hp : bits <+: path x :=
        List.prefix_of_prefix_length_le hb (List.prefix_append _ _) (by omega)
      obtain ⟨r, hr⟩ := hp
      have hne : r ≠ [] := by
        rintro rfl
        rw [List.append_nil] at hr
        rw [hr] at hl; omega
      refine ⟨0, ?_, by simp, by simp, by simp; omega⟩
      rw [List.length_cons, Nat.add_zero]
      exact walk_inside h hne bits root hk (by rw [hr]; exact hx x (by simp)) n _

end Walk

end Sys2Proof.Machine
end

