-- ==== Sys2Proof/Laws/Stages.lean ====
section
/-!
SUPPORT. Each command's body by cases: which error it raises and when, and what it leaves otherwise.
-/

namespace Sys2Proof.Machine

section Raise
variable (i : Instr) (k : ErrorKind) (n : Nat) (a : Arch)

@[simp] theorem raiseError_err : (raiseError i k n a).err = true := recordError_err _ _ _ _

/-- What an error entry records (R158). -/
theorem raiseError_raised : (raiseError i k n a).raised (encode i) k n :=
  ⟨recordError_status _ _ _ _, rfl, rfl, rfl⟩

@[simp] theorem complete_raiseError : complete (raiseError i k n a) = raiseError i k n a :=
  complete_of_err (raiseError_err i k n a)

end Raise

/-- A body that keeps the error registers and raises nothing completes (R157). -/
theorem completesFrom_complete {a b : Arch} (h : b.err = false) (h1 : b.errcode = a.errcode)
    (h2 : b.errinfo = a.errinfo) (h3 : b.errcmd = a.errcmd) : completesFrom (complete b) a :=
  ⟨complete_status_of_ok h, by simpa using h1, by simpa using h2, by simpa using h3⟩

theorem err_of_status {a : Arch} (h : a.status = 1) : a.err = false := by
  unfold Arch.err; rw [h]; decide

theorem err_of_raised {a : Arch} {c : Byte} {k : ErrorKind} {n : Nat} (h : a.raised c k n) :
    a.err = true := by
  unfold Arch.err; rw [h.1]; decide

/-- Another value of `STATUS`. -/
def withStatus (a : Arch) (st : BitVec 2) : Arch := { a with status := st }

theorem complete_eq {a : Arch} (h : a.err = false) : complete a = withStatus a 1 := by
  rw [complete_of_ok h, statusWithDone_of_ok h]; rfl

section Bodies
variable {a : Arch}

theorem stageCount_of_gt (h : a.ibufCap.toNat < a.ilen.toNat) :
    stageCount a = raiseError .count .capacity a.ilen.toNat a := if_pos h

theorem stageCount_of_le (h : a.ilen.toNat ≤ a.ibufCap.toNat) :
    stageCount a = { a with ft := tally a.input emptyTable, ocnt := a.ilen } :=
  if_neg (by omega)

@[simp] theorem stageClear_err : (stageClear a).err = false := by
  have h : (stageClear a).status = 0 := rfl
  unfold Arch.err; rw [h]; decide
@[simp] theorem stageBuild_err : (stageBuild a).err = a.err := rfl
@[simp] theorem stageCodes_err : (stageCodes a).err = a.err := rfl

/-- The index found is the first without a code (R104). -/
theorem firstUncoded_eq_some {clen : SymTable Byte} {input : List Byte} {i : Nat} :
    firstUncoded clen input = some i ↔ ∃ b, input[i]? = some b ∧ tableGet clen b = 0 ∧
      ∀ j, j < i → ∀ b, input[j]? = some b → tableGet clen b ≠ 0 := by
  unfold firstUncoded
  rw [List.findIdx?_eq_some_iff_getElem]
  constructor
  · rintro ⟨hi, h1, h2⟩
    refine ⟨input[i], List.getElem?_eq_getElem hi, by simpa using h1, fun j hj b hb => ?_⟩
    have hjl : j < input.length := by omega
    rw [List.getElem?_eq_getElem hjl] at hb
    have h3 := h2 j hj
    rw [Option.some.inj hb] at h3
    simpa using h3
  · rintro ⟨b, h1, h2, h3⟩
    obtain ⟨hi, hb⟩ := List.getElem?_eq_some_iff.mp h1
    refine ⟨hi, by rw [hb]; simpa using h2, fun j hj => ?_⟩
    have hjl : j < input.length := by omega
    have := h3 j hj _ (List.getElem?_eq_getElem hjl)
    simpa using this

theorem firstUncoded_eq_none {clen : SymTable Byte} {input : List Byte} :
    firstUncoded clen input = none ↔ ∀ b ∈ input, tableGet clen b ≠ 0 := by
  unfold firstUncoded
  rw [List.findIdx?_eq_none_iff]
  simp

theorem stagePack_of_gt (h : a.ibufCap.toNat < a.ilen.toNat) :
    stagePack a = raiseError .pack .capacity a.ilen.toNat a := if_pos h

theorem stagePack_of_uncoded (h : a.ilen.toNat ≤ a.ibufCap.toNat) {i : Nat}
    (hi : firstUncoded a.clen a.input = some i) : stagePack a = raiseError .pack .noCode i a := by
  rw [stagePack, if_neg (by omega), hi]

theorem stagePack_of_full (h : a.ilen.toNat ≤ a.ibufCap.toNat)
    (hi : firstUncoded a.clen a.input = none)
    (hc : a.pbufCap.toNat < ceil8 a.bitStream.length) :
    stagePack a = raiseError .pack .capacity (ceil8 a.bitStream.length) a := by
  rw [stagePack, if_neg (by omega), hi]
  exact if_pos hc

theorem stagePack_of_ok (h : a.ilen.toNat ≤ a.ibufCap.toNat)
    (hi : firstUncoded a.clen a.input = none)
    (hc : ceil8 a.bitStream.length ≤ a.pbufCap.toNat) :
    stagePack a = { a with
      pbuf := Memory.write a.pbuf 0 (packBits (ceil8 a.bitStream.length) a.bitStream)
      plen := BitVec.ofNat 64 (ceil8 a.bitStream.length)
      nbits := BitVec.ofNat 64 a.bitStream.length } := by
  rw [stagePack, if_neg (by omega), hi]
  exact if_neg (by omega)

/-- All that PACK's body can do. -/
theorem stagePack_cases (a : Arch) :
    (a.ibufCap.toNat < a.ilen.toNat ∧ stagePack a = raiseError .pack .capacity a.ilen.toNat a) ∨
    (a.ilen.toNat ≤ a.ibufCap.toNat ∧ ∃ i, firstUncoded a.clen a.input = some i ∧
      stagePack a = raiseError .pack .noCode i a) ∨
    (a.ilen.toNat ≤ a.ibufCap.toNat ∧ firstUncoded a.clen a.input = none ∧
      a.pbufCap.toNat < ceil8 a.bitStream.length ∧
      stagePack a = raiseError .pack .capacity (ceil8 a.bitStream.length) a) ∨
    (a.ilen.toNat ≤ a.ibufCap.toNat ∧ firstUncoded a.clen a.input = none ∧
      ceil8 a.bitStream.length ≤ a.pbufCap.toNat ∧ stagePack a = { a with
        pbuf := Memory.write a.pbuf 0 (packBits (ceil8 a.bitStream.length) a.bitStream)
        plen := BitVec.ofNat 64 (ceil8 a.bitStream.length)
        nbits := BitVec.ofNat 64 a.bitStream.length }) := by
  by_cases h : a.ibufCap.toNat < a.ilen.toNat
  · exact .inl ⟨h, stagePack_of_gt h⟩
  · have h' : a.ilen.toNat ≤ a.ibufCap.toNat := by omega
    cases hi : firstUncoded a.clen a.input with
    | some i => exact .inr (.inl ⟨h', i, rfl, stagePack_of_uncoded h' hi⟩)
    | none =>
      by_cases hc : a.pbufCap.toNat < ceil8 a.bitStream.length
      · exact .inr (.inr (.inl ⟨h', rfl, hc, stagePack_of_full h' hi hc⟩))
      · have hc' : ceil8 a.bitStream.length ≤ a.pbufCap.toNat := by omega
        exact .inr (.inr (.inr ⟨h', rfl, hc', stagePack_of_ok h' hi hc'⟩))

theorem stageSerialize_of_gt (h : a.obufCap.toNat < a.blobSize) :
    stageSerialize a = raiseError .serialize .capacity a.blobSize a := if_pos h

theorem stageSerialize_of_le (h : a.blobSize ≤ a.obufCap.toNat) :
    stageSerialize a =
      { a with obuf := Memory.write a.obuf 0 a.blob, olen := BitVec.ofNat 64 a.blobSize } :=
  if_neg (by omega)

theorem stageDeserialize_of_gt (h : a.ibufCap.toNat < a.ilen.toNat) :
    stageDeserialize a = raiseError .deserialize .capacity a.ilen.toNat a := if_pos h

theorem stageDeserialize_of_rejected (h : a.ilen.toNat ≤ a.ibufCap.toNat) {c : Nat}
    (hp : parseMetadata a.ibufByte a.ilen.toNat = .rejected c) :
    stageDeserialize a = raiseError .deserialize .malformedContainer c a := by
  rw [stageDeserialize, if_neg (by omega), hp]

theorem stageDeserialize_of_full (h : a.ilen.toNat ≤ a.ibufCap.toNat) {m : Metadata}
    (hp : parseMetadata a.ibufByte a.ilen.toNat = .accepted m)
    (hc : a.pbufCap.toNat < a.ilen.toNat - m.offset) :
    stageDeserialize a = raiseError .deserialize .capacity (a.ilen.toNat - m.offset) a := by
  rw [stageDeserialize, if_neg (by omega), hp]
  exact if_pos hc

theorem stageDeserialize_of_ok (h : a.ilen.toNat ≤ a.ibufCap.toNat) {m : Metadata}
    (hp : parseMetadata a.ibufByte a.ilen.toNat = .accepted m)
    (hc : a.ilen.toNat - m.offset ≤ a.pbufCap.toNat) : stageDeserialize a = loadContainer m a := by
  rw [stageDeserialize, if_neg (by omega), hp]
  exact if_neg (by omega)

/-- All that DESERIALIZE's body can do. -/
theorem stageDeserialize_cases (a : Arch) :
    (a.ibufCap.toNat < a.ilen.toNat ∧
      stageDeserialize a = raiseError .deserialize .capacity a.ilen.toNat a) ∨
    (a.ilen.toNat ≤ a.ibufCap.toNat ∧ ∃ c, parseMetadata a.ibufByte a.ilen.toNat = .rejected c ∧
      stageDeserialize a = raiseError .deserialize .malformedContainer c a) ∨
    (a.ilen.toNat ≤ a.ibufCap.toNat ∧ ∃ m, parseMetadata a.ibufByte a.ilen.toNat = .accepted m ∧
      a.pbufCap.toNat < a.ilen.toNat - m.offset ∧
      stageDeserialize a = raiseError .deserialize .capacity (a.ilen.toNat - m.offset) a) ∨
    (a.ilen.toNat ≤ a.ibufCap.toNat ∧ ∃ m, parseMetadata a.ibufByte a.ilen.toNat = .accepted m ∧
      a.ilen.toNat - m.offset ≤ a.pbufCap.toNat ∧ stageDeserialize a = loadContainer m a) := by
  by_cases h : a.ibufCap.toNat < a.ilen.toNat
  · exact .inl ⟨h, stageDeserialize_of_gt h⟩
  · have h' : a.ilen.toNat ≤ a.ibufCap.toNat := by omega
    cases hp : parseMetadata a.ibufByte a.ilen.toNat with
    | rejected c => exact .inr (.inl ⟨h', c, rfl, stageDeserialize_of_rejected h' hp⟩)
    | accepted m =>
      by_cases hc : a.pbufCap.toNat < a.ilen.toNat - m.offset
      · exact .inr (.inr (.inl ⟨h', m, rfl, hc, stageDeserialize_of_full h' hp hc⟩))
      · have hc' : a.ilen.toNat - m.offset ≤ a.pbufCap.toNat := by omega
        exact .inr (.inr (.inr ⟨h', m, rfl, hc', stageDeserialize_of_ok h' hp hc'⟩))

theorem stageDecode_of_zero (h : a.ocnt = 0) : stageDecode a = { a with olen := 0 } := if_pos h

theorem stageDecode_of_gt (h : a.ocnt ≠ 0) (hc : a.obufCap.toNat < a.ocnt.toNat) :
    stageDecode a = raiseError .decode .capacity a.ocnt.toNat a := by
  rw [stageDecode, if_neg h]
  exact if_pos hc

theorem stageDecode_of_absent (h : a.ocnt ≠ 0) (hc : a.ocnt.toNat ≤ a.obufCap.toNat)
    (hr : a.root = Config.nil) : stageDecode a = raiseError .decode .malformedTree 0 a := by
  rw [stageDecode, if_neg h, if_neg (by omega), if_pos hr]

theorem stageDecode_of_leaf (h : a.ocnt ≠ 0) (hc : a.ocnt.toNat ≤ a.obufCap.toNat)
    (hr : a.root ≠ Config.nil) (hk : (nodeAt a.node a.root.toNat).kind = .leaf) :
    stageDecode a =
      storeDecoded (List.replicate a.ocnt.toNat (nodeAt a.node a.root.toNat).sym) a := by
  rw [stageDecode, if_neg h, if_neg (by omega), if_neg hr, if_pos hk]

/-- The walk DECODE takes. -/
def Arch.walked (a : Arch) : Walked :=
  walk a.node a.root (bitsOfBytes a.payload) a.root 0 a.ocnt.toNat

theorem stageDecode_of_walk (h : a.ocnt ≠ 0) (hc : a.ocnt.toNat ≤ a.obufCap.toNat)
    (hr : a.root ≠ Config.nil) (hk : (nodeAt a.node a.root.toNat).kind ≠ .leaf) :
    stageDecode a = match a.walked with
      | .emitted out => storeDecoded out a
      | .truncated n => raiseError .decode .truncatedStream n a
      | .badLink n => raiseError .decode .malformedTree n a := by
  rw [stageDecode, if_neg h, if_neg (by omega), if_neg hr, if_neg hk]
  rfl

/-- What DECODE emits or raises: the part of its body that does not store. -/
inductive DecodeResult where
  | stores (out : List Byte)
  | raises (kind : ErrorKind) (info : Nat)

/-- DECODE's outcome as a function of what it reads (R120). -/
def decodeResult (a : Arch) : DecodeResult :=
  if a.ocnt = 0 then .stores []
  else if a.ocnt.toNat > a.obufCap.toNat then .raises .capacity a.ocnt.toNat
  else if a.root = Config.nil then .raises .malformedTree 0
  else if (nodeAt a.node a.root.toNat).kind = .leaf then
    .stores (List.replicate a.ocnt.toNat (nodeAt a.node a.root.toNat).sym)
  else
    match a.walked with
    | .emitted out => .stores out
    | .truncated n => .raises .truncatedStream n
    | .badLink n => .raises .malformedTree n

/-- All that DECODE's body can do. -/
theorem stageDecode_cases (a : Arch) :
    (∃ out, decodeResult a = .stores out ∧ out.length = a.ocnt.toNat ∧
      (out ≠ [] → out.length ≤ a.obufCap.toNat) ∧ stageDecode a = storeDecoded out a) ∨
    (∃ k n, decodeResult a = .raises k n ∧ canRaise .decode k = true ∧
      stageDecode a = raiseError .decode k n a) := by
  unfold decodeResult
  by_cases h : a.ocnt = 0
  · left
    rw [if_pos h]
    refine ⟨[], rfl, by rw [h]; rfl, by simp, ?_⟩
    rw [stageDecode_of_zero h]
    unfold storeDecoded
    rw [h]; rfl
  · rw [if_neg h]
    by_cases hc : a.ocnt.toNat > a.obufCap.toNat
    · right
      rw [if_pos hc]
      exact ⟨_, _, rfl, rfl, stageDecode_of_gt h hc⟩
    · have hc' : a.ocnt.toNat ≤ a.obufCap.toNat := by omega
      rw [if_neg hc]
      by_cases hr : a.root = Config.nil
      · right
        rw [if_pos hr]
        exact ⟨_, _, rfl, rfl, stageDecode_of_absent h hc' hr⟩
      · rw [if_neg hr]
        by_cases hk : (nodeAt a.node a.root.toNat).kind = .leaf
        · left
          rw [if_pos hk]
          exact ⟨_, rfl, by simp, fun _ => by simpa using hc', stageDecode_of_leaf h hc' hr hk⟩
        · rw [if_neg hk]
          have hst := stageDecode_of_walk h hc' hr hk
          cases hw : a.walked with
          | emitted out =>
            left
            rw [hw] at hst
            have hl : out.length = a.ocnt.toNat := walk_emitted_length hw
            exact ⟨out, rfl, hl, fun _ => by omega, hst⟩
          | truncated n => right; rw [hw] at hst; exact ⟨_, _, rfl, rfl, hst⟩
          | badLink n => right; rw [hw] at hst; exact ⟨_, _, rfl, rfl, hst⟩

end Bodies

/-- Everything a body can leave of what it does not write, and how it raises: any unit command's body either
raises one of its errors with its destinations cleared, or keeps the status registers. -/
theorem body_cases {i : Instr} (h1 : i ≠ .clear) (h2 : i ≠ .compress) (h3 : i ≠ .decompress)
    (a : Arch) : (∃ k n, canRaise i k = true ∧ bodyOf i a = raiseError i k n a) ∨
      ((bodyOf i a).status = a.status ∧ (bodyOf i a).errcode = a.errcode ∧
        (bodyOf i a).errinfo = a.errinfo ∧ (bodyOf i a).errcmd = a.errcmd) := by
  cases i with
  | clear => exact absurd rfl h1
  | compress => exact absurd rfl h2
  | decompress => exact absurd rfl h3
  | count =>
    by_cases h : a.ibufCap.toNat < a.ilen.toNat
    · exact .inl ⟨_, _, rfl, stageCount_of_gt h⟩
    · right
      simp only [bodyOf]
      rw [stageCount_of_le (by omega)]
      exact ⟨rfl, rfl, rfl, rfl⟩
  | build => exact .inr ⟨rfl, rfl, rfl, rfl⟩
  | codes => exact .inr ⟨rfl, rfl, rfl, rfl⟩
  | pack =>
    simp only [bodyOf]
    rcases stagePack_cases a with ⟨-, e⟩ | ⟨-, i, -, e⟩ | ⟨-, -, -, e⟩ | ⟨-, -, -, e⟩
    · exact .inl ⟨_, _, rfl, e⟩
    · exact .inl ⟨_, _, rfl, e⟩
    · exact .inl ⟨_, _, rfl, e⟩
    · right; rw [e]; exact ⟨rfl, rfl, rfl, rfl⟩
  | serialize =>
    simp only [bodyOf]
    by_cases h : a.obufCap.toNat < a.blobSize
    · exact .inl ⟨_, _, rfl, stageSerialize_of_gt h⟩
    · right
      rw [stageSerialize_of_le (by omega)]
      exact ⟨rfl, rfl, rfl, rfl⟩
  | deserialize =>
    simp only [bodyOf]
    rcases stageDeserialize_cases a with ⟨-, e⟩ | ⟨-, c, -, e⟩ | ⟨-, m, -, -, e⟩ | ⟨-, m, -, -, e⟩
    · exact .inl ⟨_, _, rfl, e⟩
    · exact .inl ⟨_, _, rfl, e⟩
    · exact .inl ⟨_, _, rfl, e⟩
    · right; rw [e]; exact ⟨rfl, rfl, rfl, rfl⟩
  | decode =>
    simp only [bodyOf]
    rcases stageDecode_cases a with ⟨out, -, -, -, e⟩ | ⟨k, n, -, hk, e⟩
    · right; rw [e]; exact ⟨rfl, rfl, rfl, rfl⟩
    · exact .inl ⟨k, n, hk, e⟩

end Sys2Proof.Machine
end

