-- ==== Sys2Proof/Laws/Results.lean ====
section
/-!
SUPPORT. What each unit command reads and leaves: the codes and the stream, the blob read back, the parse of the
metadata by its pairs, DECODE of a packed stream, results as functions, frames.
-/

namespace Sys2Proof.Machine

theorem err_congr {a b : Arch} (h : a.status = b.status) : a.err = b.err := by unfold Arch.err; rw [h]

/-- The capacities as numbers, each from 1 to 2^48 (R6). -/
theorem caps_le {a : Arch} (h : a.capsOk) : (1 ≤ a.ibufCap.toNat ∧ a.ibufCap.toNat ≤ 2 ^ 48) ∧
   (1 ≤ a.pbufCap.toNat ∧ a.pbufCap.toNat ≤ 2 ^ 48) ∧ (1 ≤ a.obufCap.toNat ∧ a.obufCap.toNat ≤ 2 ^ 48)
    := by
  simp only [Arch.capsOk, Capacities.wellFormed, capacityWellFormed, Config.capMax, Bool.and_eq_true] at h
  exact ⟨of_decide_eq_true h.1.1, of_decide_eq_true h.1.2, of_decide_eq_true h.2⟩

/-- The architectural state a command other than CLEAR leaves when it executes. -/
theorem exec_arch {i : Instr} (hi : i ≠ .clear) {s t : State} (h : s.err = false) (hx : exec i s =
    .next t) :
    t.toArch = complete (bodyOf i s.toArch) := by
  rw [exec_of_ok_ne h hi] at hx
  have hx' := Host.Outcome.next.inj hx
  rw [← hx']

/-- Byte `i` of the input. -/
theorem input_getElem? (a : Arch) (i : Nat) : a.input[i]? = if i < a.ilen.toNat then some
    (a.ibufByte i) else none := by
  unfold Arch.input; rw [readFrom_getElem?]; simp

@[simp] theorem complete_codeBits (a : Arch) (b : Byte) : (complete a).codeBits b = a.codeBits b := by
  simp [Arch.codeBits]

theorem complete_payload (a : Arch) : (complete a).payload = a.payload := by
  unfold Arch.payload; rw [complete_plen]; congr 1
  funext i; simp only [Arch.pbufByte, complete_pbuf, complete_seed]

theorem complete_output (a : Arch) : (complete a).output = a.output := by
  unfold Arch.output; rw [complete_olen]; congr 1
  funext i; simp only [Arch.obufByte, complete_obuf, complete_seed]

theorem codeBits_congr {a b : Arch} (h1 : a.clen = b.clen) (h2 : a.code = b.code) : a.codeBits =
    b.codeBits := by
  funext x; unfold Arch.codeBits; rw [h1, h2]

/-- A symbol has one code (R95). -/
theorem codePath_unique {t : NodeTable} {root nleaf : NodeIndex} (h : TreeWf t root nleaf) {b p q}
    (hp : codePath t root b p) (hq : codePath t root b q) : q = p := by
  obtain ⟨-, ⟨k1, -, rfl⟩ | ⟨k1, l1⟩⟩ := hp
  · obtain ⟨-, ⟨-, -, rfl⟩ | ⟨k2, -⟩⟩ := hq
    · rfl
    · rw [k1] at k2; cases k2
  · obtain ⟨-, ⟨k2, -, -⟩ | ⟨-, l2⟩⟩ := hq
    · rw [k1] at k2; cases k2
    · exact h.leadsTo_unique l2 l1

/-- A stream has at most 255 bits for each input byte (R32, R102). -/
theorem bitStream_le (a : Arch) : a.bitStream.length ≤ 255 * a.ilen.toNat := by
  unfold Arch.bitStream
  rw [← input_length]
  induction a.input with
  | nil => simp
  | cons b l ih =>
    have hb : (a.codeBits b).length ≤ 255 := by
      rw [Arch.codeBits, bitsOfCode_length]; have := (tableGet a.clen b).isLt; omega
    rw [List.flatMap_cons, List.length_append, List.length_cons]; omega

/-- The length of the stream is the sum of the code lengths (R102). -/
theorem bitStream_length (a : Arch) : a.bitStream.length = (a.input.map fun b => (tableGet a.clen
    b).toNat).sum := by
  unfold Arch.bitStream
  rw [List.length_flatMap]
  congr 1
  apply List.map_congr_left
  intro b _
  rw [Arch.codeBits, bitsOfCode_length]

/-- What PACK stores (R102, R103). -/
theorem packed_payload {a : Arch} (h : ceil8 a.bitStream.length ≤ a.pbufCap.toNat) {b : Arch}
   (h1 : b.pbuf = Memory.write a.pbuf 0 (packBits (ceil8 a.bitStream.length) a.bitStream)) (h2 : b.seed
    = a.seed)
    (h3 : b.plen = BitVec.ofNat 64 (ceil8 a.bitStream.length)) :
   b.plen.toNat = ceil8 a.bitStream.length ∧ b.payload = packBits (ceil8 a.bitStream.length)
    a.bitStream := by
  have hp : b.plen.toNat = ceil8 a.bitStream.length := by
    rw [h3, BitVec.toNat_ofNat]
    exact Nat.mod_eq_of_lt (by have := a.pbufCap.isLt; omega)
  refine ⟨hp, ?_⟩
  unfold Arch.payload
  have e : b.pbufByte = Memory.read a.seed .pbuf (Memory.write a.pbuf 0 (packBits (ceil8 a.bitStream.length) a.bitStream)) := by
    funext i; rw [Arch.pbufByte, h1, h2]
  rw [e, hp]
  have := readFrom_write (seed := a.seed) (buf := .pbuf) a.pbuf 0 (packBits (ceil8 a.bitStream.length) a.bitStream)
  rwa [packBits_length] at this

/-- All that a PACK that raises no error leaves. -/
theorem pack_ok {s t : State} (h : s.err = false) (hc : s.capsOk) (hx : exec .pack s = .next t) (ht
    : t.err = false) :
    s.ilen.toNat ≤ s.ibufCap.toNat ∧ (∀ b ∈ s.input, tableGet s.clen b ≠ 0) ∧ ceil8 s.bitStream.length ≤
      s.pbufCap.toNat ∧
    t.nbits.toNat = s.bitStream.length ∧ t.plen.toNat = ceil8 s.bitStream.length ∧
    t.payload = packBits (ceil8 s.bitStream.length) s.bitStream := by
  rw [exec_of_ok_ne h (by decide)] at hx
  have hx' := Host.Outcome.next.inj hx
  have ha : t.toArch = complete (stagePack s.toArch) := by rw [← hx']; rfl
  clear hx hx'
  rcases stagePack_cases s.toArch with ⟨-, e⟩ | ⟨-, i, -, e⟩ | ⟨-, -, -, e⟩ | ⟨h1, h2, h3, e⟩
  · rw [ha, e, complete_raiseError, raiseError_err] at ht; cases ht
  · rw [ha, e, complete_raiseError, raiseError_err] at ht; cases ht
  · rw [ha, e, complete_raiseError, raiseError_err] at ht; cases ht
  · rw [e] at ha
    have hlen := bitStream_le s.toArch
    have hcap := caps_le hc
    have hn : (BitVec.ofNat 64 s.bitStream.length).toNat = s.bitStream.length := by
      rw [BitVec.toNat_ofNat]; exact Nat.mod_eq_of_lt (by omega)
    obtain ⟨g1, g2⟩ := packed_payload (b := t.toArch) h3 (by rw [ha]; exact complete_pbuf _) (by rw [ha]; exact complete_seed _) (by rw [ha]; exact complete_plen _)
    exact ⟨h1, firstUncoded_eq_none.mp h2, h3, by rw [ha, complete_nbits]; exact hn, g1, g2⟩

/-- A byte of 0 bits is 0 (R103). -/
theorem byteOfBits_false {l : List Bool} (h : ∀ b ∈ l, b = false) : byteOfBits l = 0 := by
  have : byteOfBits l = byteOfBits [] := by
    unfold byteOfBits
    have : ∀ j, l.getD j false = ([] : List Bool).getD j false := by
      intro j
      rw [List.getD_eq_getElem?_getD]
      cases hj : l[j]? with
      | none => simp
      | some b => simpa using h b (List.mem_of_getElem? hj)
    simp only [this]
  rw [this]; decide

theorem packBits_false (n : Nat) {l : List Bool} (h : ∀ b ∈ l, b = false) : ∀ x ∈ packBits n l, x =
    0 := by
  induction n generalizing l with
  | zero => simp [packBits]
  | succ n ih =>
    intro x hx
    rw [packBits, List.mem_cons] at hx
    rcases hx with rfl | hx
    · exact byteOfBits_false fun b hb => h b (List.mem_of_mem_take hb)
    · exact ih (fun b hb => h b (List.mem_of_mem_drop hb)) x hx

theorem readsAt_input (a : Arch) : readsAt a.ibufByte 0 a.input := by
  unfold readsAt; rw [input_length]; rfl

/-- Pair `k` of a run of pairs (R121). -/
theorem readsAt_pair {rd : Nat → Byte} {ft : SymTable Word64} {ss : List Byte} :
    ∀ {q k : Nat} {b : Byte}, readsAt rd q (ss.flatMap (pairBytes ft)) → ss[k]? = some b →
      rd (q + 9 * k) = b ∧ readFrom rd (q + 9 * k + 1) 8 = toBE 8 (tableGet ft b).toNat := by
  induction ss with
  | nil => intro q k b _ h; simp at h
  | cons s ss ih =>
    intro q k b hr h
    rw [List.flatMap_cons, readsAt_append, pairBytes_length] at hr
    cases k with
    | zero =>
      simp only [List.getElem?_cons_zero, Option.some.injEq] at h
      subst h
      obtain ⟨h1, -⟩ := hr
      rw [pairBytes, readsAt_cons] at h1
      refine ⟨by simpa using h1.1, ?_⟩
      have := h1.2
      unfold readsAt at this
      rw [toBE_length] at this
      simpa using this
    | succ k =>
      rw [List.getElem?_cons_succ] at h
      have := ih hr.2 h
      rw [show q + 9 * (k + 1) = q + 9 + 9 * k by omega]
      exact this

/-- A blob that fits `OBUF` has a size that fits `OLEN`. -/
theorem blobSize_lt {a : Arch} (h : a.blobSize ≤ a.obufCap.toNat) : (BitVec.ofNat 64
    a.blobSize).toNat = a.blobSize := by
  rw [BitVec.toNat_ofNat]; exact Nat.mod_eq_of_lt (by have := a.obufCap.isLt; omega)

/-- What was stored from index 0 on reads back. -/
theorem readsAt_written {seed : Nat} {buf : Buffer} {m : Memory} {bs : List Byte} :
    readsAt (Memory.read seed buf (Memory.write m 0 bs)) 0 bs := readFrom_write m 0 bs

/-- What SERIALIZE leaves when the blob fits (R123). -/
theorem serialize_of_le {s : State} (h : s.err = false) (hb : s.blobSize ≤ s.obufCap.toNat) :
    ∃ t, exec .serialize s = .next t ∧ completesFrom t.toArch s.toArch ∧ t.olen.toNat = s.blobSize ∧
      readsAt t.obufByte 0 s.blob ∧ t.output = s.blob := by
  refine ⟨_, exec_of_ok_ne h (by decide), ?_⟩
  simp only [bodyOf]
  rw [stageSerialize_of_le hb]
  set b := complete _ with hb'
  have e1 : b.obuf = Memory.write s.obuf 0 s.blob := complete_obuf _
  have e2 : b.seed = s.seed := complete_seed _
  have e3 : b.olen = BitVec.ofNat 64 s.blobSize := complete_olen _
  have e4 : b.obufByte = Memory.read s.seed .obuf (Memory.write s.obuf 0 s.blob) := by
    funext i; rw [Arch.obufByte, e1, e2]
  have e5 : b.olen.toNat = s.blobSize := by rw [e3]; exact blobSize_lt hb
  have e6 : readsAt b.obufByte 0 s.blob := by rw [e4]; exact readsAt_written
  refine ⟨completesFrom_complete (by exact h) rfl rfl rfl, e5, e6, ?_⟩
  unfold readsAt at e6
  rw [blob_length] at e6
  show readFrom b.obufByte 0 b.olen.toNat = _
  rw [e5, e6]

/-- All that a SERIALIZE that raises no error leaves (R123). -/
theorem serialize_ok {s t : State} (h : s.err = false) (hx : exec .serialize s = .next t) (ht :
    t.err = false) :
    s.blobSize ≤ s.obufCap.toNat ∧ t.output = s.blob ∧ t.olen.toNat = s.blobSize := by
  by_cases hb : s.blobSize ≤ s.obufCap.toNat
  · obtain ⟨t', h1, -, h2, -, h3⟩ := serialize_of_le h hb
    rw [hx] at h1; cases h1
    exact ⟨hb, h3, h2⟩
  · rw [exec_of_ok_ne h (by decide)] at hx
    cases hx
    simp only [bodyOf, complete_err] at ht
    rw [stageSerialize_of_gt (by omega), raiseError_err] at ht; cases ht

theorem serialized_output {a : Arch} (h : a.blobSize ≤ a.obufCap.toNat) : Arch.output { a with obuf := Memory.write a.obuf 0 a.blob, olen := BitVec.ofNat 64 a.blobSize } = a.blob := by
  unfold Arch.output
  simp only
  rw [blobSize_lt h, ← blob_length]
  exact readsAt_written

/-- Every byte sequence is what some reader gives. -/
theorem readsAt_inj_list {bs : List Byte} : ∃ rd : Nat → Byte, readsAt rd 0 bs := by
  refine ⟨fun i => bs.getD i 0, ?_⟩
  apply readFrom_eq_of_getElem?
  intro k hk
  simp [List.getElem?_eq_getElem hk]

/-- Table and count are read off the metadata. -/
theorem metadata_of_readsAt {rd : Nat → Byte} {ft : SymTable Word64} {c : Word64}
    (h : readsAt rd 0 (metadataBytes ft c)) : nsymOf rd = (presentSymbols ft).length ∧ countOf rd =
      c.toNat ∧
     parsePairs rd (nsymOf rd) 2 0 emptyTable 0 = .accepted (ft, tableSum ft) := by
  unfold metadataBytes at h
  rw [readsAt_append, readsAt_append] at h
  obtain ⟨⟨h1, h2⟩, h3⟩ := h
  have hle := presentSymbols_length_le ft
  have hn : nsymOf rd = (presentSymbols ft).length := by
    unfold nsymOf readsAt at *
    rw [toBE_length] at h1
    rw [h1]
    exact ofBE_toBE 2 _ (by omega)
  have hcount : countOf rd = c.toNat := by
    unfold countOf
    unfold readsAt at h3
    rw [hn]
    rw [List.length_append, toBE_length, toBE_length, flatMap_pairBytes_length, Nat.zero_add] at h3
    rw [h3]
    exact ofBE_toBE 8 _ c.isLt
  rw [toBE_length, Nat.zero_add] at h2
  have hp := parsePairs_of_readsAt (rd := rd) (ft := ft) (presentSymbols ft) 2 0 emptyTable 0 h2
    (presentSymbols_ascending ft) (fun _ _ => Nat.zero_le _)
    (fun s hs => (mem_presentSymbols ft s).mp hs)
  refine ⟨hn, hcount, ?_⟩
  rw [hn, hp, presentSymbols_sum, Nat.zero_add, withEntries_present]

/-- The blob determines the table, the count and the payload (R124). -/
theorem blob_inj {a b : Arch} (h : a.blob = b.blob) : a.ocnt = b.ocnt ∧ a.ft = b.ft ∧ a.payload =
    b.payload := by
  obtain ⟨rd, hr⟩ := readsAt_inj_list (bs := a.blob)
  have hr' := hr
  rw [h] at hr'
  rw [Arch.blob, readsAt_append] at hr hr'
  obtain ⟨n1, c1, p1⟩ := metadata_of_readsAt hr.1
  obtain ⟨n2, c2, p2⟩ := metadata_of_readsAt hr'.1
  rw [p1] at p2
  have hc : a.ocnt = b.ocnt := BitVec.eq_of_toNat_eq (c1.symm.trans c2)
  have hf : a.ft = b.ft := by injection p2 with e; exact (Prod.mk.inj e).1
  refine ⟨hc, hf, ?_⟩
  unfold Arch.blob at h
  rw [hc, hf] at h
  exact List.append_cancel_left h

/-- The least symbol value in order for pair `k`. -/
def pairLo (rd : Nat → Byte) : Nat → Nat
  | 0 => 0
  | k + 1 => (pairSymbol rd k).toNat + 1

/-- The table of the first `k` pairs. -/
def pairTable (rd : Nat → Byte) : Nat → SymTable Word64
  | 0 => emptyTable
  | k + 1 => tableSet (pairTable rd k) (pairSymbol rd k) (BitVec.ofNat 64 (pairFreq rd k))

theorem pairInOrder_iff (rd : Nat → Byte) (k : Nat) : pairInOrder rd k ↔ ¬(pairSymbol rd k).toNat <
    pairLo rd k := by
  cases k with
  | zero => simp [pairInOrder, pairLo]
  | succ k => simp [pairInOrder, pairLo]

theorem pairFreqSum_succ (rd : Nat → Byte) (k : Nat) : pairFreqSum rd (k + 1) = pairFreqSum rd k +
    pairFreq rd k := by
  simp [pairFreqSum, List.range_succ]

/-- One turn of the loop of R126, in the terms of the pairs. -/
theorem parsePairs_step (rd : Nat → Byte) (k r : Nat) (t : SymTable Word64) (sum : Nat) :
    parsePairs rd (r + 1) (2 + 9 * k) (pairLo rd k) t sum =
    if (pairSymbol rd k).toNat < pairLo rd k then .rejected 4
    else if pairFreq rd k = 0 then .rejected 5
    else parsePairs rd r (2 + 9 * (k + 1)) (pairLo rd (k + 1)) (tableSet t (pairSymbol rd k)
      (BitVec.ofNat 64 (pairFreq rd k))) (sum + pairFreq rd k) := by
  rw [parsePairs]
  have : 2 + 9 * k + 1 = 3 + 9 * k := by omega
  simp only [this]
  rfl

/-- The loop of R126 after `k` pairs that pass both checks. -/
theorem parsePairs_skip {rd : Nat → Byte} {k : Nat} : (∀ j, j < k → pairOk rd j) → ∀ r,
    parsePairs rd (k + r) 2 0 emptyTable 0 =
      parsePairs rd r (2 + 9 * k) (pairLo rd k) (pairTable rd k) (pairFreqSum rd k) := by
  induction k with
  | zero => intro _ r; rw [Nat.zero_add]; rfl
  | succ k ih =>
    intro h r
    rw [show k + 1 + r = k + (r + 1) by omega, ih (fun j hj => h j (by omega)), parsePairs_step]
    obtain ⟨h1, h2⟩ := h k (by omega)
    rw [if_neg ((pairInOrder_iff rd k).mp h1), if_neg h2, pairFreqSum_succ]
    rfl

/-- The parse of the metadata against the checks of R126, R127. -/
theorem parse_of_fails4 {rd : Nat → Byte} {len k : Nat} (hn : nsymOf rd ≤ 256) (hl : 10 + 9 * nsymOf
    rd ≤ len)
    (hk : k < nsymOf rd) (h : ∀ j, j < k → pairOk rd j) (hf : ¬pairInOrder rd k) : parseMetadata rd len
      = .rejected 4 := by
  have e := parsePairs_skip h (nsymOf rd - k - 1 + 1)
  rw [show k + (nsymOf rd - k - 1 + 1) = nsymOf rd by omega, parsePairs_step, if_pos (by
    by_contra hc; exact hf ((pairInOrder_iff rd k).mpr hc))] at e
  rw [parseMetadata, if_neg (by omega), if_neg (by omega), if_neg (by omega), e]

/-- The first pair of frequency 0 gives sub-cause 5 (R127). -/
theorem parse_of_fails5 {rd : Nat → Byte} {len k : Nat} (hn : nsymOf rd ≤ 256) (hl : 10 + 9 * nsymOf
    rd ≤ len)
    (hk : k < nsymOf rd) (h : ∀ j, j < k → pairOk rd j) (ho : pairInOrder rd k) (hf : pairFreq rd k = 0)
      : parseMetadata rd len = .rejected 5 := by
  have e := parsePairs_skip h (nsymOf rd - k - 1 + 1)
  rw [show k + (nsymOf rd - k - 1 + 1) = nsymOf rd by omega, parsePairs_step, if_neg ((pairInOrder_iff rd k).mp ho), if_pos hf] at e
  rw [parseMetadata, if_neg (by omega), if_neg (by omega), if_neg (by omega), e]

/-- With every pair passing both checks the sum check decides (R126). -/
theorem parse_of_pairsOk {rd : Nat → Byte} {len : Nat} (hn : nsymOf rd ≤ 256) (hl : 10 + 9 * nsymOf
    rd ≤ len)
    (h : ∀ j, j < nsymOf rd → pairOk rd j) : parseMetadata rd len =
      if pairFreqSum rd (nsymOf rd) ≠ countOf rd then .rejected 6 else
       .accepted ⟨pairTable rd (nsymOf rd), BitVec.ofNat 64 (countOf rd), 10 + 9 * nsymOf rd⟩ := by
  have e := parsePairs_skip h 0
  rw [Nat.add_zero] at e
  rw [parseMetadata, if_neg (by omega), if_neg (by omega), if_neg (by omega), e]
  rfl

/-- What DESERIALIZE leaves when it accepts. -/
theorem loadContainer_spec {a b : Arch} {m : Metadata} (h : b = complete (loadContainer m a)) : 
    b.ft = m.table ∧ b.ocnt = m.count ∧ b.plen.toNat = a.ilen.toNat - m.offset ∧
    (b.nbits = BitVec.ofNat 64 (8 * (a.ilen.toNat - m.offset))) ∧
    (∀ j, j < a.ilen.toNat - m.offset → b.pbufByte j = a.ibufByte (m.offset + j)) ∧
    b.payload = readFrom a.ibufByte m.offset (a.ilen.toNat - m.offset) := by
  have e1 : b.pbuf = Memory.write a.pbuf 0 (readFrom a.ibufByte m.offset (a.ilen.toNat - m.offset)) := by rw [h]; exact complete_pbuf _
  have e2 : b.seed = a.seed := by rw [h]; exact complete_seed _
  have e3 : b.plen = BitVec.ofNat 64 (a.ilen.toNat - m.offset) := by rw [h]; exact complete_plen _
  have e4 : b.pbufByte = Memory.read a.seed .pbuf (Memory.write a.pbuf 0 (readFrom a.ibufByte m.offset (a.ilen.toNat - m.offset))) := by
    funext i; rw [Arch.pbufByte, e1, e2]
  have e5 : b.plen.toNat = a.ilen.toNat - m.offset := by
    rw [e3, BitVec.toNat_ofNat]; exact Nat.mod_eq_of_lt (by have := a.ilen.isLt; omega)
  have e6 : readsAt b.pbufByte 0 (readFrom a.ibufByte m.offset (a.ilen.toNat - m.offset)) := by rw [e4]; exact readsAt_written
  unfold readsAt at e6
  rw [readFrom_length] at e6
  refine ⟨by rw [h]; exact complete_ft _, by rw [h]; exact complete_ocnt _, e5, by rw [h]; exact complete_nbits _, fun j hj => ?_, ?_⟩
  · have := congrArg (fun l => l[j]?) e6
    simp only [readFrom_getElem?] at this
    rw [if_pos hj, if_pos hj] at this
    simpa using Option.some.inj this
  · unfold Arch.payload; rw [e5, e6]

theorem loadContainer_payload (m : Metadata) (a : Arch) : (loadContainer m a).payload = readFrom
    a.ibufByte m.offset (a.ilen.toNat - m.offset) := by
  have := (loadContainer_spec (b := complete (loadContainer m a)) rfl).2.2.2.2.2
  rwa [complete_payload] at this

theorem pairSymbols_getElem? (rd : Nat → Byte) (n q k : Nat) (hk : k < n) : (pairSymbols rd n q)[k]?
    = some (rd (q + 9 * k)) := by
  induction n generalizing q k with
  | zero => omega
  | succ n ih =>
    cases k with
    | zero => simp [pairSymbols]
    | succ k => rw [pairSymbols, List.getElem?_cons_succ, ih _ _ (by omega)]; congr 2; omega

/-- A blob loaded into `IBUF` parses to its table and count, and its payload is what follows (R132). -/
theorem deserialize_of_input {u : State} {ft : SymTable Word64} {c : Word64} {pl : List Byte} (_h :
    u.err = false)
    (hin : u.input = metadataBytes ft c ++ pl) (hs : tableSum ft = c.toNat) (_hl : u.ilen.toNat ≤
      u.ibufCap.toNat)
    (hp : pl.length ≤ u.pbufCap.toNat) :
    parseMetadata u.ibufByte u.ilen.toNat = .accepted ⟨ft, c, 10 + 9 * (presentSymbols ft).length⟩ ∧
    u.ilen.toNat - (10 + 9 * (presentSymbols ft).length) = pl.length ∧
    readFrom u.ibufByte (10 + 9 * (presentSymbols ft).length) (u.ilen.toNat - (10 + 9 * (presentSymbols
      ft).length)) = pl := by
  have hlen : u.ilen.toNat = 10 + 9 * (presentSymbols ft).length + pl.length := by
    rw [← input_length, hin, List.length_append, metadataBytes_length]
  have hr := readsAt_input u.toArch
  rw [hin, readsAt_append, metadataBytes_length, Nat.zero_add] at hr
  refine ⟨parseMetadata_of_readsAt hr.1 (by omega) hs, by omega, ?_⟩
  have := hr.2
  unfold readsAt at this
  rw [show u.ilen.toNat - (10 + 9 * (presentSymbols ft).length) = pl.length by omega, this]

/-- All that a DESERIALIZE that raises no error leaves (R126). -/
theorem deserialize_ok {u v : State} (h : u.err = false) (hx : exec .deserialize u = .next v) (hv :
    v.err = false) :
    u.ilen.toNat ≤ u.ibufCap.toNat ∧ ∃ m, parseMetadata u.ibufByte u.ilen.toNat = .accepted m ∧
      u.ilen.toNat - m.offset ≤ u.pbufCap.toNat ∧ v.toArch = complete (loadContainer m u.toArch) := by
  rw [exec_of_ok_ne h (by decide)] at hx
  have hx' := Host.Outcome.next.inj hx
  have ha : v.toArch = complete (stageDeserialize u.toArch) := by rw [← hx']; rfl
  rcases stageDeserialize_cases u.toArch with ⟨-, e⟩ | ⟨-, c, -, e⟩ | ⟨-, m, -, -, e⟩ | ⟨h1, m, h2, h3, e⟩
  · rw [ha, e, complete_raiseError, raiseError_err] at hv; cases hv
  · rw [ha, e, complete_raiseError, raiseError_err] at hv; cases hv
  · rw [ha, e, complete_raiseError, raiseError_err] at hv; cases hv
  · exact ⟨h1, m, h2, h3, by rw [ha, e]⟩

theorem parsePairs_congr {rd rd' : Nat → Byte} {len : Nat} (h : ∀ j, j < len → rd j = rd' j) (k :
    Nat) :
    ∀ q lo t sum, q + 9 * k ≤ len → parsePairs rd k q lo t sum = parsePairs rd' k q lo t sum := by
  induction k with
  | zero => intros; rfl
  | succ k ih =>
    intro q lo t sum hq
    rw [parsePairs, parsePairs, h q (by omega), readFrom_congr (fun j _ h2 => h j (by omega)), ih _ _ _ _ (by omega)]

/-- Parsing reads no byte at or beyond the length (R126). -/
theorem parseMetadata_congr {rd rd' : Nat → Byte} {len : Nat} (h : ∀ j, j < len → rd j = rd' j) :
    parseMetadata rd len = parseMetadata rd' len := by
  unfold parseMetadata
  by_cases h1 : len < 2
  · rw [if_pos h1, if_pos h1]
  · rw [if_neg h1, if_neg h1]
    have hn : nsymOf rd = nsymOf rd' := by
      unfold nsymOf; rw [readFrom_congr (fun j _ h2 => h j (by omega))]
    rw [hn]
    by_cases h2 : nsymOf rd' > 256
    · rw [if_pos h2, if_pos h2]
    · rw [if_neg h2, if_neg h2]
      by_cases h3 : len < 10 + 9 * nsymOf rd'
      · rw [if_pos h3, if_pos h3]
      · rw [if_neg h3, if_neg h3]
        have hc : countOf rd = countOf rd' := by
          unfold countOf; rw [hn, readFrom_congr (fun j _ h2 => h j (by omega))]
        rw [parsePairs_congr h _ _ _ _ _ (by omega), hc]

/-- What DECODE stores, read back. -/
theorem storeDecoded_spec {a b : Arch} {out : List Byte} (hl : out.length = a.ocnt.toNat) (h : b =
    complete (storeDecoded out a)) :
    b.output = out ∧ b.olen = a.ocnt := by
  have e1 : b.obuf = Memory.write a.obuf 0 out := by rw [h]; exact complete_obuf _
  have e2 : b.seed = a.seed := by rw [h]; exact complete_seed _
  have e3 : b.olen = a.ocnt := by rw [h]; exact complete_olen _
  have e4 : b.obufByte = Memory.read a.seed .obuf (Memory.write a.obuf 0 out) := by
    funext i; rw [Arch.obufByte, e1, e2]
  refine ⟨?_, e3⟩
  unfold Arch.output
  rw [e3, e4, ← hl]
  exact readsAt_written

/-- What a DECODE that emits `out` leaves (R110). -/
theorem decode_stores {s : State} {out : List Byte} (h : s.err = false) (hl : out.length =
    s.ocnt.toNat)
    (e : stageDecode s.toArch = storeDecoded out s.toArch) : ∃ t, exec .decode s = .next t ∧
      completesFrom t.toArch s.toArch ∧ t.olen = s.ocnt ∧ t.output = out := by
  refine ⟨_, exec_of_ok_ne h (by decide), ?_⟩
  simp only [bodyOf, e]
  obtain ⟨f1, f2⟩ := storeDecoded_spec (b := complete (storeDecoded out s.toArch)) hl rfl
  exact ⟨completesFrom_complete (by exact h) rfl rfl rfl, f2, f1⟩

/-- What a DECODE that raises leaves (R158). -/
theorem decode_raises {s : State} {k : ErrorKind} {n : Nat} (h : s.err = false)
    (e : stageDecode s.toArch = raiseError .decode k n s.toArch) : ∃ t, exec .decode s = .next t ∧
      t.raised 0x08 k n ∧ t.olen = 0 := by
  refine ⟨_, exec_of_ok_ne h (by decide), ?_⟩
  simp only [bodyOf, e, complete_raiseError]
  exact ⟨raiseError_raised _ _ _ _, rfl⟩

/-- A payload that starts with the paths of the symbols wanted decodes to them (R110). -/
theorem decode_walk {s : State} {xs : List Byte} {path : Byte → List Bool} {rest : List Bool}
    (_h : s.err = false) (ht : s.TreeOk) (h2 : 2 ≤ s.nleaf.toNat) (hc : s.ocnt.toNat ≤ s.obufCap.toNat)
    (hx : xs.length = s.ocnt.toNat) (hp : ∀ x ∈ xs, leadsTo s.node s.root (path x) x)
    (hb : bitsOfBytes s.payload = xs.flatMap path ++ rest) :
    stageDecode s.toArch = storeDecoded xs s.toArch := by
  by_cases hz : s.ocnt = 0
  · have : xs = [] := List.length_eq_zero_iff.mp (by rw [hx, hz]; rfl)
    rw [stageDecode_of_zero hz, this]
    unfold storeDecoded; rw [hz]; rfl
  · have hk := ht.root_inner h2
    have hr : s.root ≠ Config.nil := nil_of_nil_kind (t := s.node) (by rw [hk]; simp)
    have hw : s.walked = .emitted xs := by
      unfold Arch.walked; rw [hb, ← hx]; exact walk_stream ht hk xs hp rest 0
    rw [stageDecode_of_walk hz hc hr (by rw [hk]; simp), hw]

theorem decode_arch {s t : State} (h : s.err = false) (hx : exec .decode s = .next t) :
    t.toArch = complete (stageDecode s.toArch) := by
  rw [exec_of_ok_ne h (by decide)] at hx
  have hx' := Host.Outcome.next.inj hx
  rw [← hx']; rfl

/-- The codebook CODES leaves, and the paths. -/
theorem decode_of_packed {a : Arch} {nleaf : NodeIndex} (ht : TreeWf a.node a.root nleaf) {xs : List
    Byte}
    {code : Byte → List Bool}
    (hcode : ∀ b p, codePath a.node a.root b p → code b = p) (hnz : ∀ b ∈ xs, ∃ p, codePath a.node
      a.root b p)
    (hc : a.ocnt.toNat ≤ a.obufCap.toNat) (hl : xs.length = a.ocnt.toNat) {rest : List Bool}
    (hb : bitsOfBytes a.payload = xs.flatMap code ++ rest) : stageDecode a = storeDecoded xs a := by
  by_cases hz : a.ocnt = 0
  · have : xs = [] := List.length_eq_zero_iff.mp (by rw [hl, hz]; rfl)
    rw [stageDecode_of_zero hz, this]
    unfold storeDecoded; rw [hz]; rfl
  · have hne : xs ≠ [] := by
      rintro rfl; exact hz (BitVec.eq_of_toNat_eq hl.symm)
    obtain ⟨x, hx⟩ := List.exists_mem_of_ne_nil xs hne
    obtain ⟨p, hp⟩ := hnz x hx
    have hr := hp.1
    rcases ht.root_kind hr with ⟨hk, -⟩ | ⟨hk, h2⟩
    · rw [stageDecode_of_leaf hz hc hr hk]
      congr 1
      rw [← hl]
      symm
      apply List.eq_replicate_of_mem
      intro y hy
      obtain ⟨q, -, ⟨-, hq, -⟩ | ⟨hq, -⟩⟩ := hnz y hy
      · exact hq.symm
      · rw [hk] at hq; cases hq
    · have hpath : ∀ y ∈ xs, leadsTo a.node a.root (code y) y := by
        intro y hy
        obtain ⟨q, hq⟩ := hnz y hy
        rw [hcode y q hq]
        obtain ⟨-, ⟨hq', -⟩ | ⟨-, hq'⟩⟩ := hq
        · rw [hk] at hq'; cases hq'
        · exact hq'
      have hw : a.walked = .emitted xs := by
        unfold Arch.walked; rw [hb, ← hl]; exact walk_stream ht hk xs hpath rest 0
      rw [stageDecode_of_walk hz hc hr (by rw [hk]; simp), hw]

/-- With a well-formed tree, absent only when nothing is wanted, DECODE never meets a bad link (R145). -/
theorem decode_raise_kind {a : Arch} {nleaf : NodeIndex} (ht : TreeWf a.node a.root nleaf) (hr :
    a.root = Config.nil → a.ocnt = 0)
    {k : ErrorKind} {n : Nat} (h : decodeResult a = .raises k n) :
    (k = .capacity ∧ a.obufCap.toNat < a.ocnt.toNat) ∨ k = .truncatedStream := by
  unfold decodeResult at h
  split at h
  · cases h
  · rename_i hz
    split at h
    · cases h; exact .inl ⟨rfl, by assumption⟩
    · split at h
      · rename_i hnil; exact absurd (hr hnil) hz
      · rename_i hne
        split at h
        · cases h
        · rename_i hk
          have hin : (nodeAt a.node a.root.toNat).kind = .inner := by
            rcases ht.root_kind hne with ⟨h1, -⟩ | ⟨h1, -⟩
            · exact absurd h1 hk
            · exact h1
          cases hw : a.walked with
          | emitted out => rw [hw] at h; cases h
          | truncated m => rw [hw] at h; cases h; exact .inr rfl
          | badLink m => exact absurd hw (walk_no_badLink ht hin hin)

theorem payload_of_zero {a : Arch} (h : a.plen = 0) : a.payload = [] := by unfold Arch.payload; rw [h]; rfl

theorem output_of_zero {a : Arch} (h : a.olen = 0) : a.output = [] := by unfold Arch.output; rw [h]; rfl

/-- COUNT's results as a function of what it reads (R79). -/
theorem count_congr {a b : Arch} (h0 : a.err = b.err) (h1 : a.input = b.input) (h2 : a.ilen = b.ilen) 
    (h5 : a.ibufCap = b.ibufCap) :
    (stageCount a).ft = (stageCount b).ft ∧ (stageCount a).ocnt = (stageCount b).ocnt ∧
    (stageCount a).err = (stageCount b).err ∧
    ((stageCount a).err = true → a.err = false → (stageCount a).status = (stageCount b).status ∧
      (stageCount a).errcode = (stageCount b).errcode ∧
      (stageCount a).errinfo = (stageCount b).errinfo ∧ (stageCount a).errcmd = (stageCount b).errcmd) :=
        by
  by_cases g1 : a.ibufCap.toNat < a.ilen.toNat
  · rw [stageCount_of_gt g1]
    rw [h5, h2] at g1
    rw [stageCount_of_gt g1, h2]
    exact ⟨rfl, rfl, by simp, fun _ _ => ⟨rfl, rfl, rfl, rfl⟩⟩
  · rw [stageCount_of_le (by omega)]
    rw [h5, h2] at g1
    rw [stageCount_of_le (by omega), h1, h2]
    exact ⟨rfl, rfl, h0, fun he hf => absurd (show a.err = true from he) (by rw [hf]; decide)⟩

/-- PACK's results as a function of what it reads (R105). -/
theorem pack_congr {a b : Arch} (h0 : a.err = b.err) (h1 : a.input = b.input) (h2 : a.ilen = b.ilen)
    (h3 : a.clen = b.clen) (h4 : a.code = b.code)
    (h5 : a.ibufCap = b.ibufCap) (h6 : a.pbufCap = b.pbufCap) :
    (stagePack a).plen = (stagePack b).plen ∧ (stagePack a).nbits = (stagePack b).nbits ∧
    (stagePack a).payload = (stagePack b).payload ∧ (stagePack a).err = (stagePack b).err ∧
    ((stagePack a).err = true → a.err = false → (stagePack a).status = (stagePack b).status ∧ (stagePack
      a).errcode = (stagePack b).errcode ∧
      (stagePack a).errinfo = (stagePack b).errinfo ∧ (stagePack a).errcmd = (stagePack b).errcmd) := by
  have hs : a.bitStream = b.bitStream := by
    unfold Arch.bitStream; rw [h1, codeBits_congr h3 h4]
  rcases stagePack_cases a with ⟨g1, e⟩ | ⟨g1, i, g2, e⟩ | ⟨g1, g2, g3, e⟩ | ⟨g1, g2, g3, e⟩
  · rw [h5, h2] at g1
    rw [e, stagePack_of_gt g1, h2]
    exact ⟨rfl, rfl, (payload_of_zero rfl).trans (payload_of_zero rfl).symm, by simp, fun _ _ => ⟨rfl, rfl, rfl, rfl⟩⟩
  · rw [h5, h2] at g1
    rw [h3, h1] at g2
    rw [e, stagePack_of_uncoded g1 g2]
    exact ⟨rfl, rfl, (payload_of_zero rfl).trans (payload_of_zero rfl).symm, by simp, fun _ _ => ⟨rfl, rfl, rfl, rfl⟩⟩
  · rw [h5, h2] at g1
    rw [h3, h1] at g2
    rw [h6, hs] at g3
    rw [e, stagePack_of_full g1 g2 g3, hs]
    exact ⟨rfl, rfl, (payload_of_zero rfl).trans (payload_of_zero rfl).symm, by simp, fun _ _ => ⟨rfl, rfl, rfl, rfl⟩⟩
  · have g3' := g3
    rw [h5, h2] at g1
    rw [h3, h1] at g2
    rw [h6, hs] at g3
    have e' := stagePack_of_ok g1 g2 g3
    have p1 := (packed_payload (a := a) (b := stagePack a) g3' (by rw [e]) (by rw [e]) (by rw [e])).2
    have p2 := (packed_payload (a := b) (b := stagePack b) g3 (by rw [e']) (by rw [e']) (by rw [e'])).2
    rw [p1, p2, hs]
    rw [e, e', hs]
    exact ⟨rfl, rfl, rfl, h0, fun he hf => absurd (show a.err = true from he) (by rw [hf]; decide)⟩

theorem decodeResult_congr {a b : Arch} (h1 : a.node = b.node) (h2 : a.root = b.root) (h3 :
    a.payload = b.payload)
    (h4 : a.ocnt = b.ocnt) (h5 : a.obufCap = b.obufCap) : decodeResult a = decodeResult b := by
  unfold decodeResult Arch.walked; rw [h1, h2, h3, h4, h5]

/-- DECODE's results as a function of what it reads (R120). -/
theorem decode_congr {a b : Arch} (h0 : a.err = b.err) (h1 : a.node = b.node) (h2 : a.root = b.root)
    (h3 : a.payload = b.payload)
    (h4 : a.ocnt = b.ocnt) (h5 : a.obufCap = b.obufCap) :
    (stageDecode a).olen = (stageDecode b).olen ∧ (stageDecode a).output = (stageDecode b).output ∧
    (stageDecode a).err = (stageDecode b).err ∧
    ((stageDecode a).err = true → a.err = false → (stageDecode a).status = (stageDecode b).status ∧
      (stageDecode a).errcode = (stageDecode b).errcode ∧
      (stageDecode a).errinfo = (stageDecode b).errinfo ∧ (stageDecode a).errcmd = (stageDecode b).errcmd)
        := by
  have hr := decodeResult_congr h1 h2 h3 h4 h5
  have out : ∀ (c : Arch) (o : List Byte), o.length = c.ocnt.toNat → (storeDecoded o c).output = o := by
    intro c o hl
    unfold Arch.output
    show readFrom _ 0 c.ocnt.toNat = o
    rw [← hl]; exact readsAt_written
  rcases stageDecode_cases a with ⟨o, e1, l1, -, s1⟩ | ⟨k, n, e1, -, s1⟩ <;>
  rcases stageDecode_cases b with ⟨o', e2, l2, -, s2⟩ | ⟨k', n', e2, -, s2⟩
  · rw [hr, e2] at e1
    cases e1
    rw [s1, s2]
    exact ⟨h4, by rw [out a _ l1, out b _ l2], h0, fun he hf => absurd (show a.err = true from he) (by rw [hf]; decide)⟩
  · rw [hr, e2] at e1; cases e1
  · rw [hr, e2] at e1; cases e1
  · rw [hr, e2] at e1
    cases e1
    rw [s1, s2]
    exact ⟨rfl, (output_of_zero rfl).trans (output_of_zero rfl).symm, by simp, fun _ _ => ⟨rfl, rfl, rfl, rfl⟩⟩

/-- A unit command raises one of its errors, or completes. -/
theorem body_err {i : Instr} (h1 : i ≠ .clear) (h2 : i ≠ .compress) (h3 : i ≠ .decompress) {a :
    Arch} (h : a.err = false) :
    (∃ k n, canRaise i k = true ∧ bodyOf i a = raiseError i k n a) ∨ ((bodyOf i a).err = false ∧
      completesFrom (complete (bodyOf i a)) a) := by
  rcases body_cases h1 h2 h3 a with hr | ⟨e1, e2, e3, e4⟩
  · exact .inl hr
  · have he : (bodyOf i a).err = false := (err_congr e1).trans h
    exact .inr ⟨he, completesFrom_complete he e2 e3 e4⟩

/-- The port is kept, and the state is what it was or what the body leaves, completed. -/
theorem exec_frame {i : Instr} {s t : State} (hi : i ≠ .clear) (hx : exec i s = .next t) :
    samePort s t ∧ (t.toArch = s.toArch ∨ t.toArch = complete (bodyOf i s.toArch)) := by
  rcases exec_cases hx with ⟨rfl, -⟩ | ⟨rfl, hs⟩
  · exact ⟨⟨rfl, rfl, rfl⟩, .inl rfl⟩
  · exact ⟨⟨rfl, rfl, rfl⟩, .inr (resultOf_of_ne hi _)⟩

theorem sameBytes_of {a b : Arch} (h1 : b.ibuf = a.ibuf) (h2 : b.pbuf = a.pbuf) (h3 : b.obuf =
    a.obuf) (h4 : b.seed = a.seed) : sameBytes a b := by
  intro k
  simp [Arch.ibufByte, Arch.pbufByte, Arch.obufByte, h1, h2, h3, h4]

theorem ibuf_of {a b : Arch} (h1 : b.ibuf = a.ibuf) (h4 : b.seed = a.seed) (k) : b.ibufByte k =
    a.ibufByte k := by
  simp [Arch.ibufByte, h1, h4]

theorem pbuf_of {a b : Arch} (h1 : b.pbuf = a.pbuf) (h4 : b.seed = a.seed) (k) : b.pbufByte k =
    a.pbufByte k := by
  simp [Arch.pbufByte, h1, h4]

theorem obuf_of {a b : Arch} (h1 : b.obuf = a.obuf) (h4 : b.seed = a.seed) (k) : b.obufByte k =
    a.obufByte k := by
  simp [Arch.obufByte, h1, h4]

theorem pbuf_written {a b : Arch} {bs : List Byte} (h1 : b.pbuf = Memory.write a.pbuf 0 bs) (h4 :
    b.seed = a.seed) {k} (h : bs.length ≤ k) :
    b.pbufByte k = a.pbufByte k := by
  rw [Arch.pbufByte, h1, h4]; exact Memory.read_write_outside (.inr (by omega))

theorem obuf_written {a b : Arch} {bs : List Byte} (h1 : b.obuf = Memory.write a.obuf 0 bs) (h4 :
    b.seed = a.seed) {k} (h : bs.length ≤ k) :
    b.obufByte k = a.obufByte k := by
  rw [Arch.obufByte, h1, h4]; exact Memory.read_write_outside (.inr (by omega))

/-- The frame of PACK's body. -/
theorem pack_frame (a : Arch) : (∃ st e i c, stagePack a = { a with pbuf := (stagePack a).pbuf, plen := (stagePack a).plen, nbits := (stagePack a).nbits, status := st, errcode := e, errinfo := i, errcmd := c }) ∧
    (∀ k, ceil8 a.bitStream.length ≤ k → (stagePack a).pbufByte k = a.pbufByte k) := by
  rcases stagePack_cases a with ⟨-, e⟩ | ⟨-, i, -, e⟩ | ⟨-, -, -, e⟩ | ⟨-, -, -, e⟩
  · rw [e]; exact ⟨⟨_, _, _, _, rfl⟩, fun _ _ => rfl⟩
  · rw [e]; exact ⟨⟨_, _, _, _, rfl⟩, fun _ _ => rfl⟩
  · rw [e]; exact ⟨⟨_, _, _, _, rfl⟩, fun _ _ => rfl⟩
  · refine ⟨?_, fun k hk => pbuf_written (by rw [e]) (by rw [e]) (by rw [packBits_length]; exact hk)⟩
    rw [e]; exact ⟨_, _, _, _, rfl⟩

/-- The frame of SERIALIZE's body. -/
theorem serialize_frame (a : Arch) : (∃ st e i c, stageSerialize a = { a with obuf := (stageSerialize a).obuf, olen := (stageSerialize a).olen, status := st, errcode := e, errinfo := i, errcmd := c }) ∧
    (∀ k, a.blobSize ≤ k → (stageSerialize a).obufByte k = a.obufByte k) := by
  by_cases g : a.obufCap.toNat < a.blobSize
  · rw [stageSerialize_of_gt g]; exact ⟨⟨_, _, _, _, rfl⟩, fun _ _ => rfl⟩
  · have e := stageSerialize_of_le (a := a) (by omega)
    refine ⟨?_, fun k hk => obuf_written (by rw [e]) (by rw [e]) (by rw [blob_length]; exact hk)⟩
    rw [e]; exact ⟨_, _, _, _, rfl⟩

/-- The frame of DESERIALIZE's body. -/
theorem deserialize_frame (a : Arch) : (∃ st e i c, stageDeserialize a = { a with ft := (stageDeserialize a).ft, ocnt := (stageDeserialize a).ocnt, pbuf := (stageDeserialize a).pbuf, plen := (stageDeserialize a).plen, nbits := (stageDeserialize a).nbits, status := st, errcode := e, errinfo := i, errcmd := c }) ∧
    (∀ k, a.ilen.toNat - (10 + 9 * nsymOf a.ibufByte) ≤ k → (stageDeserialize a).pbufByte k = a.pbufByte k) := by
  rcases stageDeserialize_cases a with ⟨g1, e⟩ | ⟨g1, c, g2, e⟩ | ⟨g1, m, g2, g3, e⟩ | ⟨g1, m, g2, g3, e⟩
  · rw [e]; exact ⟨⟨_, _, _, _, rfl⟩, fun _ _ => rfl⟩
  · rw [e]; exact ⟨⟨_, _, _, _, rfl⟩, fun _ _ => rfl⟩
  · rw [e]; exact ⟨⟨_, _, _, _, rfl⟩, fun _ _ => rfl⟩
  · obtain ⟨-, -, h3, -, h5⟩ := parseMetadata_accepted g2
    refine ⟨?_, fun k hk => pbuf_written (by rw [e]; rfl) (by rw [e]; rfl) (by rw [readFrom_length, h3, ← h5]; exact hk)⟩
    rw [e]; exact ⟨_, _, _, _, rfl⟩

/-- The frame of DECODE's body. -/
theorem decode_frame (a : Arch) : (∃ st e i c, stageDecode a = { a with obuf := (stageDecode a).obuf, olen := (stageDecode a).olen, status := st, errcode := e, errinfo := i, errcmd := c }) ∧
    (∀ k, a.ocnt.toNat ≤ k → (stageDecode a).obufByte k = a.obufByte k) := by
  rcases stageDecode_cases a with ⟨o, e1, l1, -, e⟩ | ⟨k, n, e1, -, e⟩
  · refine ⟨?_, fun k hk => obuf_written (by rw [e]; rfl) (by rw [e]; rfl) (by rw [l1]; exact hk)⟩
    rw [e]; exact ⟨_, _, _, _, rfl⟩
  · rw [e]; exact ⟨⟨_, _, _, _, rfl⟩, fun _ _ => rfl⟩

end Sys2Proof.Machine
end

