-- ==== Sys2Proof/Laws/Sequences.lean ====
section
/-!
SUPPORT. COMPRESS and DECOMPRESS: the stages as commands issued one after another, all that each can do, the length
of the stream, dependence on the input alone, frames.
-/

namespace Sys2Proof.Machine

/-- Issuing a body: nothing while `ERR = 1`, else the body, completed. -/
def issued (f : Arch → Arch) (a : Arch) : Arch := if a.err then a else complete (f a)

/-- A command other than CLEAR issues its body. -/
theorem exec_issued {i : Instr} (hi : i ≠ .clear) (s : State) : ∃ t, exec i s = .next t ∧ t.toArch =
    issued (bodyOf i) s.toArch := by
  by_cases h : s.err = true
  · exact ⟨s, exec_of_err h hi, by simp [issued, h]⟩
  · have h' : s.err = false := by simpa using h
    exact ⟨_, exec_of_ok_ne h' hi, by simp [issued, h']⟩

/-- A body that ends the same whether `DONE` was set before or not. -/
def doneBlind (f : Arch → Arch) : Prop := ∀ a : Arch, a.err = false → complete (f (complete a)) =
    complete (f a)

theorem issued_complete {f : Arch → Arch} (hf : doneBlind f) {a : Arch} (h : a.err = false) :
    issued f (complete a) = complete (f a) := by
  unfold issued; rw [complete_err, h]; exact hf a h

theorem issued_of_err {f : Arch → Arch} {a : Arch} (h : a.err = true) : issued f a = a := by simp [issued, h]

/-- A run of stages leaves what the stages leave when issued one after another (R143). -/
theorem complete_runStages {fs : List (Arch → Arch)} (hfs : ∀ f ∈ fs, doneBlind f) {a : Arch} (h :
    a.err = false) :
    complete (runStages fs a) = fs.foldl (fun b f => issued f b) (complete a) := by
  induction fs generalizing a with
  | nil => rfl
  | cons f fs ih =>
    rw [List.foldl_cons, issued_complete (hfs f (by simp)) h]
    by_cases he : (f a).err = true
    · rw [runStages_of_err he]
      have : ∀ (gs : List (Arch → Arch)) (b : Arch), b.err = true → gs.foldl (fun b f => issued f b) b = b := by
        intro gs
        induction gs with
        | nil => intro b _; rfl
        | cons g gs ih => intro b hb; rw [List.foldl_cons, issued_of_err hb, ih b hb]
      rw [this _ _ (by rw [complete_err]; exact he)]
    · have he' : (f a).err = false := by simpa using he
      rw [runStages_of_ok he', ih (fun g hg => hfs g (by simp [hg])) he']

theorem complete_of_eq {a b : Arch} (h : a.err = false) (hb : b.err = false) (e : withStatus a 1 =
    withStatus b 1) : complete a = complete b := by
  rw [complete_eq h, complete_eq hb, e]

theorem err_withStatus (a : Arch) : (withStatus a 1).err = false := by
  have : (withStatus a 1).status = 1 := rfl
  unfold Arch.err; rw [this]; decide

theorem blind_count : doneBlind stageCount := by
  intro a h
  rw [complete_eq h]
  by_cases g : a.ibufCap.toNat < a.ilen.toNat
  · rw [stageCount_of_gt g, stageCount_of_gt (a := withStatus a 1) g]; rfl
  · rw [stageCount_of_le (a := a) (by omega), stageCount_of_le (a := withStatus a 1) (by show a.ilen.toNat ≤ a.ibufCap.toNat; omega)]
    exact complete_of_eq (err_withStatus a) h rfl

theorem blind_build : doneBlind stageBuild := by
  intro a h
  rw [complete_eq h]
  exact complete_of_eq (err_withStatus a) h rfl

theorem blind_codes : doneBlind stageCodes := by
  intro a h
  rw [complete_eq h]
  exact complete_of_eq (err_withStatus a) h rfl

theorem blind_pack : doneBlind stagePack := by
  intro a h
  rw [complete_eq h]
  rcases stagePack_cases a with ⟨g1, e⟩ | ⟨g1, i, g2, e⟩ | ⟨g1, g2, g3, e⟩ | ⟨g1, g2, g3, e⟩
  · rw [e, stagePack_of_gt (a := withStatus a 1) g1]; rfl
  · rw [e, stagePack_of_uncoded (a := withStatus a 1) g1 g2]; rfl
  · rw [e, stagePack_of_full (a := withStatus a 1) g1 g2 g3]; rfl
  · rw [e, stagePack_of_ok (a := withStatus a 1) g1 g2 g3]
    exact complete_of_eq (err_withStatus a) h rfl

theorem blind_serialize : doneBlind stageSerialize := by
  intro a h
  rw [complete_eq h]
  by_cases g : a.obufCap.toNat < a.blobSize
  · rw [stageSerialize_of_gt g, stageSerialize_of_gt (a := withStatus a 1) g]; rfl
  · rw [stageSerialize_of_le (a := a) (by omega), stageSerialize_of_le (a := withStatus a 1) (by show a.blobSize ≤ a.obufCap.toNat; omega)]
    exact complete_of_eq (err_withStatus a) h rfl

theorem blind_deserialize : doneBlind stageDeserialize := by
  intro a h
  rw [complete_eq h]
  rcases stageDeserialize_cases a with ⟨g1, e⟩ | ⟨g1, c, g2, e⟩ | ⟨g1, m, g2, g3, e⟩ | ⟨g1, m, g2, g3, e⟩
  · rw [e, stageDeserialize_of_gt (a := withStatus a 1) g1]; rfl
  · rw [e, stageDeserialize_of_rejected (a := withStatus a 1) g1 g2]; rfl
  · rw [e, stageDeserialize_of_full (a := withStatus a 1) g1 g2 g3]; rfl
  · rw [e, stageDeserialize_of_ok (a := withStatus a 1) g1 g2 g3]
    exact complete_of_eq (err_withStatus a) h rfl

theorem blind_decode : doneBlind stageDecode := by
  intro a h
  rw [complete_eq h]
  have hr : decodeResult (withStatus a 1) = decodeResult a := rfl
  rcases stageDecode_cases a with ⟨o, e1, l1, -, s1⟩ | ⟨k, n, e1, -, s1⟩ <;>
  rcases stageDecode_cases (withStatus a 1) with ⟨o', e2, l2, -, s2⟩ | ⟨k', n', e2, -, s2⟩
  · rw [hr, e1] at e2
    cases e2
    rw [s1, s2]
    exact complete_of_eq (err_withStatus a) h rfl
  · rw [hr, e1] at e2; cases e2
  · rw [hr, e1] at e2; cases e2
  · rw [hr, e1] at e2
    cases e2
    rw [s1, s2]; rfl

/-- A sequence that starts with CLEAR, as commands issued one after another (R143). -/
theorem seq_eq {fs : List (Arch → Arch)} (f : Arch → Arch) (hfs : ∀ g ∈ f :: fs, doneBlind g) (a :
    Arch) :
    complete (runStages (stageClear :: f :: fs) a) = (f :: fs).foldl (fun b f => issued f b) (stageClear
      a) := by
  rw [runStages_of_ok stageClear_err, complete_runStages hfs stageClear_err, List.foldl_cons, List.foldl_cons,
    issued_complete (hfs f (by simp)) stageClear_err]
  congr 1
  simp [issued]

/-- The state COMPRESS has reached before PACK, when the input fits (R141). -/
def codedOf (a : Arch) : Arch := stageCodes (stageBuild (stageCount (stageClear a)))

theorem stageCount_clear (h : a.ilen.toNat ≤ a.ibufCap.toNat) : stageCount (stageClear a) =
    { stageClear a with ft := tally a.input emptyTable, ocnt := a.ilen } := stageCount_of_le (a := stageClear a) h

/-- The state before PACK, field by field. -/
theorem codedOf_eq (h : a.ilen.toNat ≤ a.ibufCap.toNat) : codedOf a = { stageClear a with
    ft := tally a.input emptyTable, ocnt := a.ilen,
    node := (mergeAll (tally a.input emptyTable)).1
    root := rootOf (mergeAll (tally a.input emptyTable)).2
    nleaf := BitVec.ofNat 9 (initialLive (tally a.input emptyTable)).length
    clen := (deriveCodes (mergeAll (tally a.input emptyTable)).1 (rootOf (mergeAll (tally a.input emptyTable)).2)).clen
    code := (deriveCodes (mergeAll (tally a.input emptyTable)).1 (rootOf (mergeAll (tally a.input emptyTable)).2)).code } := by
  unfold codedOf; rw [stageCount_clear h]; rfl

theorem input_lt (a : Arch) : a.input.length < 2 ^ 64 := by simpa using a.ilen.isLt

/-- The tallied counts sum to the length (R78). -/
theorem tallied_sum (a : Arch) : tableSum (tally a.input emptyTable) = a.ilen.toNat := by
  rw [tableSum_tally (input_lt a), input_length]

/-- The tree of the input's counts is well formed (R31). -/
theorem tallied_tree (a : Arch) : TreeWf (mergeAll (tally a.input emptyTable)).1 (rootOf (mergeAll
    (tally a.input emptyTable)).2)
   (BitVec.ofNat 9 (initialLive (tally a.input emptyTable)).length) := by
  rw [initialLive_length]
  exact treeWf_mergeAll _ (by rw [tallied_sum]; exact a.ilen.isLt)

theorem codedOf_tree (h : a.ilen.toNat ≤ a.ibufCap.toNat) : (stageBuild (stageCount (stageClear
    a))).TreeOk := by
  rw [stageCount_clear h]
  exact tallied_tree a

/-- The symbols with a count are those of the input (R78). -/
theorem mem_input_iff (a : Arch) (b : Byte) : b ∈ a.input ↔ tableGet (tally a.input emptyTable) b ≠
    0 := by
  have := tally_toNat (input_lt a) b
  rw [← List.count_pos_iff, ← this]
  constructor
  · intro hp he; rw [he] at hp; simp at hp
  · intro hne; exact Nat.pos_of_ne_zero fun e => hne (BitVec.eq_of_toNat_eq e)

/-- Every symbol of the input has a code (R144). -/
theorem codedOf_codes (h : a.ilen.toNat ≤ a.ibufCap.toNat) : ∀ b ∈ a.input, tableGet (codedOf
    a).clen b ≠ 0 := by
  intro b hb
  unfold codedOf
  rw [stageCodes_clen_ne_zero (codedOf_tree h), stageCount_clear h]
  exact (leaf_iff_present _ b).mpr ((mem_input_iff a b).mp hb)

theorem codedOf_ilen (h : a.ilen.toNat ≤ a.ibufCap.toNat) : (codedOf a).ilen = a.ilen := by rw [codedOf_eq h]; rfl

theorem codedOf_ibufCap (h : a.ilen.toNat ≤ a.ibufCap.toNat) : (codedOf a).ibufCap = a.ibufCap := by rw [codedOf_eq h]; rfl

theorem codedOf_pbufCap (h : a.ilen.toNat ≤ a.ibufCap.toNat) : (codedOf a).pbufCap = a.pbufCap := by rw [codedOf_eq h]; rfl

theorem codedOf_input (h : a.ilen.toNat ≤ a.ibufCap.toNat) : (codedOf a).input = a.input := by rw [codedOf_eq h]; rfl

theorem codedOf_err (h : a.ilen.toNat ≤ a.ibufCap.toNat) : (codedOf a).err = false := by
  rw [codedOf_eq h]; exact stageClear_err (a := a)

theorem codedOf_uncoded (h : a.ilen.toNat ≤ a.ibufCap.toNat) : firstUncoded (codedOf a).clen
    (codedOf a).input = none := by
  rw [firstUncoded_eq_none, codedOf_input h]; exact codedOf_codes h

/-- The packed state of COMPRESS when the payload fits. -/
def packedOf (a : Arch) : Arch := { codedOf a with
  pbuf := Memory.write (codedOf a).pbuf 0 (packBits (ceil8 (codedOf a).bitStream.length) (codedOf a).bitStream)
  plen := BitVec.ofNat 64 (ceil8 (codedOf a).bitStream.length)
  nbits := BitVec.ofNat 64 (codedOf a).bitStream.length }

/-- All that COMPRESS can do (R141, R144). -/
theorem compress_cases (a : Arch) :
    (a.ibufCap.toNat < a.ilen.toNat ∧ runStages compressStages a = raiseError .count .capacity
      a.ilen.toNat (stageClear a)) ∨
    (a.ilen.toNat ≤ a.ibufCap.toNat ∧ a.pbufCap.toNat < ceil8 (codedOf a).bitStream.length ∧
      runStages compressStages a = raiseError .pack .capacity (ceil8 (codedOf a).bitStream.length)
        (codedOf a)) ∨
    (a.ilen.toNat ≤ a.ibufCap.toNat ∧ ceil8 (codedOf a).bitStream.length ≤ a.pbufCap.toNat ∧
      a.obufCap.toNat < (packedOf a).blobSize ∧
      runStages compressStages a = raiseError .serialize .capacity (packedOf a).blobSize (packedOf a)) ∨
    (a.ilen.toNat ≤ a.ibufCap.toNat ∧ ceil8 (codedOf a).bitStream.length ≤ a.pbufCap.toNat ∧
      (packedOf a).blobSize ≤ a.obufCap.toNat ∧
      runStages compressStages a = { packedOf a with
        obuf := Memory.write (packedOf a).obuf 0 (packedOf a).blob, olen := BitVec.ofNat 64 (packedOf
          a).blobSize }) := by
  unfold compressStages
  rw [runStages_of_ok stageClear_err]
  by_cases h : a.ibufCap.toNat < a.ilen.toNat
  · left
    refine ⟨h, ?_⟩
    have e : stageCount (stageClear a) = raiseError .count .capacity a.ilen.toNat (stageClear a) := stageCount_of_gt (a := stageClear a) h
    rw [runStages_of_err (by rw [e]; exact raiseError_err _ _ _ _), e]
  · right
    have h' : a.ilen.toNat ≤ a.ibufCap.toNat := by omega
    have e1 : (stageCount (stageClear a)).err = false := by rw [stageCount_clear h']; exact stageClear_err (a := a)
    have e2 : (stageBuild (stageCount (stageClear a))).err = false := e1
    have e3 : (stageCodes (stageBuild (stageCount (stageClear a)))).err = false := codedOf_err h'
    rw [runStages_of_ok e1, runStages_of_ok e2, runStages_of_ok e3]
    change _ ∧ _ ∧ runStages [stagePack, stageSerialize] (codedOf a) = _ ∨ _ ∧ _ ∧ _ ∧ runStages [stagePack, stageSerialize] (codedOf a) = _ ∨ _ ∧ _ ∧ _ ∧ runStages [stagePack, stageSerialize] (codedOf a) = _
    have hl : (codedOf a).ilen.toNat ≤ (codedOf a).ibufCap.toNat := by rw [codedOf_ilen h', codedOf_ibufCap h']; exact h'
    by_cases hp : a.pbufCap.toNat < ceil8 (codedOf a).bitStream.length
    · left
      have e := stagePack_of_full hl (codedOf_uncoded h') (by rw [codedOf_pbufCap h']; exact hp)
      refine ⟨h', hp, ?_⟩
      rw [runStages_of_err (by rw [e]; exact raiseError_err _ _ _ _), e]
    · right
      have e : stagePack (codedOf a) = packedOf a := stagePack_of_ok hl (codedOf_uncoded h') (by rw [codedOf_pbufCap h']; omega)
      have ee : (packedOf a).err = false := e3
      have ec : (packedOf a).obufCap = a.obufCap := by unfold packedOf; rw [codedOf_eq h']; rfl
      rw [runStages_of_ok (by rw [e]; exact ee), e]
      by_cases hb : a.obufCap.toNat < (packedOf a).blobSize
      · left
        have e' := stageSerialize_of_gt (a := packedOf a) (by rw [ec]; exact hb)
        refine ⟨h', by omega, hb, ?_⟩
        rw [runStages_of_err (by rw [e']; exact raiseError_err _ _ _ _), e']
      · right
        have e' := stageSerialize_of_le (a := packedOf a) (by rw [ec]; omega)
        refine ⟨h', by omega, by omega, ?_⟩
        rw [runStages_of_ok (by rw [e']; exact ee), e']; rfl

/-- A sum over a sequence, gathered by symbol. -/
theorem sum_map_eq_counts (l : List Byte) (f : Byte → Nat) : (l.map f).sum = (allSymbols.map fun b
    => l.count b * f b).sum := by
  induction l with
  | nil => simp
  | cons x l ih =>
    have e : (allSymbols.map fun b => (x :: l).count b * f b) = allSymbols.map fun b => l.count b * f b + f x * (if x == b then 1 else 0) := by
      apply List.map_congr_left
      intro b _
      rw [List.count_cons]
      by_cases hb : x = b
      · subst hb; simp; ring
      · simp [hb]
    rw [e, List.sum_map_add, List.sum_map_mul_left, sum_indicator, count_allSymbols, List.map_cons, List.sum_cons, ih]
    omega

/-- The stream of COMPRESS is no longer than the input's bits (R106). -/
theorem coded_cost {a : Arch} (h : a.ilen.toNat ≤ a.ibufCap.toNat) :
    (codedOf a).bitStream.length = (allSymbols.map fun b => (tableGet (codedOf a).ft b).toNat *
      (tableGet (codedOf a).clen b).toNat).sum ∧
    (codedOf a).bitStream.length ≤ 8 * a.ilen.toNat := by
  have hft : (codedOf a).ft = tally a.input emptyTable := by rw [codedOf_eq h]
  have e1 : (codedOf a).bitStream.length = (allSymbols.map fun b => (tableGet (codedOf a).ft b).toNat * (tableGet (codedOf a).clen b).toNat).sum := by
    rw [bitStream_length, sum_map_eq_counts, codedOf_input h]
    refine congrArg List.sum (List.map_congr_left fun b _ => ?_)
    rw [hft, tally_toNat (input_lt a)]
  refine ⟨e1, ?_⟩
  have ht := codedOf_tree h
  have hnode : (stageBuild (stageCount (stageClear a))).node = (mergeAll (tally a.input emptyTable)).1 := by rw [stageCount_clear h]; rfl
  have hroot : (stageBuild (stageCount (stageClear a))).root = rootOf (mergeAll (tally a.input emptyTable)).2 := by rw [stageCount_clear h]; rfl
  by_cases hz : presentSymbols (tally a.input emptyTable) = []
  · have : a.input = [] := by
      rw [List.eq_nil_iff_forall_not_mem]
      intro b hb
      have := (mem_presentSymbols _ _).mpr ((mem_input_iff a b).mp hb)
      rw [hz] at this; simp at this
    have hb : (codedOf a).bitStream = [] := by
      unfold Arch.bitStream; rw [codedOf_input h, this]; rfl
    rw [hb]; simp
  · rcases root_spec (tally a.input emptyTable) with ⟨h1, -⟩ | ⟨-, r, -, -, -, hr⟩
    · exact absurd h1 hz
    · have hsum := tallied_sum a
      rcases (tallied_tree a).root_kind hr with ⟨hk, -⟩ | ⟨hk, -⟩
      · -- a lone leaf: every code has one bit
        have hone : ∀ b ∈ a.input, (tableGet (codedOf a).clen b).toNat ≤ 1 := by
          intro b hb
          obtain ⟨p, hp⟩ := (exists_codePath (tallied_tree a) b).mpr ((leaf_iff_present _ b).mpr ((mem_input_iff a b).mp hb))
          have hcl : (tableGet (codedOf a).clen b).toNat = p.length := by
            rw [codedOf_eq h]
            exact clen_of_holds ((deriveCodes_spec (tallied_tree a) b).1 p hp) (codePath_length (tallied_tree a) hp).2
          rw [hcl]
          obtain ⟨-, ⟨-, -, rfl⟩ | ⟨hk', -⟩⟩ := hp
          · simp
          · rw [hk] at hk'; cases hk'
        rw [bitStream_length, codedOf_input h]
        have : ((a.input.map fun b => (tableGet (codedOf a).clen b).toNat)).sum ≤ (a.input.map fun b => (tableGet (codedOf a).clen b).toNat).length * 1 := by
          apply List.sum_le_card_nsmul
          intro x hx
          obtain ⟨b, hb, rfl⟩ := List.mem_map.mp hx
          exact hone b hb
        rw [List.length_map, input_length] at this
        omega
      · have hc := subCost_mergeAll (tally a.input emptyTable) (by rw [hsum]; exact a.ilen.isLt) hz
        have := (sum_freqBelow (tallied_tree a) 256 (rootOf (mergeAll (tally a.input emptyTable)).2) (by rw [hk]; simp) (by have := (rootOf (mergeAll (tally a.input emptyTable)).2).isLt; omega)).2
        rw [← this, hsum] at hc
        rw [e1]
        refine le_trans (le_of_eq ?_) hc
        refine congrArg List.sum (List.map_congr_left fun b _ => ?_)
        by_cases hb : tableGet (tally a.input emptyTable) b = 0
        · rw [hft, hb]
          have : freqBelow (mergeAll (tally a.input emptyTable)).1 (rootOf (mergeAll (tally a.input emptyTable)).2) b = 0 := by
            unfold freqBelow
            rw [if_neg]
            rintro ⟨q, hq⟩
            exact (leaf_iff_present _ b).mp ((tallied_tree a).leaf_of_leadsTo hq) hb
          rw [this]; simp
        · have hleaf := (leaf_iff_present _ b).mpr hb
          obtain ⟨p, hp⟩ := (exists_codePath (tallied_tree a) b).mpr hleaf
          have hcl : (tableGet (codedOf a).clen b).toNat = p.length := by
            rw [codedOf_eq h]
            exact clen_of_holds ((deriveCodes_spec (tallied_tree a) b).1 p hp) (codePath_length (tallied_tree a) hp).2
          obtain ⟨-, ⟨hk', -⟩ | ⟨-, hl⟩⟩ := hp
          · rw [hk] at hk'; cases hk'
          · rw [hcl, pathLength_eq (tallied_tree a) hl, hft]
            unfold freqBelow
            rw [if_pos ⟨p, hl⟩]
            refine congrArg (· * p.length) ?_
            unfold freqAt
            rw [mergeAll_leaf, leafSlot_freq]

/-- There are no more symbols than bytes. -/
theorem present_le_ilen (a : Arch) : (presentSymbols (tally a.input emptyTable)).length ≤
    a.ilen.toNat := by
  rw [← input_length]
  apply List.Subperm.length_le
  apply List.subperm_of_subset (presentSymbols_nodup _)
  intro b hb
  exact (mem_input_iff a b).mpr ((mem_presentSymbols _ _).mp hb)

/-- All that a COMPRESS that raises no error leaves. -/
theorem compress_ok {s t : State} (h : s.err = false) (hx : exec .compress s = .next t) (ht : t.err
    = false) :
    s.ilen.toNat ≤ s.ibufCap.toNat ∧ ceil8 (codedOf s.toArch).bitStream.length ≤ s.pbufCap.toNat ∧
    t.output = (packedOf s.toArch).blob ∧ t.toArch = complete { packedOf s.toArch with
        obuf := Memory.write (packedOf s.toArch).obuf 0 (packedOf s.toArch).blob, olen := BitVec.ofNat 64
          (packedOf s.toArch).blobSize } ∧
    (packedOf s.toArch).payload = packBits (ceil8 (codedOf s.toArch).bitStream.length) (codedOf s.toArch).bitStream ∧
    (packedOf s.toArch).plen.toNat = ceil8 (codedOf s.toArch).bitStream.length := by
  have ha := exec_arch (by decide) h hx
  simp only [bodyOf] at ha
  rcases compress_cases s.toArch with ⟨g1, e⟩ | ⟨g1, g2, e⟩ | ⟨g1, g2, g3, e⟩ | ⟨g1, g2, g3, e⟩
  · rw [ha, e, complete_raiseError, raiseError_err] at ht; cases ht
  · rw [ha, e, complete_raiseError, raiseError_err] at ht; cases ht
  · rw [ha, e, complete_raiseError, raiseError_err] at ht; cases ht
  · rw [e] at ha
    have hp := packed_payload (a := codedOf s.toArch) (b := packedOf s.toArch) (by rw [codedOf_pbufCap g1]; exact g2) rfl rfl rfl
    refine ⟨g1, g2, ?_, ha, hp.2, hp.1⟩
    have hb : (BitVec.ofNat 64 (packedOf s.toArch).blobSize).toNat = (packedOf s.toArch).blobSize := by
      rw [BitVec.toNat_ofNat]; exact Nat.mod_eq_of_lt (by have := s.obufCap.isLt; omega)
    rw [ha, complete_output]
    unfold Arch.output
    simp only
    rw [hb, ← blob_length]
    exact readsAt_written

/-- The state DECOMPRESS has reached before DECODE (R142). -/
def builtOf (m : Metadata) (a : Arch) : Arch := stageBuild (loadContainer m (stageClear a))

/-- All that DECOMPRESS can do (R142, R145). -/
theorem decompress_cases (a : Arch) :
    (a.ibufCap.toNat < a.ilen.toNat ∧ runStages decompressStages a = raiseError .deserialize .capacity
      a.ilen.toNat (stageClear a)) ∨
    (a.ilen.toNat ≤ a.ibufCap.toNat ∧ ∃ c, parseMetadata a.ibufByte a.ilen.toNat = .rejected c ∧
      runStages decompressStages a = raiseError .deserialize .malformedContainer c (stageClear a)) ∨
    (a.ilen.toNat ≤ a.ibufCap.toNat ∧ ∃ m, parseMetadata a.ibufByte a.ilen.toNat = .accepted m ∧
      a.pbufCap.toNat < a.ilen.toNat - m.offset ∧
      runStages decompressStages a = raiseError .deserialize .capacity (a.ilen.toNat - m.offset)
        (stageClear a)) ∨
    (a.ilen.toNat ≤ a.ibufCap.toNat ∧ ∃ m, parseMetadata a.ibufByte a.ilen.toNat = .accepted m ∧
      a.ilen.toNat - m.offset ≤ a.pbufCap.toNat ∧ runStages decompressStages a = stageDecode (builtOf m
        a)) := by
  unfold decompressStages
  rw [runStages_of_ok stageClear_err]
  rcases stageDeserialize_cases (stageClear a) with ⟨g1, e⟩ | ⟨g1, c, g2, e⟩ | ⟨g1, m, g2, g3, e⟩ | ⟨g1, m, g2, g3, e⟩
  · exact .inl ⟨g1, by rw [runStages_of_err (by rw [e]; exact raiseError_err _ _ _ _), e]; rfl⟩
  · exact .inr (.inl ⟨g1, c, g2, by rw [runStages_of_err (by rw [e]; exact raiseError_err _ _ _ _), e]⟩)
  · exact .inr (.inr (.inl ⟨g1, m, g2, g3, by rw [runStages_of_err (by rw [e]; exact raiseError_err _ _ _ _), e]; rfl⟩))
  · refine .inr (.inr (.inr ⟨g1, m, g2, g3, ?_⟩))
    have e1 : (stageDeserialize (stageClear a)).err = false := by rw [e]; exact stageClear_err (a := a)
    rw [runStages_of_ok e1, e]
    have e2 : (stageBuild (loadContainer m (stageClear a))).err = false := stageClear_err (a := a)
    rw [runStages_of_ok e2]
    unfold runStages
    split <;> rfl

theorem builtOf_err (m : Metadata) (a : Arch) : (builtOf m a).err = false := stageClear_err (a := a)

/-- The tree DECOMPRESS builds is well formed (R31). -/
theorem builtOf_tree {a : Arch} {m : Metadata} (h : parseMetadata a.ibufByte a.ilen.toNat =
    .accepted m) :
    TreeWf (builtOf m a).node (builtOf m a).root (builtOf m a).nleaf := by
  obtain ⟨-, h2, -⟩ := parseMetadata_accepted h
  have e : (builtOf m a).nleaf = BitVec.ofNat 9 (presentSymbols m.table).length := by
    show BitVec.ofNat 9 (initialLive m.table).length = _
    rw [initialLive_length]
  rw [e]
  exact treeWf_mergeAll m.table (by rw [h2]; exact m.count.isLt)

/-- An absent tree belongs to the empty table (R145). -/
theorem builtOf_root {a : Arch} {m : Metadata} (h : parseMetadata a.ibufByte a.ilen.toNat =
    .accepted m)
    (hr : (builtOf m a).root = Config.nil) : (builtOf m a).ocnt = 0 := by
  obtain ⟨-, h2, -⟩ := parseMetadata_accepted h
  rcases root_spec m.table with ⟨h1, -⟩ | ⟨-, r, -, -, -, h1⟩
  · show m.count = 0
    apply BitVec.eq_of_toNat_eq
    rw [← h2, ← presentSymbols_sum, h1]; rfl
  · exact absurd hr h1

theorem loaded_payload (m : Metadata) (a : Arch) : (builtOf m a).payload = readFrom a.ibufByte
    m.offset (a.ilen.toNat - m.offset) := by
  have e6 : readsAt (Memory.read a.seed .pbuf (Memory.write a.pbuf 0 (readFrom a.ibufByte m.offset (a.ilen.toNat - m.offset)))) 0 (readFrom a.ibufByte m.offset (a.ilen.toNat - m.offset)) := readsAt_written
  unfold readsAt at e6
  rw [readFrom_length] at e6
  unfold Arch.payload
  have e5 : (builtOf m a).plen.toNat = a.ilen.toNat - m.offset := by
    show (BitVec.ofNat 64 (a.ilen.toNat - m.offset)).toNat = _
    rw [BitVec.toNat_ofNat]; exact Nat.mod_eq_of_lt (by have := a.ilen.isLt; omega)
  rw [e5]
  exact e6

theorem readFrom_drop (a : Arch) (k : Nat) (h : k ≤ a.ilen.toNat) : a.input.drop k = readFrom
    a.ibufByte k (a.ilen.toNat - k) := by
  unfold Arch.input
  have : a.ilen.toNat = k + (a.ilen.toNat - k) := by omega
  rw [this, readFrom_append, List.drop_append_of_le_length (by simp)]
  rw [List.drop_of_length_le (by simp)]
  simp

/-- What a DECOMPRESS that decodes to `xs` leaves. -/
theorem decompress_stores {s : State} {m : Metadata} {xs : List Byte} (h : s.err = false) (g1 :
    s.ilen.toNat ≤ s.ibufCap.toNat)
    (g2 : parseMetadata s.ibufByte s.ilen.toNat = .accepted m) (g3 : s.ilen.toNat - m.offset ≤
      s.pbufCap.toNat)
    (hl : xs.length = m.count.toNat) (hd : stageDecode (builtOf m s.toArch) = storeDecoded xs (builtOf m
      s.toArch)) :
    ∃ t, exec .decompress s = .next t ∧ t.status = 1 ∧ t.errcode = 0 ∧ t.output = xs ∧
      t.olen = m.count ∧ t.ocnt = m.count ∧ t.ft = m.table ∧
      (∀ b, tableGet t.clen b = 0 ∧ tableGet t.code b = 0) := by
  refine ⟨_, exec_of_ok_ne h (by decide), ?_⟩
  simp only [bodyOf]
  rcases decompress_cases s.toArch with ⟨k1, e⟩ | ⟨k1, c, k2, e⟩ | ⟨k1, m', k2, k3, e⟩ | ⟨k1, m', k2, k3, e⟩
  · omega
  · rw [g2] at k2; cases k2
  · rw [g2] at k2; cases k2; omega
  · rw [g2] at k2; cases k2
    rw [e, hd]
    obtain ⟨f1, f2⟩ := storeDecoded_spec (a := builtOf m s.toArch) (b := complete (storeDecoded xs (builtOf m s.toArch))) hl rfl
    refine ⟨complete_status_of_ok (builtOf_err m s.toArch), complete_errcode _, f1, f2, complete_ocnt _, complete_ft _, fun b => ⟨?_, ?_⟩⟩
    · rw [complete_clen]; exact tableGet_replicate _ _
    · rw [complete_code]; exact tableGet_replicate _ _

/-- The blob of the empty input (R147). -/
theorem readFrom_zeros_blob : metadataBytes emptyTable 0 = List.replicate 10 0 := by
  have hp : presentSymbols emptyTable = [] := by
    rw [List.eq_nil_iff_forall_not_mem]; intro b hb; exact (mem_presentSymbols _ _).mp hb (tableGet_emptyTable b)
  unfold metadataBytes
  rw [hp]
  decide

theorem present_empty : presentSymbols emptyTable = [] := by
  rw [List.eq_nil_iff_forall_not_mem]; intro b hb; exact (mem_presentSymbols _ _).mp hb (tableGet_emptyTable b)

theorem root_empty : rootOf (mergeAll emptyTable).2 = Config.nil := by
  rcases root_spec emptyTable with ⟨-, h2⟩ | ⟨h2, -⟩
  · exact h2
  · exact absurd present_empty h2

theorem packedOf_err {a : Arch} (h : a.ilen.toNat ≤ a.ibufCap.toNat) (m : Memory) (n : Word64) :
    Arch.err { packedOf a with obuf := m, olen := n } = false := by
  have e : ({ packedOf a with obuf := m, olen := n } : Arch).status = (codedOf a).status := rfl
  exact (err_congr e).trans (codedOf_err h)

theorem packedOf_empty {a : Arch} (hz : a.ilen = 0) : packedOf a = { stageClear a with
    ft := emptyTable, ocnt := 0, node := (mergeAll emptyTable).1, root := Config.nil, nleaf := 0,
    clen := Codebook.empty.clen, code := Codebook.empty.code, plen := 0, nbits := 0 } := by
  have hin : a.input = [] := by unfold Arch.input; rw [hz]; rfl
  have hl : a.ilen.toNat ≤ a.ibufCap.toNat := by rw [hz]; simp
  have hb : (codedOf a).bitStream = [] := by unfold Arch.bitStream; rw [codedOf_input hl, hin]; rfl
  have hd : deriveCodes (mergeAll emptyTable).1 Config.nil = Codebook.empty := by rw [deriveCodes, if_pos rfl]
  unfold packedOf
  rw [hb, codedOf_eq hl, hin, hz]
  simp only [tally, root_empty, initialLive_length, present_empty, hd]
  rfl

/-- What COMPRESS and DECOMPRESS read, and leave. -/
structure Alike (a b : Arch) : Prop extends SameResults a b where
  ilen : a.ilen = b.ilen
  input : a.input = b.input
  ibufCap : a.ibufCap = b.ibufCap
  pbufCap : a.pbufCap = b.pbufCap
  obufCap : a.obufCap = b.obufCap

theorem alike_clear {a b : Arch} (h1 : a.ilen = b.ilen) (h2 : a.input = b.input) (h3 : a.ibufCap =
    b.ibufCap)
    (h4 : a.pbufCap = b.pbufCap) (h5 : a.obufCap = b.obufCap) : Alike (stageClear a) (stageClear b) :=
  ⟨⟨rfl, rfl, rfl, rfl, rfl, rfl, rfl, rfl, rfl, rfl, (payload_of_zero rfl).trans (payload_of_zero rfl).symm,
    (output_of_zero rfl).trans (output_of_zero rfl).symm, rfl, rfl, rfl, rfl⟩, h1, h2, h3, h4, h5⟩

theorem alike_raise {a b : Arch} (h : Alike a b) (i k n) : Alike (raiseError i k n a) (raiseError i
    k n b) := by
  obtain ⟨⟨e1, e2, e3, e4, e5, e6, e7, e8, e9, e10, e11, e12, -, -, -, -⟩, f1, f2, f3, f4, f5⟩ := h
  cases i <;> refine ⟨⟨?_, ?_, ?_, ?_, ?_, ?_, ?_, ?_, ?_, ?_, ?_, ?_, rfl, rfl, rfl, rfl⟩, ?_, ?_, ?_, ?_, ?_⟩ <;>
    first | assumption | rfl

theorem alike_complete {a b : Arch} (h : Alike a b) : Alike (complete a) (complete b) := by
  have he := err_congr h.status
  obtain ⟨⟨e1, e2, e3, e4, e5, e6, e7, e8, e9, e10, e11, e12, e13, e14, e15, e16⟩, f1, f2, f3, f4, f5⟩ := h
  by_cases hh : a.err = true
  · rw [complete_of_err hh, complete_of_err (he ▸ hh)]
    exact ⟨⟨e1, e2, e3, e4, e5, e6, e7, e8, e9, e10, e11, e12, e13, e14, e15, e16⟩, f1, f2, f3, f4, f5⟩
  · have hf : a.err = false := by simpa using hh
    rw [complete_eq hf, complete_eq (he ▸ hf)]
    exact ⟨⟨e1, e2, e3, e4, e5, e6, e7, e8, e9, e10, e11, e12, rfl, e14, e15, e16⟩, f1, f2, f3, f4, f5⟩

theorem alike_count {a b : Arch} (h : Alike a b) : Alike (stageCount a) (stageCount b) := by
  by_cases g1 : a.ibufCap.toNat < a.ilen.toNat
  · rw [stageCount_of_gt g1]
    rw [h.ibufCap, h.ilen] at g1
    rw [stageCount_of_gt g1, h.ilen]
    exact alike_raise h _ _ _
  · rw [stageCount_of_le (by omega)]
    rw [h.ibufCap, h.ilen] at g1
    rw [stageCount_of_le (by omega)]
    exact { h with ft := congrArg (fun l => tally l emptyTable) h.input, ocnt := h.ilen }

theorem alike_build {a b : Arch} (h : Alike a b) : Alike (stageBuild a) (stageBuild b) := by
  exact { h with
    node := congrArg (fun f => (mergeAll f).1) h.ft
    root := congrArg (fun f => rootOf (mergeAll f).2) h.ft
    nleaf := congrArg (fun f => BitVec.ofNat 9 (initialLive f).length) h.ft }

theorem alike_codes {a b : Arch} (h : Alike a b) : Alike (stageCodes a) (stageCodes b) := by
  exact { h with
    clen := by rw [stageCodes_clen, stageCodes_clen, h.node, h.root]
    code := by rw [stageCodes_code, stageCodes_code, h.node, h.root] }

theorem alike_pack {a b : Arch} (h : Alike a b) : Alike (stagePack a) (stagePack b) := by
  have hs : a.bitStream = b.bitStream := by
    unfold Arch.bitStream; rw [h.input, codeBits_congr h.clen h.code]
  have key := pack_congr (err_congr h.status) h.input h.ilen h.clen h.code h.ibufCap h.pbufCap
  rcases stagePack_cases a with ⟨g1, e⟩ | ⟨g1, i, g2, e⟩ | ⟨g1, g2, g3, e⟩ | ⟨g1, g2, g3, e⟩
  · rw [h.ibufCap, h.ilen] at g1
    rw [e, stagePack_of_gt g1, h.ilen]; exact alike_raise h _ _ _
  · rw [h.ibufCap, h.ilen] at g1
    rw [h.clen, h.input] at g2
    rw [e, stagePack_of_uncoded g1 g2]; exact alike_raise h _ _ _
  · rw [h.ibufCap, h.ilen] at g1
    rw [h.clen, h.input] at g2
    rw [h.pbufCap, hs] at g3
    rw [e, stagePack_of_full g1 g2 g3, hs]; exact alike_raise h _ _ _
  · rw [h.ibufCap, h.ilen] at g1
    rw [h.clen, h.input] at g2
    rw [h.pbufCap, hs] at g3
    have e' := stagePack_of_ok g1 g2 g3
    have := key.2.2.1
    rw [e, e'] at this ⊢
    exact { h with plen := by simp only [hs], nbits := by simp only [hs], payload := this }

theorem blob_congr {a b : Arch} (h : Alike a b) : a.blob = b.blob := by
  unfold Arch.blob; rw [h.ft, h.ocnt, h.payload]

theorem alike_serialize {a b : Arch} (h : Alike a b) : Alike (stageSerialize a) (stageSerialize b)
    := by
  have hs : a.blobSize = b.blobSize := by unfold Arch.blobSize; rw [h.ft, h.plen]
  by_cases g : a.obufCap.toNat < a.blobSize
  · rw [stageSerialize_of_gt g]
    rw [hs, h.obufCap] at g
    rw [stageSerialize_of_gt g, hs]; exact alike_raise h _ _ _
  · have o1 := serialized_output (a := a) (by omega)
    rw [stageSerialize_of_le (by omega)]
    rw [hs, h.obufCap] at g
    have o2 := serialized_output (a := b) (by omega)
    rw [stageSerialize_of_le (by omega)]
    exact { h with olen := by simp only [hs], output := by rw [o1, o2, blob_congr h] }

theorem ibufByte_congr {a b : Arch} (h : Alike a b) {j : Nat} (hj : j < a.ilen.toNat) : a.ibufByte j
    = b.ibufByte j := by
  have e := congrArg (fun l => l[j]?) h.input
  simp only [input_getElem?] at e
  rw [if_pos hj, if_pos (by rw [← h.ilen]; exact hj)] at e
  exact Option.some.inj e

theorem alike_deserialize {a b : Arch} (h : Alike a b) : Alike (stageDeserialize a)
    (stageDeserialize b) := by
  have hrd : ∀ j, j < a.ilen.toNat → a.ibufByte j = b.ibufByte j := fun j => ibufByte_congr h
  have hpar : parseMetadata a.ibufByte a.ilen.toNat = parseMetadata b.ibufByte b.ilen.toNat := by
    rw [parseMetadata_congr hrd, h.ilen]
  rcases stageDeserialize_cases a with ⟨g1, e⟩ | ⟨g1, c, g2, e⟩ | ⟨g1, m, g2, g3, e⟩ | ⟨g1, m, g2, g3, e⟩
  · rw [h.ibufCap, h.ilen] at g1
    rw [e, stageDeserialize_of_gt g1, h.ilen]; exact alike_raise h _ _ _
  · rw [h.ibufCap, h.ilen] at g1
    rw [hpar] at g2
    rw [e, stageDeserialize_of_rejected g1 g2]; exact alike_raise h _ _ _
  · rw [h.ibufCap, h.ilen] at g1
    rw [hpar] at g2
    rw [h.pbufCap, h.ilen] at g3
    rw [e, stageDeserialize_of_full g1 g2 g3, h.ilen]; exact alike_raise h _ _ _
  · have hoff := (parseMetadata_accepted g2).2.2.2.1
    rw [h.ibufCap, h.ilen] at g1
    rw [hpar] at g2
    rw [h.pbufCap, h.ilen] at g3
    rw [e, stageDeserialize_of_ok g1 g2 g3]
    have hp : (loadContainer m a).payload = (loadContainer m b).payload := by
      rw [loadContainer_payload, loadContainer_payload, ← h.ilen]
      exact readFrom_congr fun j _ h2 => hrd j (by omega)
    exact { h with
      ft := rfl, ocnt := rfl, plen := by simp only [loadContainer, h.ilen], nbits := by simp only [loadContainer, h.ilen], payload := hp }

theorem alike_decode {a b : Arch} (h : Alike a b) : Alike (stageDecode a) (stageDecode b) := by
  have hr := decodeResult_congr h.node h.root h.payload h.ocnt h.obufCap
  have key := decode_congr (err_congr h.status) h.node h.root h.payload h.ocnt h.obufCap
  rcases stageDecode_cases a with ⟨o, e1, l1, -, s1⟩ | ⟨k, n, e1, -, s1⟩ <;>
  rcases stageDecode_cases b with ⟨o', e2, l2, -, s2⟩ | ⟨k', n', e2, -, s2⟩
  · rw [hr, e2] at e1
    cases e1
    have := key.2.1
    rw [s1, s2] at this ⊢
    exact { h with olen := h.ocnt, output := this }
  · rw [hr, e2] at e1; cases e1
  · rw [hr, e2] at e1; cases e1
  · rw [hr, e2] at e1
    cases e1
    rw [s1, s2]
    exact alike_raise h _ _ _

theorem alike_run {fs : List (Arch → Arch)} (hfs : ∀ f ∈ fs, ∀ a b, Alike a b → Alike (f a) (f b))
    {a b : Arch} (h : Alike a b) :
    Alike (runStages fs a) (runStages fs b) := by
  induction fs generalizing a b with
  | nil => exact h
  | cons f fs ih =>
    have hf := hfs f (by simp) a b h
    have he := err_congr hf.status
    by_cases hh : (f a).err = true
    · rw [runStages_of_err hh, runStages_of_err (he ▸ hh)]; exact hf
    · have hh' : (f a).err = false := by simpa using hh
      rw [runStages_of_ok hh', runStages_of_ok (he ▸ hh')]
      exact ih (fun g hg => hfs g (by simp [hg])) hf

/-- What a sequence keeps of its input's side, and of the bytes it does not store. -/
structure SeqFrame (a b : Arch) : Prop where
  ibuf : b.ibuf = a.ibuf
  ilen : b.ilen = a.ilen
  ibufCap : b.ibufCap = a.ibufCap
  pbufCap : b.pbufCap = a.pbufCap
  obufCap : b.obufCap = a.obufCap
  seed : b.seed = a.seed
  pbytes : ∀ k, b.plen.toNat ≤ k → b.pbufByte k = a.pbufByte k
  obytes : ∀ k, b.olen.toNat ≤ k → b.obufByte k = a.obufByte k

theorem SeqFrame.complete {a b : Arch} (h : SeqFrame a b) : SeqFrame a (complete b) := by
  refine ⟨?_, ?_, ?_, ?_, ?_, ?_, fun k hk => ?_, fun k hk => ?_⟩
  · rw [complete_ibuf]; exact h.ibuf
  · rw [complete_ilen]; exact h.ilen
  · rw [complete_ibufCap]; exact h.ibufCap
  · rw [complete_pbufCap]; exact h.pbufCap
  · rw [complete_obufCap]; exact h.obufCap
  · rw [complete_seed]; exact h.seed
  · rw [pbuf_of (complete_pbuf b) (complete_seed b)]; rw [complete_plen] at hk; exact h.pbytes k hk
  · rw [obuf_of (complete_obuf b) (complete_seed b)]; rw [complete_olen] at hk; exact h.obytes k hk

theorem raise_frame {a b : Arch} (h : SeqFrame a b) (ho : b.olen = 0) {i : Instr} (hp : b.plen = 0 ∨
    i = .serialize ∨ i = .decode) (k n) :
    SeqFrame a (raiseError i k n b) := by
  obtain ⟨h1, h2, h3, h4, h5, h6, h7, h8⟩ := h
  have h8' : ∀ k, b.obufByte k = a.obufByte k := fun k => h8 k (by rw [ho]; simp)
  rcases hp with hp | rfl | rfl
  · have h7' : ∀ k, b.pbufByte k = a.pbufByte k := fun k => h7 k (by rw [hp]; simp)
    cases i <;> exact ⟨h1, h2, h3, h4, h5, h6, fun k _ => h7' k, fun k _ => h8' k⟩
  · exact ⟨h1, h2, h3, h4, h5, h6, h7, fun k _ => h8' k⟩
  · exact ⟨h1, h2, h3, h4, h5, h6, h7, fun k _ => h8' k⟩

theorem clear_frame (a : Arch) : SeqFrame a (stageClear a) := ⟨rfl, rfl, rfl, rfl, rfl, rfl, fun _ _
    => rfl, fun _ _ => rfl⟩

theorem coded_frame {a : Arch} (g : a.ilen.toNat ≤ a.ibufCap.toNat) : SeqFrame a (codedOf a) := by
  rw [codedOf_eq g]; exact ⟨rfl, rfl, rfl, rfl, rfl, rfl, fun _ _ => rfl, fun _ _ => rfl⟩

/-- Storing a payload of its own length from index 0. -/
theorem SeqFrame.storePbuf {a b : Arch} (h : SeqFrame a b) (hp : b.plen = 0) {bs : List Byte} {n m :
    Word64} (hn : bs.length = n.toNat) :
    SeqFrame a { b with pbuf := Memory.write b.pbuf 0 bs, plen := n, nbits := m } := by
  obtain ⟨h1, h2, h3, h4, h5, h6, h7, h8⟩ := h
  refine ⟨h1, h2, h3, h4, h5, h6, fun k hk => ?_, h8⟩
  exact (pbuf_written (a := b) (b := { b with pbuf := Memory.write b.pbuf 0 bs, plen := n, nbits := m }) (bs := bs) rfl rfl (by rw [hn]; exact hk)).trans (h7 k (by rw [hp]; simp))

theorem SeqFrame.storeObuf {a b : Arch} (h : SeqFrame a b) (hp : b.olen = 0) {bs : List Byte} {n :
    Word64} (hn : bs.length = n.toNat) :
    SeqFrame a { b with obuf := Memory.write b.obuf 0 bs, olen := n } := by
  obtain ⟨h1, h2, h3, h4, h5, h6, h7, h8⟩ := h
  refine ⟨h1, h2, h3, h4, h5, h6, h7, fun k hk => ?_⟩
  exact (obuf_written (a := b) (b := { b with obuf := Memory.write b.obuf 0 bs, olen := n }) (bs := bs) rfl rfl (by rw [hn]; exact hk)).trans (h8 k (by rw [hp]; simp))

theorem packed_frame {a : Arch} (g1 : a.ilen.toNat ≤ a.ibufCap.toNat) (g2 : ceil8 (codedOf
    a).bitStream.length ≤ a.pbufCap.toNat) :
    SeqFrame a (packedOf a) := by
  refine (coded_frame g1).storePbuf ?_ ?_
  · rw [codedOf_eq g1]; rfl
  · rw [packBits_length, BitVec.toNat_ofNat, Nat.mod_eq_of_lt (by have := a.pbufCap.isLt; omega)]

theorem packed_olen {a : Arch} (g1 : a.ilen.toNat ≤ a.ibufCap.toNat) : (packedOf a).olen = 0 := by
  unfold packedOf; rw [codedOf_eq g1]; rfl

/-- The frame of COMPRESS. -/
theorem compress_frame (a : Arch) : SeqFrame a (runStages compressStages a) := by
  rcases compress_cases a with ⟨g1, e⟩ | ⟨g1, g2, e⟩ | ⟨g1, g2, g3, e⟩ | ⟨g1, g2, g3, e⟩
  · rw [e]; exact raise_frame (clear_frame a) rfl (.inl rfl) _ _
  · rw [e]
    exact raise_frame (coded_frame g1) (by rw [codedOf_eq g1]; rfl) (.inl (by rw [codedOf_eq g1]; rfl)) _ _
  · rw [e]; exact raise_frame (packed_frame g1 g2) (packed_olen g1) (.inr (.inl rfl)) _ _
  · rw [e]
    refine (packed_frame g1 g2).storeObuf (packed_olen g1) ?_
    rw [blob_length, BitVec.toNat_ofNat, Nat.mod_eq_of_lt (by have := a.obufCap.isLt; omega)]

/-- The frame of DECOMPRESS. -/
theorem decompress_frame (a : Arch) : SeqFrame a (runStages decompressStages a) := by
  rcases decompress_cases a with ⟨g1, e⟩ | ⟨g1, c, g2, e⟩ | ⟨g1, m, g2, g3, e⟩ | ⟨g1, m, g2, g3, e⟩
  · rw [e]; exact ⟨rfl, rfl, rfl, rfl, rfl, rfl, fun _ _ => rfl, fun _ _ => rfl⟩
  · rw [e]; exact ⟨rfl, rfl, rfl, rfl, rfl, rfl, fun _ _ => rfl, fun _ _ => rfl⟩
  · rw [e]; exact ⟨rfl, rfl, rfl, rfl, rfl, rfl, fun _ _ => rfl, fun _ _ => rfl⟩
  · rw [e]
    have e5 : (builtOf m a).plen.toNat = a.ilen.toNat - m.offset := by
      show (BitVec.ofNat 64 (a.ilen.toNat - m.offset)).toNat = _
      rw [BitVec.toNat_ofNat]; exact Nat.mod_eq_of_lt (by have := a.ilen.isLt; omega)
    have hpb : ∀ k, a.ilen.toNat - m.offset ≤ k → (builtOf m a).pbufByte k = a.pbufByte k := fun k hk =>
      pbuf_written (a := a) (b := builtOf m a) (bs := readFrom a.ibufByte m.offset (a.ilen.toNat - m.offset)) rfl rfl (by rw [readFrom_length]; exact hk)
    rcases stageDecode_cases (builtOf m a) with ⟨o, e1, l1, -, s1⟩ | ⟨k, n, e1, -, s1⟩
    · rw [s1]
      exact SeqFrame.storeObuf (a := a) (b := builtOf m a) ⟨rfl, rfl, rfl, rfl, rfl, rfl, fun k hk => hpb k (by rw [← e5]; exact hk), fun _ _ => rfl⟩ rfl l1
    · rw [s1]
      exact ⟨rfl, rfl, rfl, rfl, rfl, rfl, fun k hk => hpb k (by rw [← e5]; exact hk), fun _ _ => rfl⟩

end Sys2Proof.Machine
end

