-- ==== Sys2Proof/Laws/Invariants.lean ====
section
/-!
SUPPORT. The invariants of R39: each body, CLEAR and completion keep them.
-/

namespace Sys2Proof.Machine

/-- A command that is one stage of its own (R64: not COMPRESS, DECOMPRESS; and not CLEAR). -/
def isUnit (i : Instr) : Prop := i ≠ .clear ∧ i ≠ .compress ∧ i ≠ .decompress

/-- What CLEAR, the bodies of the unit commands and completion keep, every command keeps. -/
theorem resultOf_keeps {P : Arch → Prop} (hclear : ∀ a, P a → P (stageClear a))
    (hbody : ∀ i, isUnit i → ∀ a, P a → P (bodyOf i a)) (hcomplete : ∀ a, P a → P (complete a)) (i :
      Instr) {a : Arch} (h : P a) :
    P (resultOf i a) := by
  have hs : ∀ f ∈ compressStages, ∀ a, P a → P (f a) := by
    intro f hf a ha
    simp only [compressStages, List.mem_cons, List.not_mem_nil, or_false] at hf
    rcases hf with rfl | rfl | rfl | rfl | rfl | rfl
    · exact hclear a ha
    · exact hbody .count ⟨by decide, by decide, by decide⟩ a ha
    · exact hbody .build ⟨by decide, by decide, by decide⟩ a ha
    · exact hbody .codes ⟨by decide, by decide, by decide⟩ a ha
    · exact hbody .pack ⟨by decide, by decide, by decide⟩ a ha
    · exact hbody .serialize ⟨by decide, by decide, by decide⟩ a ha
  have hd : ∀ f ∈ decompressStages, ∀ a, P a → P (f a) := by
    intro f hf a ha
    simp only [decompressStages, List.mem_cons, List.not_mem_nil, or_false] at hf
    rcases hf with rfl | rfl | rfl | rfl
    · exact hclear a ha
    · exact hbody .deserialize ⟨by decide, by decide, by decide⟩ a ha
    · exact hbody .build ⟨by decide, by decide, by decide⟩ a ha
    · exact hbody .decode ⟨by decide, by decide, by decide⟩ a ha
  cases i with
  | clear => exact hclear a h
  | compress => exact hcomplete _ (runStages_keeps hs h)
  | decompress => exact hcomplete _ (runStages_keeps hd h)
  | _ => exact hcomplete _ (hbody _ ⟨by decide, by decide, by decide⟩ a h)

/-- What holds of the status registers inside a run of stages, before completion (R157, R158). -/
structure StatusMid (a : Arch) : Prop where
  raised : a.err = true → a.status = 2 ∧ a.errcode ≠ 0
  range : a.errcode.toNat ≤ 6
  clean : a.err = false → a.errcode = 0 ∧ a.errinfo = 0 ∧ a.errcmd = 0

theorem StatusMid.ok {a : Arch} (h : StatusMid a) : (complete a).StatusOk := by
  by_cases he : a.err = true
  · rw [complete_of_err he]
    obtain ⟨h1, h2⟩ := h.raised he
    refine ⟨?_, ?_, h.range, fun hf => ?_, fun hf => ?_⟩
    · unfold Arch.done; rw [h1]; simp
    · rw [he]; simpa using h2
    · rw [he] at hf; cases hf
    · rw [he] at hf; cases hf
  · have hf : a.err = false := by simpa using he
    obtain ⟨h1, h2, h3⟩ := h.clean hf
    have he' : (complete a).err = false := by rw [complete_err]; exact hf
    refine ⟨?_, ?_, by rw [complete_errcode]; exact h.range, fun _ => by rw [complete_errinfo]; exact h2, fun _ => by rw [complete_errcmd]; exact h3⟩
    · rw [he']; simp
    · rw [he', complete_errcode, h1]; simp

theorem StatusMid.of_ok {a : Arch} (h : a.StatusOk) (he : a.err = false) : StatusMid a :=
  ⟨fun ht => absurd (he.symm.trans ht) (by decide), h.code_range, fun hf => ⟨h.err_iff.mp hf, h.info_zero hf, h.cmd_zero hf⟩⟩

theorem statusMid_raise (i k n a) : StatusMid (raiseError i k n a) := by
  refine ⟨fun _ => ⟨rfl, ?_⟩, ?_, fun h => ?_⟩
  · show k.errcode ≠ 0; cases k <;> decide
  · show k.errcode.toNat ≤ 6; cases k <;> decide
  · rw [raiseError_err] at h; cases h

theorem statusMid_body {i : Instr} (hi : isUnit i) (a : Arch) (h : StatusMid a) : StatusMid (bodyOf
    i a) := by
  rcases body_cases hi.1 hi.2.1 hi.2.2 a with ⟨k, n, -, e⟩ | ⟨e1, e2, e3, e4⟩
  · rw [e]; exact statusMid_raise _ _ _ _
  · have he := err_congr e1
    exact ⟨fun ht => by rw [e1, e2]; exact h.raised (he ▸ ht), by rw [e2]; exact h.range, fun hf => by rw [e2, e3, e4]; exact h.clean (he ▸ hf)⟩

theorem statusMid_clear (a : Arch) : StatusMid (stageClear a) :=
  ⟨fun h => absurd (stageClear_err.symm.trans h) (by decide), by show (0 : Byte).toNat ≤ 6; decide, fun _ => ⟨rfl, rfl, rfl⟩⟩

theorem caps_of {a b : Arch} (h : a.capsOk) (h1 : b.ibufCap = a.ibufCap) (h2 : b.pbufCap =
    a.pbufCap) (h3 : b.obufCap = a.obufCap) : b.capsOk := by
  unfold Arch.capsOk at *; rw [h1, h2, h3]; exact h

theorem lengths_of {a b : Arch} (h : a.LengthsOk) (h1 : b.plen = a.plen) (h2 : b.nbits = a.nbits)
    (h3 : b.olen = a.olen)
   (h4 : b.pbufCap = a.pbufCap) (h5 : b.obufCap = a.obufCap) : b.LengthsOk := by
  obtain ⟨g1, g2, g3, g4⟩ := h
  exact ⟨by rw [h1, h4]; exact g1, by rw [h3, h5]; exact g2, by rw [h1, h2]; exact g3, by rw [h1, h2]; exact g4⟩

theorem lengths_raise {a : Arch} (h : a.capsOk ∧ a.LengthsOk) (i k n) : (raiseError i k n a).capsOk
    ∧ (raiseError i k n a).LengthsOk := by
  obtain ⟨h1, h2, h3, h4, h5⟩ := h
  refine ⟨by cases i <;> exact h1, ?_⟩
  cases i <;> first
    | exact ⟨h2, h3, h4, h5⟩
    | exact ⟨Nat.zero_le _, h3, Nat.zero_le _, by show 8 * 0 < 0 + 8; omega⟩
    | exact ⟨h2, Nat.zero_le _, h4, h5⟩

/-- Each body keeps the lengths in range (R18 to R20). -/
theorem lengths_body {i : Instr} (hi : isUnit i) (a : Arch) (h : a.capsOk ∧ a.LengthsOk) : (bodyOf i
    a).capsOk ∧ (bodyOf i a).LengthsOk := by
  obtain ⟨hc, hl⟩ := h
  have hcap := caps_le hc
  cases i with
  | clear => exact absurd rfl hi.1
  | compress => exact absurd rfl hi.2.1
  | decompress => exact absurd rfl hi.2.2
  | count =>
    simp only [bodyOf]
    by_cases g : a.ibufCap.toNat < a.ilen.toNat
    · rw [stageCount_of_gt g]; exact lengths_raise ⟨hc, hl⟩ _ _ _
    · rw [stageCount_of_le (by omega)]; exact ⟨hc, lengths_of hl rfl rfl rfl rfl rfl⟩
  | build => exact ⟨hc, lengths_of hl rfl rfl rfl rfl rfl⟩
  | codes => exact ⟨hc, lengths_of hl rfl rfl rfl rfl rfl⟩
  | pack =>
    simp only [bodyOf]
    rcases stagePack_cases a with ⟨-, e⟩ | ⟨-, i, -, e⟩ | ⟨-, -, -, e⟩ | ⟨g1, g2, g3, e⟩
    · rw [e]; exact lengths_raise ⟨hc, hl⟩ _ _ _
    · rw [e]; exact lengths_raise ⟨hc, hl⟩ _ _ _
    · rw [e]; exact lengths_raise ⟨hc, hl⟩ _ _ _
    · rw [e]
      have h1 := length_le_ceil8 a.bitStream.length
      have h2 := ceil8_lt a.bitStream.length
      have e1 : (BitVec.ofNat 64 (ceil8 a.bitStream.length)).toNat = ceil8 a.bitStream.length := by
        rw [BitVec.toNat_ofNat, Nat.mod_eq_of_lt (by omega)]
      have e2 : (BitVec.ofNat 64 a.bitStream.length).toNat = a.bitStream.length := by
        rw [BitVec.toNat_ofNat, Nat.mod_eq_of_lt (by omega)]
      refine ⟨hc, ?_, hl.olen_le, ?_, ?_⟩
      · show (BitVec.ofNat 64 (ceil8 a.bitStream.length)).toNat ≤ _; rw [e1]; exact g3
      · show (BitVec.ofNat 64 a.bitStream.length).toNat ≤ 8 * (BitVec.ofNat 64 (ceil8 a.bitStream.length)).toNat; omega
      · show 8 * (BitVec.ofNat 64 (ceil8 a.bitStream.length)).toNat < (BitVec.ofNat 64 a.bitStream.length).toNat + 8; omega
  | serialize =>
    simp only [bodyOf]
    by_cases g : a.obufCap.toNat < a.blobSize
    · rw [stageSerialize_of_gt g]; exact lengths_raise ⟨hc, hl⟩ _ _ _
    · have e1 := blobSize_lt (a := a) (by omega)
      rw [stageSerialize_of_le (by omega)]
      refine ⟨hc, hl.plen_le, ?_, hl.nbits_le, hl.padding_lt⟩
      show (BitVec.ofNat 64 a.blobSize).toNat ≤ a.obufCap.toNat; omega
  | deserialize =>
    simp only [bodyOf]
    rcases stageDeserialize_cases a with ⟨g1, e⟩ | ⟨g1, c, g2, e⟩ | ⟨g1, m, g2, g3, e⟩ | ⟨g1, m, g2, g3, e⟩
    · rw [e]; exact lengths_raise ⟨hc, hl⟩ _ _ _
    · rw [e]; exact lengths_raise ⟨hc, hl⟩ _ _ _
    · rw [e]; exact lengths_raise ⟨hc, hl⟩ _ _ _
    · rw [e]
      have e1 : (BitVec.ofNat 64 (a.ilen.toNat - m.offset)).toNat = a.ilen.toNat - m.offset := by
        rw [BitVec.toNat_ofNat, Nat.mod_eq_of_lt (by omega)]
      have e2 : (BitVec.ofNat 64 (8 * (a.ilen.toNat - m.offset))).toNat = 8 * (a.ilen.toNat - m.offset) := by
        rw [BitVec.toNat_ofNat, Nat.mod_eq_of_lt (by omega)]
      refine ⟨hc, ?_, hl.olen_le, ?_, ?_⟩
      · show (BitVec.ofNat 64 (a.ilen.toNat - m.offset)).toNat ≤ a.pbufCap.toNat; omega
      · show (BitVec.ofNat 64 (8 * (a.ilen.toNat - m.offset))).toNat ≤ 8 * (BitVec.ofNat 64 (a.ilen.toNat - m.offset)).toNat; omega
      · show 8 * (BitVec.ofNat 64 (a.ilen.toNat - m.offset)).toNat < (BitVec.ofNat 64 (8 * (a.ilen.toNat - m.offset))).toNat + 8; omega
  | decode =>
    simp only [bodyOf]
    rcases stageDecode_cases a with ⟨o, e1, l1, l2, e⟩ | ⟨k, n, e1, -, e⟩
    · rw [e]
      refine ⟨hc, hl.plen_le, ?_, hl.nbits_le, hl.padding_lt⟩
      show a.ocnt.toNat ≤ a.obufCap.toNat
      by_cases ho : o = []
      · rw [← l1, ho]; exact Nat.zero_le _
      · rw [← l1]; exact l2 ho
    · rw [e]; exact lengths_raise ⟨hc, hl⟩ _ _ _

theorem lengths_complete (a : Arch) (h : a.capsOk ∧ a.LengthsOk) : (complete a).capsOk ∧ (complete
    a).LengthsOk :=
  ⟨caps_of h.1 (by simp) (by simp) (by simp), lengths_of h.2 (by simp) (by simp) (by simp) (by simp) (by simp)⟩

theorem lengths_clear (a : Arch) (h : a.capsOk ∧ a.LengthsOk) : (stageClear a).capsOk ∧ (stageClear
    a).LengthsOk :=
  ⟨h.1, Nat.zero_le _, Nat.zero_le _, Nat.zero_le _, by show 8 * 0 < 0 + 8; omega⟩

theorem counts_empty {a : Arch} (h1 : a.ft = emptyTable) (h2 : a.ocnt = 0) : a.CountsOk := by
  unfold Arch.CountsOk; rw [h1, h2, tableSum_emptyTable]; rfl

/-- Each body keeps the frequencies summing to the count (R39 (a)). -/
theorem counts_body {i : Instr} (hi : isUnit i) (a : Arch) (h : a.CountsOk) : (bodyOf i a).CountsOk
    := by
  have raise : ∀ i k n, (raiseError i k n a).CountsOk := by
    intro i k n
    cases i with
    | count => exact counts_empty rfl rfl
    | deserialize => exact counts_empty rfl rfl
    | _ => exact h
  cases i with
  | clear => exact absurd rfl hi.1
  | compress => exact absurd rfl hi.2.1
  | decompress => exact absurd rfl hi.2.2
  | count =>
    simp only [bodyOf]
    by_cases g : a.ibufCap.toNat < a.ilen.toNat
    · rw [stageCount_of_gt g]; exact raise _ _ _
    · rw [stageCount_of_le (by omega)]; exact tallied_sum a
  | build => exact h
  | codes => exact h
  | pack =>
    simp only [bodyOf]
    rcases stagePack_cases a with ⟨-, e⟩ | ⟨-, i, -, e⟩ | ⟨-, -, -, e⟩ | ⟨g1, g2, g3, e⟩ <;> rw [e]
    · exact raise _ _ _
    · exact raise _ _ _
    · exact raise _ _ _
    · exact h
  | serialize =>
    simp only [bodyOf]
    by_cases g : a.obufCap.toNat < a.blobSize
    · rw [stageSerialize_of_gt g]; exact raise _ _ _
    · rw [stageSerialize_of_le (by omega)]; exact h
  | deserialize =>
    simp only [bodyOf]
    rcases stageDeserialize_cases a with ⟨g1, e⟩ | ⟨g1, c, g2, e⟩ | ⟨g1, m, g2, g3, e⟩ | ⟨g1, m, g2, g3, e⟩ <;> rw [e]
    · exact raise _ _ _
    · exact raise _ _ _
    · exact raise _ _ _
    · exact (parseMetadata_accepted g2).2.1
  | decode =>
    simp only [bodyOf]
    rcases stageDecode_cases a with ⟨o, e1, l1, l2, e⟩ | ⟨k, n, e1, -, e⟩ <;> rw [e]
    · exact h
    · exact raise _ _ _

theorem counts_complete (a : Arch) (h : a.CountsOk) : (complete a).CountsOk := by
  unfold Arch.CountsOk at *; rw [complete_ft, complete_ocnt]; exact h

/-- What the unit commands other than BUILD keep of the tree. -/
theorem tree_kept {i : Instr} (hi : isUnit i) (hb : i ≠ .build) (a : Arch) :
    (bodyOf i a).node = a.node ∧ (bodyOf i a).root = a.root ∧ (bodyOf i a).nleaf = a.nleaf := by
  have raise : ∀ i k n, (raiseError i k n a).node = a.node ∧ (raiseError i k n a).root = a.root ∧ (raiseError i k n a).nleaf = a.nleaf := by
    intro i k n
    cases i <;> exact ⟨rfl, rfl, rfl⟩
  cases i with
  | clear => exact absurd rfl hi.1
  | compress => exact absurd rfl hi.2.1
  | decompress => exact absurd rfl hi.2.2
  | build => exact absurd rfl hb
  | count =>
    simp only [bodyOf]
    by_cases g : a.ibufCap.toNat < a.ilen.toNat
    · rw [stageCount_of_gt g]; exact raise _ _ _
    · rw [stageCount_of_le (by omega)]; exact ⟨rfl, rfl, rfl⟩
  | codes => exact ⟨rfl, rfl, rfl⟩
  | pack =>
    simp only [bodyOf]
    rcases stagePack_cases a with ⟨-, e⟩ | ⟨-, i, -, e⟩ | ⟨-, -, -, e⟩ | ⟨g1, g2, g3, e⟩ <;> rw [e] <;> first | exact raise _ _ _ | exact ⟨rfl, rfl, rfl⟩
  | serialize =>
    simp only [bodyOf]
    by_cases g : a.obufCap.toNat < a.blobSize
    · rw [stageSerialize_of_gt g]; exact raise _ _ _
    · rw [stageSerialize_of_le (by omega)]; exact ⟨rfl, rfl, rfl⟩
  | deserialize =>
    simp only [bodyOf]
    rcases stageDeserialize_cases a with ⟨g1, e⟩ | ⟨g1, c, g2, e⟩ | ⟨g1, m, g2, g3, e⟩ | ⟨g1, m, g2, g3, e⟩ <;> rw [e] <;> first | exact raise _ _ _ | exact ⟨rfl, rfl, rfl⟩
  | decode =>
    simp only [bodyOf]
    rcases stageDecode_cases a with ⟨o, e1, l1, l2, e⟩ | ⟨k, n, e1, -, e⟩ <;> rw [e] <;> first | exact raise _ _ _ | exact ⟨rfl, rfl, rfl⟩

/-- What the unit commands other than CODES keep of the codebook. -/
theorem codebook_kept {i : Instr} (hi : isUnit i) (hb : i ≠ .codes) (a : Arch) :
    (bodyOf i a).clen = a.clen ∧ (bodyOf i a).code = a.code := by
  have raise : ∀ i k n, (raiseError i k n a).clen = a.clen ∧ (raiseError i k n a).code = a.code := by
    intro i k n
    cases i <;> exact ⟨rfl, rfl⟩
  cases i with
  | clear => exact absurd rfl hi.1
  | compress => exact absurd rfl hi.2.1
  | decompress => exact absurd rfl hi.2.2
  | codes => exact absurd rfl hb
  | count =>
    simp only [bodyOf]
    by_cases g : a.ibufCap.toNat < a.ilen.toNat
    · rw [stageCount_of_gt g]; exact raise _ _ _
    · rw [stageCount_of_le (by omega)]; exact ⟨rfl, rfl⟩
  | build => exact ⟨rfl, rfl⟩
  | pack =>
    simp only [bodyOf]
    rcases stagePack_cases a with ⟨-, e⟩ | ⟨-, i, -, e⟩ | ⟨-, -, -, e⟩ | ⟨g1, g2, g3, e⟩ <;> rw [e] <;> first | exact raise _ _ _ | exact ⟨rfl, rfl⟩
  | serialize =>
    simp only [bodyOf]
    by_cases g : a.obufCap.toNat < a.blobSize
    · rw [stageSerialize_of_gt g]; exact raise _ _ _
    · rw [stageSerialize_of_le (by omega)]; exact ⟨rfl, rfl⟩
  | deserialize =>
    simp only [bodyOf]
    rcases stageDeserialize_cases a with ⟨g1, e⟩ | ⟨g1, c, g2, e⟩ | ⟨g1, m, g2, g3, e⟩ | ⟨g1, m, g2, g3, e⟩ <;> rw [e] <;> first | exact raise _ _ _ | exact ⟨rfl, rfl⟩
  | decode =>
    simp only [bodyOf]
    rcases stageDecode_cases a with ⟨o, e1, l1, l2, e⟩ | ⟨k, n, e1, -, e⟩ <;> rw [e] <;> first | exact raise _ _ _ | exact ⟨rfl, rfl⟩

/-- The absent tree is well formed (R31.1). -/
theorem treeWf_absent : TreeWf (Vector.replicate Config.nodeMax freeNode) Config.nil 0 := by
  have hn : ∀ i, nodeAt (Vector.replicate Config.nodeMax freeNode) i = freeNode := nodeAt_freeTable
  have hk : ∀ i, (nodeAt (Vector.replicate Config.nodeMax freeNode) i).kind = .free := fun i => by rw [hn]; rfl
  have hls : leafSlots (Vector.replicate Config.nodeMax freeNode) = [] := by
    unfold leafSlots
    rw [List.filter_eq_nil_iff]
    intro i _
    rw [hk]; decide
  have h0 : (0 : NodeIndex).toNat = 0 := rfl
  constructor
  · exact ⟨fun _ i _ => hn i, fun _ => rfl⟩
  · exact fun _ => rfl
  · exact fun i _ => hn i
  · exact fun i _ => .inl (hk i)
  · intro i _; rw [hk]; decide
  · intro i; rw [hk, h0]; constructor
    · intro h; cases h
    · intro h; omega
  · intro i h; rw [hk] at h; cases h
  · intro i h; rw [hk] at h; cases h
  · intro i h; rw [hk] at h; cases h
  · intro i h; exact absurd (hk i) h
  · intro h; exact absurd h (by decide)
  · intro h; rw [h0] at h; omega
  · intro i h; exact absurd (hk i) h
  · intro h; exact absurd rfl h
  · rw [hls]; rfl

theorem tree_of {a b : Arch} (h : a.TreeOk) (h1 : b.node = a.node) (h2 : b.root = a.root) (h3 :
    b.nleaf = a.nleaf) : b.TreeOk := by
  unfold Arch.TreeOk; rw [h1, h2, h3]; exact h

theorem codebook_of {a b : Arch} (h : a.CodebookOk) (h1 : b.clen = a.clen) (h2 : b.code = a.code) :
    b.CodebookOk := by
  have := codeBits_congr h1 h2
  exact ⟨fun s j => by rw [h1, h2]; exact h.unused_zero s j, fun s u => by rw [h1, this]; exact h.no_prefix s u⟩

theorem codebook_empty {a : Arch} (h1 : a.clen = Vector.replicate 256 0) (h2 : a.code =
    Vector.replicate 256 0) : a.CodebookOk := by
  refine ⟨fun s j _ => ?_, fun s u _ hs => ?_⟩
  · rw [h2, tableGet_replicate]; simp
  · rw [h1, tableGet_replicate] at hs; exact absurd rfl hs

/-- The counts and the tree. -/
structure TreeSide (a : Arch) : Prop where
  counts : a.CountsOk
  tree : a.TreeOk

/-- Each body keeps the tree well formed (R31). -/
theorem treeSide_body {i : Instr} (hi : isUnit i) (a : Arch) (h : TreeSide a) : TreeSide (bodyOf i
    a) := by
  refine ⟨counts_body hi a h.counts, ?_⟩
  by_cases hb : i = .build
  · subst hb
    have hsum : tableSum a.ft < 2 ^ 64 := by rw [h.counts]; exact a.ocnt.isLt
    have := treeWf_mergeAll a.ft hsum
    rw [← initialLive_length] at this
    exact this
  · obtain ⟨e1, e2, e3⟩ := tree_kept hi hb a
    exact tree_of h.tree e1 e2 e3

theorem treeSide_complete (a : Arch) (h : TreeSide a) : TreeSide (complete a) :=
  ⟨counts_complete a h.counts, tree_of h.tree (by simp) (by simp) (by simp)⟩

theorem treeSide_clear (a : Arch) (_ : TreeSide a) : TreeSide (stageClear a) := ⟨counts_empty rfl
    rfl, treeWf_absent⟩

/-- The counts, the tree and the codebook. -/
structure CodeSide (a : Arch) : Prop extends TreeSide a where
  codebook : a.CodebookOk

/-- Each body keeps the codebook prefix-free (R39 (d)). -/
theorem codeSide_body {i : Instr} (hi : isUnit i) (a : Arch) (h : CodeSide a) : CodeSide (bodyOf i
    a) := by
  refine ⟨treeSide_body hi a h.toTreeSide, ?_⟩
  by_cases hb : i = .codes
  · subst hb; exact stageCodes_codebookOk h.tree
  · obtain ⟨e1, e2⟩ := codebook_kept hi hb a
    exact codebook_of h.codebook e1 e2

theorem buffers_of {a b : Arch} (h : a.BuffersOk) (h1 : b.ibuf = a.ibuf) (h2 : b.pbuf = a.pbuf) (h3
    : b.obuf = a.obuf)
   (h4 : b.ibufCap = a.ibufCap) (h5 : b.pbufCap = a.pbufCap) (h6 : b.obufCap = a.obufCap) : b.BuffersOk
    := by
  obtain ⟨g1, g2, g3⟩ := h
  exact ⟨by rw [h1, h4]; exact g1, by rw [h2, h5]; exact g2, by rw [h3, h6]; exact g3⟩

theorem memoryOk_write {cap : Word64} {m : Memory} {bs : List Byte} (h : memoryOk cap m) (hb : bs ≠
    [] → bs.length ≤ cap.toNat) :
    memoryOk cap (Memory.write m 0 bs) := by
  by_cases hz : bs = []
  · subst hz; exact h
  · exact ⟨Memory.wf_write 0 bs h.1, Memory.below_write h.2 (by have := hb hz; omega)⟩

/-- Each body keeps the buffers canonical and within their capacities. -/
theorem buffers_body {i : Instr} (hi : isUnit i) (a : Arch) (h : a.BuffersOk) : (bodyOf i
    a).BuffersOk := by
  have raise : ∀ i k n, (raiseError i k n a).BuffersOk := by
    intro i k n
    cases i <;> exact buffers_of h rfl rfl rfl rfl rfl rfl
  cases i with
  | clear => exact absurd rfl hi.1
  | compress => exact absurd rfl hi.2.1
  | decompress => exact absurd rfl hi.2.2
  | count =>
    simp only [bodyOf]
    by_cases g : a.ibufCap.toNat < a.ilen.toNat
    · rw [stageCount_of_gt g]; exact raise _ _ _
    · rw [stageCount_of_le (by omega)]; exact buffers_of h rfl rfl rfl rfl rfl rfl
  | build => exact buffers_of h rfl rfl rfl rfl rfl rfl
  | codes => exact buffers_of h rfl rfl rfl rfl rfl rfl
  | pack =>
    simp only [bodyOf]
    rcases stagePack_cases a with ⟨-, e⟩ | ⟨-, i, -, e⟩ | ⟨-, -, -, e⟩ | ⟨g1, g2, g3, e⟩ <;> rw [e]
    · exact raise _ _ _
    · exact raise _ _ _
    · exact raise _ _ _
    · exact ⟨h.ibuf, memoryOk_write h.pbuf (by rw [packBits_length]; exact fun _ => g3), h.obuf⟩
  | serialize =>
    simp only [bodyOf]
    by_cases g : a.obufCap.toNat < a.blobSize
    · rw [stageSerialize_of_gt g]; exact raise _ _ _
    · rw [stageSerialize_of_le (by omega)]
      have g' : a.blobSize ≤ a.obufCap.toNat := by omega
      exact ⟨h.ibuf, h.pbuf, memoryOk_write h.obuf (by rw [blob_length]; exact fun _ => g')⟩
  | deserialize =>
    simp only [bodyOf]
    rcases stageDeserialize_cases a with ⟨g1, e⟩ | ⟨g1, c, g2, e⟩ | ⟨g1, m, g2, g3, e⟩ | ⟨g1, m, g2, g3, e⟩ <;> rw [e]
    · exact raise _ _ _
    · exact raise _ _ _
    · exact raise _ _ _
    · exact ⟨h.ibuf, memoryOk_write h.pbuf (by rw [readFrom_length]; exact fun _ => g3), h.obuf⟩
  | decode =>
    simp only [bodyOf]
    rcases stageDecode_cases a with ⟨o, e1, l1, l2, e⟩ | ⟨k, n, e1, -, e⟩ <;> rw [e]
    · exact ⟨h.ibuf, h.pbuf, memoryOk_write h.obuf l2⟩
    · exact raise _ _ _

theorem memoryOk_nil (cap : Word64) : memoryOk cap [] := ⟨rfl, by simp⟩

end Sys2Proof.Machine
end

