-- ==== Sys2Proof/Laws/PerInstr.lean ====
section
/-!
SUPPORT. Statements made of every command as syntax, one lemma for each constructor.
-/

namespace Sys2Proof.Laws

/-- The family `Encoding`: the command is well formed, its byte is no reserved opcode, and the decoder reads the
command back from that byte and from the table's word (R64, R66). -/
def Encoding.Statement (i : Instr) : Prop :=
  i.wellFormed = true ∧ commandByteWellFormed (encode i) = true ∧
  decodeByte (encode i) = .command i ∧ decodeTableWord 8 (encode i).toNat = some i

theorem Encoding.clear : Encoding.Statement .clear := by unfold Encoding.Statement; decide
theorem Encoding.count : Encoding.Statement .count := by unfold Encoding.Statement; decide
theorem Encoding.build : Encoding.Statement .build := by unfold Encoding.Statement; decide
theorem Encoding.codes : Encoding.Statement .codes := by unfold Encoding.Statement; decide
theorem Encoding.pack : Encoding.Statement .pack := by unfold Encoding.Statement; decide
theorem Encoding.serialize : Encoding.Statement .serialize := by unfold Encoding.Statement; decide
theorem Encoding.deserialize : Encoding.Statement .deserialize := by
  unfold Encoding.Statement; decide
theorem Encoding.decode : Encoding.Statement .decode := by unfold Encoding.Statement; decide
theorem Encoding.compress : Encoding.Statement .compress := by unfold Encoding.Statement; decide
theorem Encoding.decompress : Encoding.Statement .decompress := by
  unfold Encoding.Statement; decide

end Sys2Proof.Laws
end

