-- ==== Sys2Proof/Tests/Slice0.lean ====
section
/-!
SUPPORT. Tests. The expected results are those of spec 95_test_vectors.md (V-…, P…), which the spec derives by hand
from its rules, or are worked out by hand from the rule named. After the tests, for each statement of
Certificates/Slice0/Obligations.lean with hypotheses, a state and operands that meet them.
-/

set_option Elab.async false

namespace Sys2Proof.Tests

open Sys2Proof.Machine

/-! ### Small states -/

/-- Capacities that just meet R6's last sentence for six input bytes. -/
def caps : Capacities := ⟨6, 6, 70⟩

/-- A state with the input loaded. -/
def load (c : Capacities) (bs : List Byte) : State :=
  { State.resetWith c with ibuf := Memory.write [] 0 bs, ilen := BitVec.ofNat 64 bs.length }

/-- A frequency table with the entries listed. -/
def tableOf (ps : List (Byte × Word64)) : SymTable Word64 :=
  ps.foldl (fun t p => tableSet t p.1 p.2) emptyTable

/-- A state with the payload given. -/
def withPayload (bs : List Byte) (s : State) : State :=
  { s with pbuf := Memory.write [] 0 bs, plen := BitVec.ofNat 64 bs.length }

/-- A state with the error of V-K1 on record. -/
def failed (s : State) : State := { s with status := 2, errcode := 1, errinfo := 5, errcmd := 8 }

/-- A state with accesses of the host pending. -/
def ask (hs : List HostAccess) (s : State) : State := { s with pending := hs }

/-- What a command leaves of the arch, if it answers a next state. -/
def ran (i : Instr) (s : State) : Option Arch :=
  match exec i s with
  | .next t => some t.toArch
  | .fault _ => none
  | .refused _ => none

/-- What a step leaves, if it answers a next state. -/
def stepped (s : State) : Option State :=
  match step s with
  | .next t => some t
  | .fault _ => none
  | .refused _ => none

/-- The input `AAABBC` of the source's example S8. -/
def aaabbc : List Byte := [0x41, 0x41, 0x41, 0x42, 0x42, 0x43]

/-- The table of V-B1. -/
def tableB1 : SymTable Word64 := tableOf [(0x41, 3), (0x42, 2), (0x43, 1)]

/-- A state with a table, and its sum as the count. -/
def counted (c : Capacities) (ft : SymTable Word64) (n : Word64) : State :=
  { State.resetWith c with ft := ft, ocnt := n }

/-- The tree of V-B1. -/
def treeB1 : NodeTable :=
  nodeSet (nodeSet (leafTable tableB1) 256 ⟨.inner, 0, 3, 0x43, 0x42⟩) 257 ⟨.inner, 0, 6, 0x41, 256⟩

/-- A state with the table and the tree of V-B1. -/
def builtB1 (c : Capacities) (n : Word64) : State :=
  { counted c tableB1 n with node := treeB1, root := 257, nleaf := 3 }

/-- The table of V-B5. -/
def tableB5 : SymTable Word64 := tableOf [(0x61, 4)]

/-- A state with the table and the lone leaf of V-B5. -/
def builtB5 (c : Capacities) : State :=
  { counted c tableB5 4 with node := leafTable tableB5, root := 0x61, nleaf := 1 }

/-- The codebook of V-C1. -/
def codedC1 (s : State) : State :=
  { s with
    clen := tableSet (tableSet (tableSet (Vector.replicate 256 0) 0x41 1) 0x43 2) 0x42 2
    code := tableSet (tableSet (Vector.replicate 256 0) 0x43 1) 0x42 3 }

/-- The blob of V-S1. -/
def blobS1 : List Byte :=
  [0, 3, 0x41, 0, 0, 0, 0, 0, 0, 0, 3, 0x42, 0, 0, 0, 0, 0, 0, 0, 2, 0x43, 0, 0, 0, 0, 0, 0, 0, 1,
    0, 0, 0, 0, 0, 0, 0, 6, 0x1F, 0x00]

/-! ### Encoding (R64, R66, R67) -/

theorem test_decode_words :
    decodeByte 0b00000001#8 = .command .clear ∧ decodeByte 0b00000010#8 = .command .count ∧
    decodeByte 0b00000011#8 = .command .build ∧ decodeByte 0b00000100#8 = .command .codes ∧
    decodeByte 0b00000101#8 = .command .pack ∧ decodeByte 0b00000110#8 = .command .serialize ∧
    decodeByte 0b00000111#8 = .command .deserialize ∧ decodeByte 0b00001000#8 = .command .decode ∧
    decodeByte 0b00010000#8 = .command .compress ∧
    decodeByte 0b00010001#8 = .command .decompress := by decide

theorem test_decode_reserved :
    decodeByte 0b00000000#8 = .reserved 0x00 ∧ decodeByte 0b00001001#8 = .reserved 0x09 ∧
    decodeByte 0b00001111#8 = .reserved 0x0F ∧ decodeByte 0b00010010#8 = .reserved 0x12 ∧
    decodeByte 0b11111111#8 = .reserved 0xFF ∧ decodeTableWord 8 0x12 = none ∧
    decodeTableWord 8 0x11 = some .decompress := by decide

/-! ### WellFormed refuses the ill-formed -/

theorem test_reserved_byte_ill_formed :
    commandByteWellFormed 0x00 = false ∧ commandByteWellFormed 0x09 = false ∧
    commandByteWellFormed 0x12 = false ∧ commandByteWellFormed 0x11 = true := by decide

theorem test_capacity_ill_formed :
    capacityWellFormed 0 = false ∧ capacityWellFormed (BitVec.ofNat 64 (2 ^ 48 + 1)) = false ∧
    capacityWellFormed (BitVec.ofNat 64 (2 ^ 48)) = true ∧ capacityWellFormed 1 = true ∧
    Capacities.wellFormed ⟨0, 1, 1⟩ = false ∧ Capacities.wellFormed ⟨1, 0, 1⟩ = false ∧
    Capacities.wellFormed ⟨1, 1, 0⟩ = false ∧ Config.capacities.wellFormed = true := by decide

theorem test_access_ill_formed :
    accessWellFormed (State.resetWith caps).toArch 7 0 = false ∧
    accessWellFormed (State.resetWith caps).toArch 0 15 = false ∧
    accessWellFormed (State.resetWith caps).toArch 1 6 = false ∧
    accessWellFormed (State.resetWith caps).toArch 2 6 = false ∧
    accessWellFormed (State.resetWith caps).toArch 3 70 = false ∧
    accessWellFormed (State.resetWith caps).toArch 4 256 = false ∧
    accessWellFormed (State.resetWith caps).toArch 5 1022 = false ∧
    accessWellFormed (State.resetWith caps).toArch 6 2048 = false := by decide

theorem test_access_well_formed :
    accessWellFormed (State.resetWith caps).toArch 0 14 = true ∧
    accessWellFormed (State.resetWith caps).toArch 1 5 = true ∧
    accessWellFormed (State.resetWith caps).toArch 2 5 = true ∧
    accessWellFormed (State.resetWith caps).toArch 3 69 = true ∧
    accessWellFormed (State.resetWith caps).toArch 4 255 = true ∧
    accessWellFormed (State.resetWith caps).toArch 5 1021 = true ∧
    accessWellFormed (State.resetWith caps).toArch 6 2047 = true := by decide

/-! ### The port -/

/-- R46, R55: reading `ROOT` and `OBUF_CAP` after reset. -/
theorem test_read_registers :
    (stepped (ask [.read 0 10] (State.resetWith caps))).map State.reply = some (.data 511) ∧
    (stepped (ask [.read 0 14] (State.resetWith caps))).map State.reply = some (.data 70) := by
  decide +kernel

/-- R56: the link word of slot 256 of V-B1 is `left = 43`, `right = 42`, `sym = 0`, `kind = 2`:
`0x43 + (0x42 << 9) + (2 << 26)`. -/
theorem test_read_link_word :
    (stepped (ask [.read 5 513] (builtB1 caps 6))).map State.reply = some (.data 0x8008443) ∧
    (stepped (ask [.read 5 512] (builtB1 caps 6))).map State.reply = some (.data 3) := by
  decide +kernel

/-- V-E1 and R67: a zero written to `CMD`; the upper bits of the value are dropped. -/
theorem test_illegal_command :
    (stepped (ask [.write 0 0 0x100] (State.resetWith caps))).map
      (fun t => (t.status, t.errcode, t.errinfo, t.errcmd)) = some (2, 6, 0, 0) := by
  decide +kernel

/-- V-E3: COUNT while `ERR = 1`. -/
theorem test_count_while_err : ran .count (failed (load caps aaabbc)) =
    some (failed (load caps aaabbc)).toArch := rfl

/-- A table word placed at reset runs as the first command. -/
theorem test_first_command :
    (stepped (State.reset.withFetchWord 8 0x03)).map (fun t => (t.status, t.root)) =
      some (1, 511) := by decide +kernel

/-! ### The commands -/

/-- V-K1. -/
theorem test_clear : (ran .clear (failed (builtB1 caps 6))).map
    (fun a => (a.status, a.errcode, a.errinfo, a.errcmd, a.ocnt, a.root, a.nleaf)) =
    some (0, 0, 0, 0, 0, 511, 0) := by decide +kernel

/-- V-K2. -/
theorem test_clear_reset : ran .clear (State.resetWith caps) =
    some (State.resetWith caps).toArch := rfl

/-- V-F1. -/
theorem test_count : (ran .count (load caps aaabbc)).map
    (fun a => (tableGet a.ft 0x41, tableGet a.ft 0x42, tableGet a.ft 0x43, tableGet a.ft 0x44,
      a.ocnt, a.status)) = some (3, 2, 1, 0, 6, 1) := by decide +kernel

/-- V-F4. -/
theorem test_count_capacity : (ran .count { counted caps tableB1 6 with ilen := 7 }).map
    (fun a => (a.status, a.errcode, a.errinfo, a.errcmd, a.ocnt, tableGet a.ft 0x41)) =
    some (2, 4, 7, 2, 0, 0) := by decide +kernel

/-- V-B1. -/
theorem test_build : (ran .build (counted caps tableB1 6)).map
    (fun a => (nodeAt a.node 256, nodeAt a.node 257, nodeAt a.node 258, a.root, a.nleaf)) =
    some (⟨.inner, 0, 3, 0x43, 0x42⟩, ⟨.inner, 0, 6, 0x41, 256⟩, freeNode, 257, 3) := by
  decide +kernel

/-- V-B3: a leaf before an internal node of the same frequency. -/
theorem test_build_tie : (ran .build (counted caps (tableOf [(0x61, 1), (0x62, 1), (0x63, 2)]) 4)).map
    (fun a => (nodeAt a.node 256, nodeAt a.node 257, a.root)) =
    some (⟨.inner, 0, 2, 0x61, 0x62⟩, ⟨.inner, 0, 4, 0x63, 256⟩, 257) := by decide +kernel

/-- V-C1. -/
theorem test_codes : (ran .codes (builtB1 caps 6)).map
    (fun a => (tableGet a.clen 0x41, tableGet a.code 0x41, tableGet a.clen 0x43,
      tableGet a.code 0x43, tableGet a.clen 0x42, tableGet a.code 0x42, tableGet a.clen 0x44)) =
    some (1, 0, 2, 1, 2, 3, 0) := by decide +kernel

/-- V-C3. -/
theorem test_codes_lone_leaf : (ran .codes (builtB5 caps)).map
    (fun a => (tableGet a.clen 0x61, tableGet a.code 0x61)) = some (1, 0) := by decide +kernel

/-- V-P1. -/
theorem test_pack : (ran .pack (codedC1 (load caps aaabbc))).map
    (fun a => (a.nbits, a.plen, a.payload, a.status)) = some (9, 2, [0x1F, 0x00], 1) := by
  decide +kernel

/-- V-P6. -/
theorem test_pack_no_code : (ran .pack (codedC1 (load caps [0x41, 0x5A]))).map
    (fun a => (a.status, a.errcode, a.errinfo, a.errcmd, a.plen, a.nbits)) =
    some (2, 5, 1, 5, 0, 0) := by decide +kernel

/-- V-S1. -/
theorem test_serialize : (ran .serialize (withPayload [0x1F, 0x00] (counted caps tableB1 6))).map
    (fun a => (a.olen, a.output)) = some (39, blobS1) := by decide +kernel

/-- V-S5. -/
theorem test_serialize_capacity :
    (ran .serialize (withPayload [0x1F, 0x00] (counted ⟨6, 6, 38⟩ tableB1 6))).map
      (fun a => (a.status, a.errcode, a.errinfo, a.errcmd, a.olen)) = some (2, 4, 39, 6, 0) := by
  decide +kernel

/-- V-X1. -/
theorem test_deserialize : (ran .deserialize (load ⟨39, 2, 6⟩ blobS1)).map
    (fun a => (tableGet a.ft 0x41, tableGet a.ft 0x42, tableGet a.ft 0x44, a.ocnt, a.plen, a.nbits)) =
    some (3, 2, 0, 6, 2, 16) ∧ (ran .deserialize (load ⟨39, 2, 6⟩ blobS1)).map Arch.payload =
    some [0x1F, 0x00] := by decide +kernel

/-- V-X9: a zero frequency, met before the sum check. -/
theorem test_deserialize_zero : (ran .deserialize (load ⟨39, 2, 6⟩ (blobS1.set 19 0))).map
    (fun a => (a.status, a.errcode, a.errinfo, a.errcmd, a.ocnt)) = some (2, 2, 5, 7, 0) := by
  decide +kernel

/-- V-D10: padding read as data when the count says so. -/
theorem test_decode : (ran .decode (withPayload [0x1F, 0x00] { builtB1 caps 6 with ocnt := 7 })).map
    (fun a => (a.olen, a.output, a.status)) = some (7, aaabbc ++ [0x41], 1) := by decide +kernel

/-- V-D2. -/
theorem test_decode_truncated : (ran .decode (withPayload [0x1F] (builtB1 caps 6))).map
    (fun a => (a.status, a.errcode, a.errinfo, a.errcmd, a.olen)) = some (2, 1, 5, 8, 0) := by
  decide +kernel

/-- Program P1 of 95_test_vectors.md. -/
theorem test_compress : (ran .compress (load caps aaabbc)).map
    (fun a => (a.status, a.output)) = some (1, blobS1) := by decide +kernel

/-- The blob of V-S1 back to the input (R146). -/
theorem test_decompress : (ran .decompress (load ⟨39, 2, 6⟩ blobS1)).map
    (fun a => (a.status, a.olen, a.output)) = some (1, 6, aaabbc) := by decide +kernel

/-! ### The statements' hypotheses can be met -/

theorem eval_tableB1 : tableSum tableB1 = 6 := by decide +kernel

theorem present_B1 : presentSymbols tableB1 = [0x41, 0x42, 0x43] := by decide +kernel
theorem present_B5 : presentSymbols tableB5 = [0x61] := by decide +kernel

theorem mergeLoop_step {f k a b : Nat} {t : NodeTable} {live rest rest' : List Nat}
    (h1 : extractMin t live = some (a, rest)) (h2 : extractMin t rest = some (b, rest')) :
    mergeLoop (f + 1) k t live =
      mergeLoop f (k + 1) (nodeSet t (256 + k) (mergedNode t a b)) (rest' ++ [256 + k]) := by
  rw [mergeLoop, h1]
  simp only
  rw [h2]

theorem merge_B1 : mergeAll tableB1 = (treeB1, [257]) := by
  have e1 : extractMin (leafTable tableB1) [0x41, 0x42, 0x43] = some (0x43, [0x41, 0x42]) := by
    decide +kernel
  have e2 : extractMin (leafTable tableB1) [0x41, 0x42] = some (0x42, [0x41]) := by decide +kernel
  have m1 : mergedNode (leafTable tableB1) 0x43 0x42 = ⟨.inner, 0, 3, 0x43, 0x42⟩ := by
    decide +kernel
  have e3 : extractMin (nodeSet (leafTable tableB1) (256 + 0) ⟨.inner, 0, 3, 0x43, 0x42⟩)
      ([0x41] ++ [256 + 0]) = some (0x41, [256]) := by decide +kernel
  have e4 : extractMin (nodeSet (leafTable tableB1) (256 + 0) ⟨.inner, 0, 3, 0x43, 0x42⟩) [256] =
      some (256, []) := by decide +kernel
  have m2 : mergedNode (nodeSet (leafTable tableB1) (256 + 0) ⟨.inner, 0, 3, 0x43, 0x42⟩) 0x41 256 =
      ⟨.inner, 0, 6, 0x41, 256⟩ := by decide +kernel
  unfold mergeAll initialLive treeB1
  rw [present_B1]
  show mergeLoop 2 0 (leafTable tableB1) [0x41, 0x42, 0x43] = _
  rw [mergeLoop_step e1 e2, m1, mergeLoop_step e3 e4, m2]
  unfold mergeLoop
  simp only [Nat.add_zero, Nat.zero_add, Nat.reduceAdd, List.nil_append]

theorem merge_B5 : mergeAll tableB5 = (leafTable tableB5, [0x61]) := by
  unfold mergeAll initialLive
  rw [present_B5]
  show mergeLoop 0 0 (leafTable tableB5) [0x61] = _
  unfold mergeLoop
  rfl

theorem tree_B1 (c : Capacities) (n : Word64) : (builtB1 c n).TreeOk := by
  have h := treeWf_mergeAll tableB1 (by rw [eval_tableB1]; decide)
  rw [merge_B1, present_B1] at h
  exact h

theorem tree_B5 (c : Capacities) : (builtB5 c).TreeOk := by
  have h := treeWf_mergeAll tableB5 (by decide +kernel)
  rw [merge_B5, present_B5] at h
  exact h

theorem ok_load (bs : List Byte) (hb : memoryOk caps.ibuf (Memory.write [] 0 bs)) :
    (load caps bs).Ok :=
  ⟨by show Capacities.wellFormed caps = true; decide,
    ⟨by show ¬((0 : BitVec 2).getLsbD 0 = true ∧ (0 : BitVec 2).getLsbD 1 = true); decide,
      by show (0 : BitVec 2).getLsbD 1 = false ↔ (0 : Byte) = 0; decide,
      by show (0 : Byte).toNat ≤ 6; decide, fun _ => rfl, fun _ => rfl⟩,
    ⟨Nat.zero_le _, Nat.zero_le _, Nat.zero_le _, by show 8 * 0 < 0 + 8; decide⟩,
    counts_empty rfl rfl, treeWf_absent, codebook_empty rfl rfl,
    ⟨hb, memoryOk_nil _, memoryOk_nil _⟩⟩

theorem ok_aaabbc : (load caps aaabbc).Ok :=
  ok_load _ ⟨by decide, by show ∀ c ∈ Memory.write [] 0 aaabbc, c.1 < 6; decide⟩

/-- A command pending at a loaded state: a step, and the state it leaves. -/
theorem step_pending (i : Instr) (s : State) (h : s.err = false) :
    ∃ t, step (ask [.write 0 0 ((encode i).setWidth 64)] s) = .next t := by
  rw [step_command rfl]
  have e : ((encode i).setWidth 64).setWidth 8 = encode i := by cases i <;> rfl
  rw [e]
  unfold issueCommand
  rw [decodeByte_encode]
  exact ⟨_, exec_of_ok (.inl h)⟩

theorem witness_ReservedOpcodeRaisesIllegalCommand :
    ∀ op ∈ ([0x00, 0x09, 0x0F, 0x12, 0xFF] : List Byte), ∃ (s : State) (v : Word64) (rest : List HostAccess),
      s.pending = .write 0 0 v :: rest ∧ v.setWidth 8 = op ∧ decodeByte op = .reserved op ∧
      s.err = false := fun op h =>
  ⟨ask [.write 0 0 (op.setWidth 64)] State.reset, _, _, rfl, by simp, by revert op; decide,
    show (0 : BitVec 2).getLsbD 1 = false by decide⟩

theorem witness_StepRunsTheDecodedCommand :
    (∃ (s : State) (v : Word64) (rest : List HostAccess), s.pending = .write 0 0 v :: rest ∧
      s.err = true ∧ v.setWidth 8 ≠ (0x01 : Byte)) ∧
    (∃ (s : State) (v : Word64) (rest : List HostAccess), s.pending = .write 0 0 v :: rest ∧
      s.err = true ∧ v.setWidth 8 = (0x01 : Byte) ∧ decodeByte (v.setWidth 8) = .command .clear) ∧
    (∃ (s : State) (v : Word64) (rest : List HostAccess), s.pending = .write 0 0 v :: rest ∧
      s.err = false ∧ decodeByte (v.setWidth 8) = .command .decompress) ∧
    ∃ (s : State) (v : Word64) (rest : List HostAccess), s.pending = .write 0 0 v :: rest ∧
      s.err = false ∧ decodeByte (v.setWidth 8) = .reserved 0x12 :=
  ⟨⟨ask [.write 0 0 2] (failed State.reset), 2, [], rfl, rfl, by decide⟩,
    ⟨ask [.write 0 0 0x101] (failed State.reset), 0x101, [], rfl, rfl, by decide, by decide⟩,
    ⟨ask [.write 0 0 0x11] State.reset, 0x11, [], rfl, rfl, by decide⟩,
    ⟨ask [.write 0 0 0x12] State.reset, 0x12, [], rfl, rfl, by decide⟩⟩

theorem witness_OnlyClearActsWhileErr : ∃ s : State, s.err = true ∧
    (∃ (v : Word64) (rest : List HostAccess), s.pending = .write 0 0 v :: rest ∧
      v.setWidth 8 ≠ (0x01 : Byte)) :=
  ⟨ask [.write 0 0 0] (failed State.reset), rfl, 0, [], rfl, by decide⟩

theorem witness_OnlyClearActsWhileErr_access :
    (∃ (s : State) (v : Word64) (rest : List HostAccess), s.err = true ∧
      s.pending = .write 1 5 v :: rest ∧ 5 < s.ibufCap.toNat) ∧
    (∃ (s : State) (v : Word64) (rest : List HostAccess), s.err = true ∧
      s.pending = .write 0 5 v :: rest) ∧
    (∃ (s : State) (id : SpaceId) (k : Nat) (rest : List HostAccess), s.err = true ∧
      s.pending = .read id k :: rest) ∧
    (∃ s t : State, s.err = true ∧ step s = .next t ∧ t.err = false ∧ s.pending = [.reset]) ∧
    ∃ s t : State, s.err = true ∧ step s = .next t ∧ t.err = false ∧ s.pending = [.write 0 0 1] :=
  ⟨⟨ask [.write 1 5 7] (failed (load caps aaabbc)), 7, [], rfl, rfl, by decide⟩,
    ⟨ask [.write 0 5 7] (failed (load caps aaabbc)), 7, [], rfl, rfl⟩,
    ⟨ask [.read 6 2047] (failed (load caps aaabbc)), 6, 2047, [], rfl, rfl⟩,
    ⟨ask [.reset] (failed (load caps aaabbc)), _, rfl, rfl, rfl, rfl⟩,
    ⟨ask [.write 0 0 1] (failed (load caps aaabbc)), _, rfl, rfl, rfl, rfl⟩⟩

theorem witness_StepAlwaysAnswers : ∃ s : State, s.pending = [] := ⟨State.reset, rfl⟩

theorem witness_HostAccessSideEffects :
    (∃ (s : State) (rest : List HostAccess),
      s.pending = .read 1 5 :: .read 1 5 :: rest ∧ accessWellFormed s.toArch 1 5 = true) ∧
    (∃ (s : State) (rest : List HostAccess),
      s.pending = .read 2 0 :: .read 3 69 :: .read 2 0 :: rest ∧
      accessWellFormed s.toArch 2 0 = true) ∧
    (∃ (s : State) (v : Word64) (rest : List HostAccess), s.pending = .write 1 5 v :: rest ∧
      5 < s.ibufCap.toNat) ∧
    (∃ (s : State) (v : Word64) (rest : List HostAccess), s.pending = .write 0 5 v :: rest) ∧
    ∃ (s : State) (v : Word64) (rest : List HostAccess), s.pending = .write 0 14 v :: rest ∧
      (0 : SpaceId) ≠ 1 ∧ ¬((0 : SpaceId) = 0 ∧ (14 = 0 ∨ 14 = 5)) :=
  ⟨⟨ask [.read 1 5, .read 1 5] (load caps aaabbc), [], rfl, by decide⟩,
    ⟨ask [.read 2 0, .read 3 69, .read 2 0] (load caps aaabbc), [], rfl, by decide⟩,
    ⟨ask [.write 1 5 7] (load caps aaabbc), 7, [], rfl, by decide⟩,
    ⟨ask [.write 0 5 7] (load caps aaabbc), 7, [], rfl⟩,
    ⟨ask [.write 0 14 7] (load caps aaabbc), 7, [], rfl, by decide, by decide⟩⟩

theorem witness_HostWritesReachOnlyInput :
    (∃ (s t : State) (v : Word64) (rest : List HostAccess), s.pending = .write 1 5 v :: rest ∧
      ¬((1 : SpaceId) = 0 ∧ 5 = 0) ∧ step s = .next t ∧ 5 < s.ibufCap.toNat) ∧
    (∃ (s t : State) (v : Word64) (rest : List HostAccess), s.pending = .write 0 5 v :: rest ∧
      ¬((0 : SpaceId) = 0 ∧ 5 = 0) ∧ step s = .next t) ∧
    (∃ (s t : State) (v : Word64) (rest : List HostAccess), s.pending = .write 2 0 v :: rest ∧
      ¬((2 : SpaceId) = 0 ∧ 0 = 0) ∧ step s = .next t ∧ 2 ≤ (2 : SpaceId).toNat) ∧
    ∃ (s : State) (v : Word64) (rest : List HostAccess), s.pending = .write 0 0 v :: rest :=
  ⟨⟨ask [.write 1 5 7] (load caps aaabbc), _, 7, [], rfl, by decide, rfl, by decide⟩,
    ⟨ask [.write 0 5 7] (load caps aaabbc), _, 7, [], rfl, by decide, rfl⟩,
    ⟨ask [.write 2 0 7] (load caps aaabbc), _, 7, [], rfl, by decide, rfl, by decide⟩,
    ⟨ask [.write 0 0 2] (load caps aaabbc), 2, [], rfl⟩⟩

theorem witness_AccessErrorsChangeNothing :
    (∃ (s : State) (rest : List HostAccess), accessWellFormed s.toArch 1 6 = false ∧
      s.pending = .read 1 6 :: rest) ∧
    ∃ (s : State) (v : Word64) (rest : List HostAccess), accessWellFormed s.toArch 0 15 = false ∧
      s.pending = .write 0 15 v :: rest :=
  ⟨⟨ask [.read 1 6] (load caps aaabbc), [], by decide, rfl⟩,
    ⟨ask [.write 0 15 7] (load caps aaabbc), 7, [], by decide, rfl⟩⟩

theorem witness_RegisterMapReads :
    (∀ k, k < 15 → ∃ (s : State) (rest : List HostAccess), s.pending = .read 0 k :: rest) ∧
    ∀ k, k < 15 → ∃ (s : State) (w : Word64) (rest : List HostAccess),
      s.pending = .write 0 k w :: rest :=
  ⟨fun k _ => ⟨ask [.read 0 k] State.reset, [], rfl⟩, fun k _ => ⟨ask [.write 0 k 9] State.reset, 9, [], rfl⟩⟩

theorem witness_PackedViewsRead :
    (∀ i w, i ≤ 510 → w ≤ 1 → ∃ (s : State) (rest : List HostAccess),
      s.pending = .read 5 (2 * i + w) :: rest) ∧
    ∀ (b : Byte) (w : Nat), w ≤ 7 → ∃ (s : State) (rest : List HostAccess),
      s.pending = .read 6 (8 * b.toNat + w) :: rest :=
  ⟨fun i w _ _ => ⟨ask [.read 5 (2 * i + w)] State.reset, [], rfl⟩,
    fun b w _ => ⟨ask [.read 6 (8 * b.toNat + w)] State.reset, [], rfl⟩⟩

theorem witness_BufferBytesRead :
    (∃ (s : State) (rest : List HostAccess), s.pending = .read 1 5 :: rest ∧ 5 < s.ibufCap.toNat) ∧
    (∃ (s : State) (rest : List HostAccess), s.pending = .read 2 1 :: rest ∧ 1 < s.pbufCap.toNat ∧
      1 < s.plen.toNat) ∧
    (∃ (s : State) (rest : List HostAccess), s.pending = .read 3 69 :: rest ∧
      69 < s.obufCap.toNat ∧ 69 < s.olen.toNat) ∧
    (∃ (s : State) (rest : List HostAccess), s.pending = .read 4 255 :: rest ∧ 255 < 256) ∧
    ∃ (s : State) (rest : List HostAccess), s.pending = .read 3 69 :: rest ∧
      69 < s.obufCap.toNat ∧ s.olen.toNat ≤ 69 :=
  ⟨⟨ask [.read 1 5] (load caps aaabbc), [], rfl, by decide⟩,
    ⟨ask [.read 2 1] (withPayload [0x1F, 0] (load caps aaabbc)), [], rfl, by decide, by decide⟩,
    ⟨ask [.read 3 69] { load caps aaabbc with olen := 70 }, [], rfl, by decide, by decide⟩,
    ⟨ask [.read 4 255] (load caps aaabbc), [], rfl, by decide⟩,
    ⟨ask [.read 3 69] { load caps aaabbc with olen := 69 }, [], rfl, by decide, by decide⟩⟩

theorem witness_ResetLeavesTheCleanState : ∃ (s : State) (rest : List HostAccess),
    s.pending = .reset :: rest := ⟨ask [.reset] (failed (builtB1 caps 6)), [], rfl⟩

theorem witness_ClearLeavesResetValues : ∃ s : State, s.err = true := ⟨failed State.reset, rfl⟩

theorem witness_ClearIsIdempotent :
    (∃ s t u : State, exec .clear s = .next t ∧ exec .clear t = .next u) ∧
    ∃ (c : Capacities) (t : State), exec .clear (State.resetWith c) = .next t :=
  ⟨⟨failed (builtB1 caps 6), _, _, rfl, rfl⟩, ⟨caps, _, rfl⟩⟩

theorem witness_CountTalliesTheInput :
    (∃ s : State, s.err = false ∧ s.ilen.toNat ≤ s.ibufCap.toNat ∧ s.ilen = 6) ∧
    ∃ s : State, s.err = false ∧ s.ibufCap.toNat < s.ilen.toNat ∧ s.ilen = 7 :=
  ⟨⟨load caps aaabbc, rfl, by decide, rfl⟩, ⟨{ load caps aaabbc with ilen := 7 }, rfl, by decide, rfl⟩⟩

theorem witness_CountsSumToInputLength : ∃ s t : State, s.err = false ∧
    exec .count s = .next t ∧ t.err = false ∧
    ∃ u v : State, exec .serialize u = .next v ∧ u.err = false :=
  ⟨load caps aaabbc, _, rfl, exec_of_ok (.inl rfl), by decide +kernel,
    ⟨load caps aaabbc, _, exec_of_ok (.inl rfl), rfl⟩⟩

theorem witness_BuildMergesTheTwoLeast : ∃ s t : State, s.err = false ∧
    exec .build s = .next t ∧ t.nleaf = 3 :=
  ⟨counted caps tableB1 6, _, rfl, exec_of_ok (.inl rfl), by decide +kernel⟩

theorem witness_TieBreakIsAStrictTotalOrder : ∃ (t : NodeTable) (i j k : Nat),
    comesBefore t i j = true ∧ comesBefore t j k = true ∧ i ≠ j :=
  ⟨(builtB1 caps 6).node, 0x43, 0x42, 256, by decide +kernel, by decide +kernel, by decide⟩

theorem witness_BuildOfDegenerateTables :
    (∃ s : State, s.err = false ∧ ∀ b, tableGet s.ft b = 0) ∧
    ∃ (s : State) (b : Byte), s.err = false ∧ tableGet s.ft b ≠ 0 ∧
      ∀ u, u ≠ b → tableGet s.ft u = 0 :=
  ⟨⟨State.reset, rfl, fun b => tableGet_emptyTable b⟩,
    ⟨counted caps (tableOf [(0xFF, 4)]) 4, 0xFF, rfl, by decide +kernel, fun u hu => by
      show tableGet (tableSet emptyTable 0xFF 4) u = 0
      rw [tableGet_tableSet, if_neg hu, tableGet_emptyTable]⟩⟩

theorem witness_BuildLeavesAWellFormedTree : ∃ s t : State, s.err = false ∧ s.CountsOk ∧
    exec .build s = .next t ∧ 2 ≤ t.nleaf.toNat ∧ (nodeAt t.node t.root.toNat).kind ≠ .free :=
  ⟨counted caps tableB1 6, _, rfl, eval_tableB1, exec_of_ok (.inl rfl), by decide +kernel⟩

theorem witness_BuildIsOptimal : ∃ (s : State) (c : Byte → List Bool), s.err = false ∧ s.CountsOk ∧
    2 ≤ (presentSymbols s.ft).length ∧
    ∀ b u, b ≠ u → tableGet s.ft b ≠ 0 → tableGet s.ft u ≠ 0 → ¬c b <+: c u :=
  ⟨counted caps tableB1 6, bitsOfByte, rfl, eval_tableB1, by decide +kernel, fun b u h _ _ hp => h (by
    have e := hp.eq_of_length (by simp [bitsOfByte])
    apply BitVec.eq_of_getMsbD_eq
    intro j hj
    have := congrArg (fun l => l[j]?) e
    simpa [bitsOfByte, hj] using this)⟩

/-! What the commands leave of `AAABBC` and of the tree of V-B1. -/

/-- The codes of V-C1. -/
def pathC1 (b : Byte) : List Bool :=
  if b = 0x41 then [false] else if b = 0x43 then [true, false] else [true, true]

theorem leads_B1 (c : Capacities) (n : Word64) : ∀ x ∈ ([0x41, 0x42, 0x43] : List Byte),
    leadsTo (builtB1 c n).node (builtB1 c n).root (pathC1 x) x := by
  have h : ∀ x ∈ ([0x41, 0x42, 0x43] : List Byte),
      (nodeAt treeB1 (follow treeB1 257 (pathC1 x)).toNat).kind = .leaf ∧
      (nodeAt treeB1 (follow treeB1 257 (pathC1 x)).toNat).sym = x := by decide +kernel
  exact h

theorem leads_aaabbc (c : Capacities) (n : Word64) : ∀ x ∈ aaabbc,
    leadsTo (builtB1 c n).node (builtB1 c n).root (pathC1 x) x :=
  fun x hx => leads_B1 c n x (by revert x; decide)

theorem witness_CodesAreRootToLeafPaths : ∃ s : State, s.err = false ∧ s.TreeOk ∧
    (∃ b p, codePath s.node s.root b p) ∧ (∃ b, ∀ p, ¬codePath s.node s.root b p) ∧
    ∃ b : Byte, (nodeAt s.node b.toNat).kind = .leaf := by
  refine ⟨builtB1 caps 6, rfl, tree_B1 _ _, ⟨0x41, [false], ?_⟩, ⟨0x44, fun p hp => ?_⟩,
    ⟨0x41, by decide +kernel⟩⟩
  · exact ⟨by decide, .inr ⟨by decide +kernel, leads_B1 caps 6 0x41 (by decide)⟩⟩
  · exact absurd ((exists_codePath (tree_B1 caps 6) 0x44).mp ⟨p, hp⟩) (by decide +kernel)

theorem witness_CodesArePrefixFree :
    (∃ s t : State, s.err = false ∧ s.TreeOk ∧ exec .codes s = .next t ∧ 2 ≤ s.nleaf.toNat ∧
      tableGet t.clen 0x41 ≠ 0 ∧ tableGet t.clen 0x42 ≠ 0) ∧
    ∃ s t : State, s.err = false ∧ s.TreeOk ∧ exec .codes s = .next t ∧ s.nleaf = 1 :=
  ⟨⟨builtB1 caps 6, _, rfl, tree_B1 _ _, exec_of_ok (.inl rfl), by decide, by decide +kernel,
      by decide +kernel⟩,
    ⟨builtB5 caps, _, rfl, tree_B5 _, exec_of_ok (.inl rfl), rfl⟩⟩

theorem witness_CodesOfDegenerateTrees :
    (∃ s : State, s.err = false ∧ s.root ≠ Config.nil ∧ (nodeAt s.node s.root.toNat).kind = .leaf) ∧
    ∃ s : State, s.err = false ∧ s.root = Config.nil :=
  ⟨⟨builtB5 caps, rfl, by decide, by decide +kernel⟩, ⟨State.reset, rfl, rfl⟩⟩

theorem witness_PackStoresTheBitStream :
    (∃ s : State, s.err = false ∧ s.capsOk ∧ s.ibufCap.toNat < s.ilen.toNat) ∧
    (∃ (s : State) (i : Nat), s.err = false ∧ s.capsOk ∧ s.ilen.toNat ≤ s.ibufCap.toNat ∧
      i < s.ilen.toNat ∧ tableGet s.clen (s.ibufByte i) = 0 ∧
      ∀ j, j < i → tableGet s.clen (s.ibufByte j) ≠ 0) ∧
    (∃ s : State, s.err = false ∧ s.capsOk ∧ s.ilen.toNat ≤ s.ibufCap.toNat ∧
      (∀ b ∈ s.input, tableGet s.clen b ≠ 0) ∧ s.pbufCap.toNat < ceil8 s.bitStream.length) ∧
    ∃ s : State, s.err = false ∧ s.capsOk ∧ s.ilen.toNat ≤ s.ibufCap.toNat ∧
      (∀ b ∈ s.input, tableGet s.clen b ≠ 0) ∧ ceil8 s.bitStream.length = s.pbufCap.toNat :=
  ⟨⟨{ load caps aaabbc with ilen := 7 }, rfl, by
      show Capacities.wellFormed caps = true
      decide, by decide⟩,
    ⟨codedC1 (load caps [0x41, 0x5A]), 1, rfl, by
      show Capacities.wellFormed caps = true
      decide, by decide, by decide, by decide +kernel, by decide +kernel⟩,
    ⟨codedC1 (load ⟨6, 1, 70⟩ aaabbc), rfl, by
      show Capacities.wellFormed ⟨6, 1, 70⟩ = true
      decide, by decide, by decide +kernel, by decide +kernel⟩,
    ⟨codedC1 (load ⟨6, 2, 70⟩ aaabbc), rfl, by
      show Capacities.wellFormed ⟨6, 2, 70⟩ = true
      decide, by decide, by decide +kernel, by decide +kernel⟩⟩

theorem witness_PackPadsWithZeros :
    (∃ s t : State, s.err = false ∧ s.capsOk ∧ exec .pack s = .next t ∧ t.err = false ∧
      t.nbits = 9) ∧
    (∃ s : State, s.err = false ∧ s.ilen = 0) ∧
    ∃ (s : State) (b : Byte), s.err = false ∧ s.capsOk ∧ s.ilen.toNat ≤ s.ibufCap.toNat ∧
      ceil8 s.ilen.toNat ≤ s.pbufCap.toNat ∧ (∀ x ∈ s.input, x = b) ∧ s.codeBits b = [false] :=
  ⟨⟨codedC1 (load caps aaabbc), _, rfl, by
      show Capacities.wellFormed caps = true
      decide, exec_of_ok (.inl rfl), by decide +kernel, by decide +kernel⟩,
    ⟨State.reset, rfl, rfl⟩,
    ⟨codedC1 (load ⟨6, 1, 70⟩ [0x41, 0x41, 0x41]), 0x41, rfl, by
      show Capacities.wellFormed ⟨6, 1, 70⟩ = true
      decide, by decide, by decide, by decide +kernel, by decide +kernel⟩⟩

theorem witness_SerializeWritesTheBlob :
    (∃ s : State, s.err = false ∧
      s.obufCap.toNat < 10 + 9 * (presentSymbols s.ft).length + s.plen.toNat) ∧
    ∃ s : State, s.err = false ∧
      10 + 9 * (presentSymbols s.ft).length + s.plen.toNat = s.obufCap.toNat :=
  ⟨⟨withPayload [0x1F, 0] (counted ⟨6, 6, 38⟩ tableB1 6), rfl, by
      rw [show (withPayload [0x1F, 0] (counted ⟨6, 6, 38⟩ tableB1 6)).ft = tableB1 from rfl,
        present_B1]
      decide⟩,
    ⟨withPayload [0x1F, 0] (counted ⟨6, 6, 39⟩ tableB1 6), rfl, by
      rw [show (withPayload [0x1F, 0] (counted ⟨6, 6, 39⟩ tableB1 6)).ft = tableB1 from rfl,
        present_B1]
      decide⟩⟩

theorem witness_SerializeIsInjective : ∃ s s' t t' : State, s.err = false ∧ s'.err = false ∧
    exec .serialize s = .next t ∧ exec .serialize s' = .next t' ∧ t.err = false ∧ t'.err = false ∧
    s.ocnt ≠ s'.ocnt :=
  ⟨withPayload [0x1F, 0] (counted caps tableB1 6), counted caps emptyTable 0, _, _, rfl, rfl,
    exec_of_ok (.inl rfl), exec_of_ok (.inl rfl), by decide +kernel, by decide +kernel, by decide⟩

theorem witness_DeserializeLoadsTheContainer : ∃ s : State, s.err = false ∧ s.capsOk ∧
    s.ilen.toNat ≤ s.ibufCap.toNat ∧ nsymOf s.ibufByte ≤ 256 ∧
    10 + 9 * nsymOf s.ibufByte ≤ s.ilen.toNat ∧
    (∀ k, k < nsymOf s.ibufByte → pairOk s.ibufByte k) ∧
    pairFreqSum s.ibufByte (nsymOf s.ibufByte) = countOf s.ibufByte ∧
    s.ilen.toNat - (10 + 9 * nsymOf s.ibufByte) ≤ s.pbufCap.toNat := by
  refine ⟨load ⟨39, 2, 6⟩ blobS1, rfl, by show Capacities.wellFormed ⟨39, 2, 6⟩ = true; decide,
    by decide, by decide +kernel, by decide +kernel, ?_, by decide +kernel, by decide +kernel⟩
  unfold pairOk pairInOrder
  decide +kernel

/-- Each check of DESERIALIZE can fail: the capacity, sub-causes 1 to 6, and the payload's capacity. -/
theorem witness_DeserializeRejectsBadBlobs :
    (∃ s : State, s.err = false ∧ DeserializeFails s.toArch .capacity s.ilen.toNat ∧
      s.ibufCap.toNat < s.ilen.toNat) ∧
    (∀ c, 1 ≤ c → c ≤ 6 → ∃ s : State, s.err = false ∧
      DeserializeFails s.toArch .malformedContainer c) ∧
    ∃ s : State, s.err = false ∧ DeserializeFails s.toArch .capacity 2 := by
  have two : pairOk (load ⟨39, 2, 6⟩ (blobS1.set 11 0x41)).ibufByte 0 ∧
      pairOk (load ⟨39, 2, 6⟩ (blobS1.set 19 0)).ibufByte 0 := by
    unfold pairOk pairInOrder; decide +kernel
  refine ⟨⟨load ⟨38, 2, 6⟩ blobS1, rfl, .inputTooLong (by decide), by decide⟩,
    fun c h1 h6 => ?_, ⟨load ⟨39, 1, 6⟩ blobS1, rfl, ?_⟩⟩
  · interval_cases c
    · exact ⟨load caps [0], rfl, .noCountField (by decide) (by decide)⟩
    · exact ⟨load caps [1, 1], rfl, .tooManySymbols (by decide) (by decide) (by decide +kernel)⟩
    · exact ⟨load ⟨39, 2, 6⟩ (blobS1.take 36), rfl,
        .metadataTooShort (by decide) (by decide) (by decide +kernel) (by decide +kernel)⟩
    · refine ⟨load ⟨39, 2, 6⟩ (blobS1.set 11 0x41), rfl, .outOfOrder 1 (by decide) (by decide +kernel)
        (by decide +kernel) (by decide +kernel) (fun j hj => ?_) ?_⟩
      · obtain rfl : j = 0 := by omega
        exact two.1
      · unfold pairInOrder; decide +kernel
    · refine ⟨load ⟨39, 2, 6⟩ (blobS1.set 19 0), rfl, .zeroFrequency 1 (by decide) (by decide +kernel)
        (by decide +kernel) (by decide +kernel) (fun j hj => ?_) ?_ (by decide +kernel)⟩
      · obtain rfl : j = 0 := by omega
        exact two.2
      · unfold pairInOrder; decide +kernel
    · refine ⟨load ⟨39, 2, 6⟩ (blobS1.set 36 7), rfl, .wrongSum (by decide) (by decide +kernel)
        (by decide +kernel) ?_ (by decide +kernel)⟩
      unfold pairOk pairInOrder; decide +kernel
  · have := DeserializeFails.payloadTooLong (a := (load ⟨39, 1, 6⟩ blobS1).toArch) (by decide)
      (by decide +kernel) (by decide +kernel) (by unfold pairOk pairInOrder; decide +kernel)
      (by decide +kernel) (by decide +kernel)
    have e : (load ⟨39, 1, 6⟩ blobS1).toArch.ilen.toNat -
        (10 + 9 * nsymOf (load ⟨39, 1, 6⟩ blobS1).toArch.ibufByte) = 2 := by decide +kernel
    rwa [e] at this

theorem witness_ContainerRoundTrip :
    (∃ s t u : State, s.err = false ∧ s.CountsOk ∧ exec .serialize s = .next t ∧ t.err = false ∧
      u.err = false ∧ u.input = t.output ∧ u.ilen.toNat ≤ u.ibufCap.toNat ∧
      s.plen.toNat ≤ u.pbufCap.toNat) ∧
    ∃ u v w x : State, u.err = false ∧ exec .deserialize u = .next v ∧ v.err = false ∧
      w.err = false ∧ w.ft = v.ft ∧ w.ocnt = v.ocnt ∧ w.payload = v.payload ∧
      exec .serialize w = .next x ∧ x.err = false := by
  refine ⟨⟨withPayload [0x1F, 0] (counted caps tableB1 6), _, load ⟨39, 2, 6⟩ blobS1, rfl,
      eval_tableB1, exec_of_ok (.inl rfl), by decide +kernel, rfl, by decide +kernel, by decide,
      by decide⟩, ?_⟩
  obtain ⟨v, hv⟩ : ∃ v, exec .deserialize (load ⟨39, 2, 39⟩ blobS1) = .next v :=
    ⟨_, exec_of_ok (.inl rfl)⟩
  have hv' := Host.Outcome.next.inj (hv.symm.trans (exec_of_ok (.inl rfl)))
  have he : v.err = false := by rw [hv']; decide +kernel
  obtain ⟨x, hx⟩ : ∃ x, exec .serialize v = .next x := ⟨_, exec_of_ok (.inl he)⟩
  have hx' := Host.Outcome.next.inj (hx.symm.trans (exec_of_ok (.inl he)))
  exact ⟨_, v, v, x, rfl, hv, he, he, rfl, rfl, rfl, hx, by rw [hx', hv']; decide +kernel⟩

/-- A state with the input given. -/
def withInput (bs : List Byte) (s : State) : State :=
  { s with ibuf := Memory.write [] 0 bs, ilen := BitVec.ofNat 64 bs.length }

theorem withPayload_tree (bs : List Byte) (s : State) (h : s.TreeOk) : (withPayload bs s).TreeOk := h
theorem withPayload_node (bs : List Byte) (s : State) : (withPayload bs s).node = s.node := rfl
theorem withPayload_root (bs : List Byte) (s : State) : (withPayload bs s).root = s.root := rfl
theorem withPayload_nleaf (bs : List Byte) (s : State) : (withPayload bs s).nleaf = s.nleaf := rfl
theorem withInput_tree (bs : List Byte) (s : State) (h : s.TreeOk) : (withInput bs s).TreeOk := h
theorem stageCodes_tree (a : Arch) (h : a.TreeOk) : (stageCodes a).TreeOk := h
theorem stageCodes_counts (a : Arch) (h : a.CountsOk) : (stageCodes a).CountsOk := h
theorem stageCodes_nleaf (a : Arch) : (stageCodes a).nleaf = a.nleaf := rfl

theorem counts_B1 (c : Capacities) : (builtB1 c 6).CountsOk := eval_tableB1

theorem leads_payload (bs : List Byte) (c : Capacities) (n : Word64) (x : Byte)
    (hx : x ∈ ([0x41, 0x42, 0x43] : List Byte)) :
    leadsTo (withPayload bs (builtB1 c n)).node (withPayload bs (builtB1 c n)).root
      (pathC1 x) x := by
  rw [withPayload_node, withPayload_root]; exact leads_B1 c n x hx

theorem mem_aaabbc : ∀ x ∈ aaabbc, x ∈ ([0x41, 0x42, 0x43] : List Byte) := by decide

theorem nleaf_payload (bs : List Byte) (c : Capacities) (n : Word64) :
    2 ≤ (withPayload bs (builtB1 c n)).nleaf.toNat := by
  show 2 ≤ (3 : NodeIndex).toNat; decide

theorem witness_DecodeWithoutAWalk :
    (∃ s : State, s.err = false ∧ s.ocnt = 0) ∧
    (∃ s : State, s.err = false ∧ s.ocnt ≠ 0 ∧ s.obufCap.toNat < s.ocnt.toNat ∧ s.ocnt = 71) ∧
    (∃ s : State, s.err = false ∧ s.ocnt ≠ 0 ∧ s.ocnt.toNat ≤ s.obufCap.toNat ∧ s.ocnt = 70 ∧
      s.root = Config.nil) ∧
    ∃ s : State, s.err = false ∧ s.ocnt ≠ 0 ∧ s.ocnt.toNat ≤ s.obufCap.toNat ∧
      s.root ≠ Config.nil ∧ (nodeAt s.node s.root.toNat).kind = .leaf :=
  ⟨⟨State.reset, rfl, rfl⟩, ⟨counted caps emptyTable 71, rfl, by decide, by decide, rfl⟩,
    ⟨counted caps emptyTable 70, rfl, by decide, by decide, rfl, rfl⟩,
    ⟨builtB5 caps, rfl, by decide, by decide, by decide, by decide +kernel⟩⟩

/-- The payload of V-D1 holds the paths of `AAABBC`, and seven bits more. -/
theorem witness_DecodeWalksThePaths : ∃ (s : State) (xs : List Byte) (path : Byte → List Bool)
    (rest : List Bool), s.err = false ∧ s.TreeOk ∧ 2 ≤ s.nleaf.toNat ∧
    s.ocnt.toNat ≤ s.obufCap.toNat ∧ xs.length = s.ocnt.toNat ∧
    (∀ x ∈ xs, leadsTo s.node s.root (path x) x) ∧
    bitsOfBytes s.payload = xs.flatMap path ++ rest :=
  ⟨withPayload [0x1F, 0] (builtB1 caps 6), aaabbc, pathC1, List.replicate 7 false, rfl,
    withPayload_tree _ _ (tree_B1 _ _), nleaf_payload _ _ _, by decide, rfl,
    fun x hx => leads_payload _ _ _ x (mem_aaabbc x hx), by decide +kernel⟩

/-- V-D2, and V-P8's payload, which ends with the last path. -/
theorem witness_DecodeOfATruncatedStream :
    (∃ (s : State) (xs : List Byte) (path : Byte → List Bool), s.err = false ∧ s.TreeOk ∧
      2 ≤ s.nleaf.toNat ∧ s.ocnt.toNat ≤ s.obufCap.toNat ∧ xs.length = s.ocnt.toNat ∧
      (∀ x ∈ xs, leadsTo s.node s.root (path x) x) ∧ bitsOfBytes s.payload <+: xs.flatMap path ∧
      (bitsOfBytes s.payload).length < (xs.flatMap path).length) ∧
    ∃ (s : State) (xs : List Byte) (path : Byte → List Bool), s.err = false ∧ s.TreeOk ∧
      2 ≤ s.nleaf.toNat ∧ s.ocnt.toNat ≤ s.obufCap.toNat ∧ xs.length = s.ocnt.toNat ∧
      (∀ x ∈ xs, leadsTo s.node s.root (path x) x) ∧ bitsOfBytes s.payload = xs.flatMap path :=
  ⟨⟨withPayload [0x1F] (builtB1 caps 6), aaabbc, pathC1, rfl,
      withPayload_tree _ _ (tree_B1 _ _), nleaf_payload _ _ _, by decide, rfl,
      fun x hx => leads_payload _ _ _ x (mem_aaabbc x hx), by decide +kernel, by decide +kernel⟩,
    ⟨withPayload [0] (builtB1 caps 8), List.replicate 8 0x41, pathC1, rfl,
      withPayload_tree _ _ (tree_B1 _ _), nleaf_payload _ _ _, by decide, rfl,
      fun x hx => leads_payload _ _ _ x (by rw [(List.mem_replicate.mp hx).2]; decide),
      by decide +kernel⟩⟩

theorem witness_DecodeIgnoresWhatFollows : ∃ (s s' t t' : State) (extra : List Byte),
    s.err = false ∧ s'.err = false ∧ s.node = s'.node ∧ s.root = s'.root ∧ s.ocnt = s'.ocnt ∧
    s.obufCap = s'.obufCap ∧ s'.payload = s.payload ++ extra ∧ exec .decode s = .next t ∧
    exec .decode s' = .next t' ∧ t.err = false ∧ extra ≠ [] :=
  ⟨withPayload [0x1F, 0] (builtB1 caps 6), withPayload [0x1F, 0, 0xFF] (builtB1 caps 6),
    _, _, [0xFF], rfl, rfl, rfl, rfl, rfl, rfl, by decide +kernel, exec_of_ok (.inl rfl),
    exec_of_ok (.inl rfl), by decide +kernel, by decide⟩

theorem witness_DecodeMeetsNoBadLink : ∃ s t : State, s.err = false ∧ s.TreeOk ∧
    exec .decode s = .next t ∧ t.err = true ∧ t.errcode = ErrorKind.malformedTree.errcode :=
  ⟨{ State.resetWith caps with ocnt := 1 }, _, rfl, treeWf_absent, exec_of_ok (.inl rfl),
    by decide +kernel, by decide +kernel⟩

theorem witness_DecodeInvertsPack : ∃ s t u v w : State, s.err = false ∧ s.capsOk ∧ s.TreeOk ∧
    exec .codes s = .next t ∧ exec .pack t = .next u ∧ u.err = false ∧ v.err = false ∧
    v.node = s.node ∧ v.root = s.root ∧ v.payload = u.payload ∧ v.ocnt = s.ilen ∧
    v.ocnt.toNat ≤ v.obufCap.toNat ∧ exec .decode v = .next w ∧ s.ilen = 6 := by
  obtain ⟨s, hs⟩ : ∃ s : State, s = withInput aaabbc (builtB1 caps 6) := ⟨_, rfl⟩
  have htree : s.TreeOk := by rw [hs]; exact withInput_tree _ _ (tree_B1 _ _)
  have hlen : s.ilen = 6 := by rw [hs]; rfl
  have hcap : s.obufCap = 70 := by rw [hs]; rfl
  have hse : s.err = false := by rw [hs]; rfl
  obtain ⟨t, ht⟩ : ∃ t, exec .codes s = .next t := ⟨_, exec_of_ok (.inl hse)⟩
  have ht' := Host.Outcome.next.inj (ht.symm.trans (exec_of_ok (.inl hse)))
  have hte : t.err = false := by rw [ht', hs]; decide +kernel
  obtain ⟨u, hu⟩ : ∃ u, exec .pack t = .next u := ⟨_, exec_of_ok (.inl hte)⟩
  have hu' := Host.Outcome.next.inj (hu.symm.trans (exec_of_ok (.inl hte)))
  have hue : u.err = false := by rw [hu', ht', hs]; decide +kernel
  refine ⟨s, t, u, { s with pbuf := u.pbuf, plen := u.plen, seed := u.seed }, _, hse, ?_, htree, ht,
    hu, hue, hse, rfl, rfl, rfl, ?_, ?_, exec_of_ok (.inl hse), hlen⟩
  · rw [hs]; show Capacities.wellFormed caps = true; decide
  · rw [hlen, hs]; rfl
  · show s.ocnt.toNat ≤ s.obufCap.toNat
    rw [hcap, hs]; decide

/-- Two states that a command can tell apart by nothing it reads. -/
theorem witness_UnitCommandsAreFunctions :
    ∃ s s' t t' : State, s.err = false ∧ s'.err = false ∧ s.input = s'.input ∧ s.ilen = s'.ilen ∧
      s.ft = s'.ft ∧ s.clen = s'.clen ∧ s.code = s'.code ∧ s.node = s'.node ∧ s.root = s'.root ∧
      s.payload = s'.payload ∧ s.plen = s'.plen ∧ s.ocnt = s'.ocnt ∧ s.ibufCap = s'.ibufCap ∧
      s.pbufCap = s'.pbufCap ∧ s.obufCap = s'.obufCap ∧ exec .count s = .next t ∧
      exec .count s' = .next t' ∧ s ≠ s' :=
  ⟨load caps aaabbc, { load caps aaabbc with nbits := 3 }, _, _, rfl, rfl, rfl, rfl, rfl, rfl, rfl,
    rfl, rfl, rfl, rfl, rfl, rfl, rfl, rfl, exec_of_ok (.inl rfl), exec_of_ok (.inl rfl),
    fun h => absurd (congrArg (fun s : State => s.nbits) h) (by decide)⟩

theorem witness_UnitCommandsAreFunctions_others : ∀ i ∈ [Instr.build, .pack, .decode],
    ∃ s s' t t' : State, s.err = false ∧ s'.err = false ∧ s.input = s'.input ∧ s.ft = s'.ft ∧
      s.clen = s'.clen ∧ s.node = s'.node ∧ s.payload = s'.payload ∧ s ≠ s' ∧
      exec i s = .next t ∧ exec i s' = .next t' := fun _ _ =>
  ⟨load caps aaabbc, { load caps aaabbc with nbits := 3 }, _, _, rfl, rfl, rfl, rfl, rfl, rfl, rfl,
    fun h => absurd (congrArg (fun s : State => s.nbits) h) (by decide),
    exec_of_ok (.inl rfl), exec_of_ok (.inl rfl)⟩

theorem witness_SequencesRun : ∃ s : State, s.err = false ∧ s.ilen = 6 :=
  ⟨load caps aaabbc, rfl, rfl⟩

/-- The capacities just meet R6's last sentence. -/
theorem witness_CompressCompletes : ∃ s : State, s.err = false ∧ s.capsOk ∧
    s.ilen.toNat = s.ibufCap.toNat ∧ s.ibufCap.toNat = s.pbufCap.toNat ∧
    s.ibufCap.toNat + 10 + 9 * min 256 s.ibufCap.toNat = s.obufCap.toNat :=
  ⟨load caps aaabbc, rfl, by show Capacities.wellFormed caps = true; decide, by decide, by decide,
    by decide⟩

theorem witness_CompressRaisesOnlyCapacityErrors : ∃ s t : State, s.err = false ∧ s.capsOk ∧
    exec .compress s = .next t ∧ t.err = true ∧ s.ibufCap.toNat ≤ s.pbufCap.toNat ∧
    s.ibufCap.toNat + 10 + 9 * min 256 s.ibufCap.toNat ≤ s.obufCap.toNat :=
  ⟨{ load caps aaabbc with ilen := 7 }, _, rfl, by show Capacities.wellFormed caps = true; decide,
    exec_of_ok (.inl rfl), by decide +kernel, by decide, by decide⟩

theorem witness_DecompressNeverMeetsABadTree : ∃ s t : State, s.err = false ∧
    exec .decompress s = .next t ∧ t.err = true :=
  ⟨load caps [0], _, rfl, exec_of_ok (.inl rfl), by decide +kernel⟩

/-- The blob of V-S2, whose tree is a lone leaf, and that of V-S1. -/
theorem witness_DecompressDecodesTheBlob :
    (∃ (s : State) (m : Metadata) (xs : List Byte) (path : Byte → List Bool), s.err = false ∧
      s.ilen.toNat ≤ s.ibufCap.toNat ∧ parseMetadata s.ibufByte s.ilen.toNat = .accepted m ∧
      s.ilen.toNat - m.offset ≤ s.pbufCap.toNat ∧ m.count.toNat ≤ s.obufCap.toNat ∧
      xs.length = m.count.toNat ∧
      (∀ x ∈ xs, codePath (mergeAll m.table).1 (rootOf (mergeAll m.table).2) x (path x)) ∧
      (presentSymbols m.table).length ≤ 1) ∧
    ∃ (s : State) (m : Metadata) (xs : List Byte) (path : Byte → List Bool) (rest : List Bool),
      s.err = false ∧ s.ilen.toNat ≤ s.ibufCap.toNat ∧
      parseMetadata s.ibufByte s.ilen.toNat = .accepted m ∧
      s.ilen.toNat - m.offset ≤ s.pbufCap.toNat ∧ m.count.toNat ≤ s.obufCap.toNat ∧
      xs.length = m.count.toNat ∧
      (∀ x ∈ xs, codePath (mergeAll m.table).1 (rootOf (mergeAll m.table).2) x (path x)) ∧
      bitsOfBytes (s.input.drop m.offset) = xs.flatMap path ++ rest := by
  constructor
  · refine ⟨load ⟨20, 1, 4⟩ [0, 1, 0x61, 0, 0, 0, 0, 0, 0, 0, 4, 0, 0, 0, 0, 0, 0, 0, 4, 0],
      ⟨tableOf [(0x61, 4)], 4, 19⟩, [0x61, 0x61, 0x61, 0x61], fun _ => [false], rfl, by decide, ?_,
      by decide, by decide, rfl, ?_, by decide +kernel⟩
    · rfl
    · unfold codePath leadsTo
      decide +kernel
  · refine ⟨load ⟨39, 2, 6⟩ blobS1, ⟨tableB1, 6, 37⟩, aaabbc, pathC1, List.replicate 7 false, rfl,
      by decide, ?_, by decide, by decide, rfl, ?_, by decide +kernel⟩
    · rfl
    · unfold codePath leadsTo
      decide +kernel

theorem witness_CompressDecompressRoundTrip : ∃ s t u : State, s.err = false ∧ s.capsOk ∧
    exec .compress s = .next t ∧ t.err = false ∧ u.err = false ∧ u.input = t.output ∧
    u.ilen.toNat ≤ u.ibufCap.toNat ∧ t.plen.toNat ≤ u.pbufCap.toNat ∧
    s.ilen.toNat ≤ u.obufCap.toNat := by
  obtain ⟨t, ht⟩ : ∃ t, exec .compress (load caps [0x61]) = .next t := ⟨_, exec_of_ok (.inl rfl)⟩
  have ht' := Host.Outcome.next.inj (ht.symm.trans (exec_of_ok (.inl rfl)))
  refine ⟨load caps [0x61], t, { load ⟨20, 1, 1⟩ [] with ibuf := t.obuf, ilen := t.olen }, rfl, by
    show Capacities.wellFormed caps = true; decide, ht, ?_,
    show (0 : BitVec 2).getLsbD 1 = false by decide, ?_⟩
  · rw [ht']; decide +kernel
  · rw [ht']; decide +kernel

theorem witness_CompressOfDegenerateInputs :
    (∃ s : State, s.err = false ∧ s.ilen = 0 ∧ s.obufCap.toNat = 10) ∧
    (∃ s : State, s.err = false ∧ s.ilen.toNat ≤ s.ibufCap.toNat ∧ s.input = List.replicate 10 0) ∧
    ∃ (s t : State) (b : Byte), s.err = false ∧ s.capsOk ∧ s.ilen ≠ 0 ∧ (∀ x ∈ s.input, x = b) ∧
      exec .compress s = .next t ∧ t.err = false :=
  ⟨⟨load ⟨1, 1, 10⟩ [], rfl, rfl, by decide⟩,
    ⟨load ⟨10, 1, 1⟩ (List.replicate 10 0), rfl, by decide, by decide +kernel⟩,
    ⟨load caps [0x61], _, 0x61, rfl, by show Capacities.wellFormed caps = true; decide, by decide,
      by decide +kernel, exec_of_ok (.inl rfl), by decide +kernel⟩⟩

theorem witness_SequencesDependOnlyOnTheInput : ∀ i ∈ [Instr.compress, Instr.decompress],
    ∃ s s' t t' : State, s.err = false ∧ s'.err = false ∧ s.ilen = s'.ilen ∧ s.input = s'.input ∧
      s.ibufCap = s'.ibufCap ∧ s.pbufCap = s'.pbufCap ∧ s.obufCap = s'.obufCap ∧
      exec i s = .next t ∧ exec i s' = .next t' ∧ s.ocnt ≠ s'.ocnt := fun _ _ =>
  ⟨load caps aaabbc, { load caps aaabbc with ocnt := 3 }, _, _, rfl, rfl, rfl, rfl, rfl, rfl, rfl,
    exec_of_ok (.inl rfl), exec_of_ok (.inl rfl), by decide⟩

theorem witness_CommandsCompleteOrRaise : ∃ (i : Instr) (s t : State), i ≠ .clear ∧ i ≠ .compress ∧
    i ≠ .decompress ∧ s.err = false ∧ exec i s = .next t :=
  ⟨.serialize, load caps aaabbc, _, by decide, by decide, by decide, rfl, exec_of_ok (.inl rfl)⟩

/-- COUNT, PACK and DESERIALIZE of an input too long, SERIALIZE and DECODE of a result too long. -/
theorem witness_ErrorEntryClearsDestinations :
    (∀ i ∈ [Instr.count, .pack, .deserialize], ∃ s t : State, s.err = false ∧
      exec i s = .next t ∧ t.err = true) ∧
    (∃ s t : State, s.err = false ∧ exec .serialize s = .next t ∧ t.err = true) ∧
    ∃ s t : State, s.err = false ∧ exec .decode s = .next t ∧ t.err = true := by
  refine ⟨fun i _ => ⟨{ load caps aaabbc with ilen := 7 }, _, rfl, exec_of_ok (.inl rfl), ?_⟩,
    ⟨load ⟨6, 6, 9⟩ aaabbc, _, rfl, exec_of_ok (.inl rfl), by decide +kernel⟩,
    ⟨counted caps emptyTable 71, _, rfl, exec_of_ok (.inl rfl), by decide +kernel⟩⟩
  revert i
  decide +kernel

theorem witness_FrameOfTableCommands : ∃ s t u v : State, exec .count s = .next t ∧
    exec .build s = .next u ∧ exec .codes s = .next v :=
  ⟨load caps aaabbc, _, _, _, exec_of_ok (.inl rfl), exec_of_ok (.inl rfl), exec_of_ok (.inl rfl)⟩

theorem witness_FrameOfStoringCommands : ∀ i ∈ [Instr.pack, .serialize, .deserialize, .decode],
    ∃ s t : State, exec i s = .next t ∧ s.err = false := fun _ _ =>
  ⟨load caps aaabbc, _, exec_of_ok (.inl rfl), rfl⟩

theorem witness_FrameOfSequences : ∀ i ∈ [Instr.compress, Instr.decompress],
    ∃ s t : State, exec i s = .next t ∧ s.err = false := fun _ _ =>
  ⟨load caps aaabbc, _, exec_of_ok (.inl rfl), rfl⟩

theorem witness_ResetMeetsTheInvariant :
    Capacities.wellFormed ⟨1, 1, 1⟩ = true ∧ Config.capacities.wellFormed = true ∧
    Capacities.wellFormed ⟨281474976710656, 281474976710656, 281474976710656⟩ = true := by decide

/-- One state meets the premise of each of the seven invariants, and a command pending there runs. -/
theorem witness_StepKeepsTheInvariant : ∀ i : Instr, ∃ s t : State,
    s.pending = [.write 0 0 ((encode i).setWidth 64)] ∧ step s = .next t ∧ s.Ok := fun i =>
  ⟨ask [.write 0 0 ((encode i).setWidth 64)] (load caps aaabbc),
    (step_pending i (load caps aaabbc) rfl).choose, rfl,
    (step_pending i (load caps aaabbc) rfl).choose_spec, ok_aaabbc⟩

/-- The same with a tree and a codebook, before a read. -/
theorem witness_StepKeepsTheCodebookPrefixFree : ∃ s t : State, step s = .next t ∧ s.CountsOk ∧
    s.TreeOk ∧ s.CodebookOk ∧ s.nleaf = 3 :=
  ⟨ask [.read 6 520] { builtB1 caps 6 with toArch := stageCodes (builtB1 caps 6).toArch },
    _, step_read rfl, stageCodes_counts _ (counts_B1 _), stageCodes_tree _ (tree_B1 _ _),
    stageCodes_codebookOk (tree_B1 caps 6), rfl⟩

end Sys2Proof.Tests
end

section
/-!
PROOF. O41: with the capacities of R6's last sentence COMPRESS completes on every input that fits `IBUF`
(R106, R144). The stream's length is `coded_cost`; what is added here is that PACK and SERIALIZE then meet their
capacity checks, and the state the completed command leaves.
-/

namespace Sys2Proof.Machine

/-- The state the stages of COMPRESS leave when every capacity check passes (R141). -/
def compressedOf (a : Arch) : Arch := { packedOf a with
  obuf := Memory.write (packedOf a).obuf 0 (packedOf a).blob
  olen := BitVec.ofNat 64 (packedOf a).blobSize }

@[simp] theorem compressedOf_status (a : Arch) : (compressedOf a).status = (codedOf a).status := by
  rw [compressedOf, packedOf]
@[simp] theorem compressedOf_ft (a : Arch) : (compressedOf a).ft = (packedOf a).ft := by
  rw [compressedOf]
@[simp] theorem compressedOf_ocnt (a : Arch) : (compressedOf a).ocnt = (packedOf a).ocnt := by
  rw [compressedOf]
@[simp] theorem compressedOf_clen (a : Arch) : (compressedOf a).clen = (codedOf a).clen := by
  rw [compressedOf, packedOf]
@[simp] theorem compressedOf_plen (a : Arch) : (compressedOf a).plen = (packedOf a).plen := by
  rw [compressedOf]
@[simp] theorem compressedOf_nbits (a : Arch) : (compressedOf a).nbits = (packedOf a).nbits := by
  rw [compressedOf]

section Fits
variable {a : Arch} (hi : a.ilen.toNat ≤ a.ibufCap.toNat)
include hi

theorem packedOf_ft : (packedOf a).ft = tally a.input emptyTable := by
  rw [packedOf, codedOf_eq hi]

theorem packedOf_ocnt : (packedOf a).ocnt = a.ilen := by rw [packedOf, codedOf_eq hi]

theorem compressedOf_err : (compressedOf a).err = false :=
  (err_congr (compressedOf_status a)).trans (codedOf_err hi)

/-- The status registers' error part is as CLEAR left it. -/
theorem compressedOf_noError : (compressedOf a).errcode = 0 ∧ (compressedOf a).errinfo = 0 ∧
    (compressedOf a).errcmd = 0 := by
  rw [compressedOf, packedOf, codedOf_eq hi]
  exact ⟨rfl, rfl, rfl⟩

/-- The payload is no longer than the input (R106). -/
theorem coded_ceil8_le : ceil8 (codedOf a).bitStream.length ≤ a.ilen.toNat := by
  have hcost := (coded_cost hi).2
  unfold ceil8
  omega

/-- `NBITS` holds the length of the stream: it fits because the capacities are in range. -/
theorem packedOf_nbits (hc : a.capsOk) :
    (packedOf a).nbits.toNat = (codedOf a).bitStream.length := by
  obtain ⟨⟨-, hcap⟩, -, -⟩ := caps_le hc
  have hcost := (coded_cost hi).2
  have e : (packedOf a).nbits = BitVec.ofNat 64 (codedOf a).bitStream.length := rfl
  rw [e, BitVec.toNat_ofNat]
  exact Nat.mod_eq_of_lt (by omega)

variable (hp : a.ibufCap.toNat ≤ a.pbufCap.toNat)
include hp

/-- The payload passes PACK's capacity check. -/
theorem coded_fits_pbuf : ceil8 (codedOf a).bitStream.length ≤ a.pbufCap.toNat :=
  (coded_ceil8_le hi).trans (hi.trans hp)

theorem packedOf_plen : (packedOf a).plen.toNat = ceil8 (codedOf a).bitStream.length := by
  refine (packed_payload (a := codedOf a) (b := packedOf a) ?_ rfl rfl rfl).1
  rw [codedOf_pbufCap hi]
  exact coded_fits_pbuf hi hp

variable (ho : a.ibufCap.toNat + 10 + 9 * min 256 a.ibufCap.toNat ≤ a.obufCap.toNat)
include ho

/-- The blob passes SERIALIZE's capacity check: at most `min 256 IBUF_CAP` symbols occur. -/
theorem packedOf_fits_obuf : (packedOf a).blobSize ≤ a.obufCap.toNat := by
  have hplen := packedOf_plen hi hp
  have hpay := coded_ceil8_le hi
  have hsyms := present_le_ilen a
  have hbytes := presentSymbols_length_le (tally a.input emptyTable)
  rw [Arch.blobSize, packedOf_ft hi]
  omega

theorem compressedOf_olen : (compressedOf a).olen.toNat = (packedOf a).blobSize := by
  have hfit := packedOf_fits_obuf hi hp ho
  have hcap := a.obufCap.isLt
  rw [compressedOf, BitVec.toNat_ofNat]
  exact Nat.mod_eq_of_lt (by omega)

/-- No stage of COMPRESS raises (R144). -/
theorem compress_of_fits : runStages compressStages a = compressedOf a := by
  have hpack := coded_fits_pbuf hi hp
  have hser := packedOf_fits_obuf hi hp ho
  rcases compress_cases a with ⟨hcount, -⟩ | ⟨-, hfull, -⟩ | ⟨-, -, hfull, -⟩ | ⟨-, -, -, e⟩
  · omega
  · omega
  · omega
  · exact e

end Fits

/-- Settles O41: each stage's capacity check passes, and the stream is no longer than the input because the
tree's weighted depth is no more than that of a code of eight bits a symbol (`coded_cost`). -/
theorem compressCompletes : Obligations.CompressCompletes := by
  intro s herr hcaps hi hp ho
  have hpay := coded_ceil8_le hi
  obtain ⟨hsum, hcost⟩ := coded_cost hi
  obtain ⟨hcode, hinfo, hcmd⟩ := compressedOf_noError hi
  refine ⟨_, exec_of_ok_ne herr (by decide), ?_⟩
  simp only [bodyOf, compress_of_fits hi hp ho]
  refine ⟨completesFrom_complete (compressedOf_err hi) hcode hinfo hcmd, ?_⟩
  simp only [complete_ft, complete_ocnt, complete_nbits, complete_clen, complete_plen, complete_olen,
    compressedOf_ft, compressedOf_ocnt, compressedOf_clen, compressedOf_plen, compressedOf_nbits,
    packedOf_ocnt hi, packedOf_nbits hi hcaps, packedOf_plen hi hp, compressedOf_olen hi hp ho]
  refine ⟨fun b => ?_, trivial, hsum, hcost, hpay, ?_⟩
  · rw [packedOf_ft hi, tally_toNat (input_lt s.toArch)]
  · rw [Arch.blobSize, packedOf_plen hi hp]

end Sys2Proof.Machine
end

section
/-!
PROOF. O54 to O60 and O53: the invariants of R39 hold at reset and every step keeps them. Laws/Invariants.lean says
what each body keeps; what is added here is the remaining things a step can do (`ArchStep`), said once for any
predicate by `KeptByStep`.
-/

namespace Sys2Proof.Machine

/-- What a predicate on the architectural state has to survive for every step to keep it: a host write to `ILEN` or
`IBUF`, CLEAR, the body of each unit command, completion, a reserved opcode, and reset. -/
structure KeptByStep (P : Arch → Prop) : Prop where
  ilen : ∀ a v, P a → P { a with ilen := v }
  ibuf : ∀ a i v, i < a.ibufCap.toNat → P a → P { a with ibuf := Memory.put a.ibuf i v }
  clear : ∀ a, P a → P (stageClear a)
  body : ∀ i, isUnit i → ∀ a, P a → P (bodyOf i a)
  complete : ∀ a, P a → P (complete a)
  reserved : ∀ a op, P a → P (recordError op .illegalCommand op.toNat a)
  reset : ∀ a seed, P a → P (Arch.reset ⟨a.ibufCap, a.pbufCap, a.obufCap⟩ seed)

theorem KeptByStep.archStep {P : Arch → Prop} (h : KeptByStep P) {a b : Arch} (hab : ArchStep a b)
    (ha : P a) : P b := by
  cases hab with
  | same => exact ha
  | ilen v => exact h.ilen a v ha
  | ibuf i v hi => exact h.ibuf a i v hi ha
  | command i _ => exact resultOf_keeps h.clear h.body h.complete i ha
  | reserved op _ => exact h.reserved a op ha
  | reset seed => exact h.reset a seed ha

theorem KeptByStep.step {P : Arch → Prop} (h : KeptByStep P) {s t : State}
    (hst : step s = .next t) (hs : P s.toArch) : P t.toArch :=
  step_keeps (fun _ _ => h.archStep) hst hs

/-! ### The status registers -/

theorem StatusMid.of_eq {a b : Arch} (h : StatusMid a) (h1 : b.status = a.status)
    (h2 : b.errcode = a.errcode) (h3 : b.errinfo = a.errinfo) (h4 : b.errcmd = a.errcmd) :
    StatusMid b := by
  have herr := err_congr h1
  refine ⟨fun hb => ?_, by rw [h2]; exact h.range, fun hb => ?_⟩
  · rw [h1, h2]; exact h.raised (herr ▸ hb)
  · rw [h2, h3, h4]; exact h.clean (herr ▸ hb)

theorem statusMid_complete (a : Arch) (h : StatusMid a) : StatusMid (complete a) := by
  by_cases he : a.err = true
  · rw [complete_of_err he]; exact h
  · refine ⟨fun ht => absurd (complete_err a ▸ ht) he, ?_, fun hf => ?_⟩
    · rw [complete_errcode]; exact h.range
    · rw [complete_errcode, complete_errinfo, complete_errcmd]
      exact h.clean (complete_err a ▸ hf)

theorem statusMid_recordError (op : Byte) (k : ErrorKind) (n : Nat) (a : Arch) :
    StatusMid (recordError op k n a) := by
  refine ⟨fun _ => ⟨rfl, ?_⟩, ?_, fun h => ?_⟩
  · rw [recordError_errcode]; cases k <;> decide
  · rw [recordError_errcode]; cases k <;> decide
  · rw [recordError_err] at h; cases h

@[simp] theorem reset_err (c : Capacities) (seed : Nat) : (Arch.reset c seed).err = false := by
  have h : (Arch.reset c seed).status = 0 := rfl
  rw [Arch.err, h]; decide

theorem statusMid_reset (c : Capacities) (seed : Nat) : StatusMid (Arch.reset c seed) :=
  ⟨by simp, Nat.zero_le 6, fun _ => ⟨rfl, rfl, rfl⟩⟩

/-- Two bits of which the second is set and the first is not. -/
theorem status_eq_two {a : Arch} (he : a.err = true) (hd : a.done = false) : a.status = 2 := by
  have key : ∀ st : BitVec 2, st.getLsbD 1 = true → st.getLsbD 0 = false → st = 2 := by decide
  exact key _ he hd

/-- Between commands, consistent status is the condition that also holds inside a run of stages. -/
theorem statusOk_iff_statusMid (a : Arch) : a.StatusOk ↔ StatusMid a := by
  constructor
  · intro h
    refine ⟨fun he => ⟨?_, fun hz => ?_⟩, h.code_range,
      fun hf => ⟨h.err_iff.mp hf, h.info_zero hf, h.cmd_zero hf⟩⟩
    · exact status_eq_two he (by simpa [he] using h.not_both)
    · rw [h.err_iff.mpr hz] at he; cases he
  · intro h
    refine ⟨fun ⟨hd, he⟩ => ?_, ⟨fun hf => (h.clean hf).1, fun hz => ?_⟩, h.range,
      fun hf => (h.clean hf).2.1, fun hf => (h.clean hf).2.2⟩
    · rw [Arch.done, (h.raised he).1] at hd
      revert hd; decide
    · by_contra he
      exact (h.raised (by simpa using he)).2 hz

theorem statusMid_keptByStep : KeptByStep StatusMid where
  ilen _ _ h := h.of_eq rfl rfl rfl rfl
  ibuf _ _ _ _ h := h.of_eq rfl rfl rfl rfl
  clear a _ := statusMid_clear a
  body _ hi := statusMid_body hi
  complete := statusMid_complete
  reserved a op _ := statusMid_recordError op _ _ a
  reset _ seed _ := statusMid_reset _ seed

/-! ### The lengths -/

theorem lengths_reset (c : Capacities) (seed : Nat) : (Arch.reset c seed).LengthsOk :=
  ⟨Nat.zero_le _, Nat.zero_le _, Nat.zero_le _, Nat.zero_lt_succ 7⟩

theorem lengths_keptByStep : KeptByStep fun a => a.capsOk ∧ a.LengthsOk where
  ilen _ _ h := ⟨h.1, lengths_of h.2 rfl rfl rfl rfl rfl⟩
  ibuf _ _ _ _ h := ⟨h.1, lengths_of h.2 rfl rfl rfl rfl rfl⟩
  clear := lengths_clear
  body _ hi := lengths_body hi
  complete := lengths_complete
  reserved _ _ h := ⟨h.1, lengths_of h.2 rfl rfl rfl rfl rfl⟩
  reset _ seed h := ⟨h.1, lengths_reset _ seed⟩

/-! ### The counts, the tree, the codebook -/

theorem counts_of {a b : Arch} (h : a.CountsOk) (h1 : b.ft = a.ft) (h2 : b.ocnt = a.ocnt) :
    b.CountsOk := by
  unfold Arch.CountsOk; rw [h1, h2]; exact h

theorem counts_reset (c : Capacities) (seed : Nat) : (Arch.reset c seed).CountsOk :=
  counts_empty rfl rfl

theorem counts_keptByStep : KeptByStep Arch.CountsOk where
  ilen _ _ h := counts_of h rfl rfl
  ibuf _ _ _ _ h := counts_of h rfl rfl
  clear _ _ := counts_empty rfl rfl
  body _ hi := counts_body hi
  complete := counts_complete
  reserved _ _ h := counts_of h rfl rfl
  reset _ seed _ := counts_reset _ seed

theorem TreeSide.of_eq {a b : Arch} (h : TreeSide a) (h1 : b.ft = a.ft) (h2 : b.ocnt = a.ocnt)
    (h3 : b.node = a.node) (h4 : b.root = a.root) (h5 : b.nleaf = a.nleaf) : TreeSide b :=
  ⟨counts_of h.counts h1 h2, tree_of h.tree h3 h4 h5⟩

theorem treeSide_reset (c : Capacities) (seed : Nat) : TreeSide (Arch.reset c seed) :=
  ⟨counts_reset c seed, treeWf_absent⟩

theorem treeSide_keptByStep : KeptByStep TreeSide where
  ilen _ _ h := h.of_eq rfl rfl rfl rfl rfl
  ibuf _ _ _ _ h := h.of_eq rfl rfl rfl rfl rfl
  clear := treeSide_clear
  body _ hi := treeSide_body hi
  complete := treeSide_complete
  reserved _ _ h := h.of_eq rfl rfl rfl rfl rfl
  reset _ seed _ := treeSide_reset _ seed

theorem codeSide_reset (c : Capacities) (seed : Nat) : CodeSide (Arch.reset c seed) :=
  ⟨treeSide_reset c seed, codebook_empty rfl rfl⟩

theorem codeSide_keptByStep : KeptByStep CodeSide where
  ilen a v h := ⟨treeSide_keptByStep.ilen a v h.toTreeSide, codebook_of h.codebook rfl rfl⟩
  ibuf a i v hi h := ⟨treeSide_keptByStep.ibuf a i v hi h.toTreeSide, codebook_of h.codebook rfl rfl⟩
  clear a h := ⟨treeSide_clear a h.toTreeSide, codebook_empty rfl rfl⟩
  body _ hi := codeSide_body hi
  complete a h := ⟨treeSide_complete a h.toTreeSide,
    codebook_of h.codebook (complete_clen a) (complete_code a)⟩
  reserved a op h := ⟨treeSide_keptByStep.reserved a op h.toTreeSide,
    codebook_of h.codebook rfl rfl⟩
  reset _ seed _ := codeSide_reset _ seed

/-! ### The buffers -/

theorem memoryOk_put {cap : Word64} {m : Memory} {i : Nat} (v : Byte) (hi : i < cap.toNat)
    (h : memoryOk cap m) : memoryOk cap (Memory.put m i v) :=
  ⟨Memory.wf_put i v h.1, Memory.below_put v h.2 hi⟩

theorem buffers_reset (c : Capacities) (seed : Nat) : (Arch.reset c seed).BuffersOk :=
  ⟨memoryOk_nil _, memoryOk_nil _, memoryOk_nil _⟩

theorem buffers_keptByStep : KeptByStep Arch.BuffersOk where
  ilen _ _ h := buffers_of h rfl rfl rfl rfl rfl rfl
  ibuf _ _ v hi h := ⟨memoryOk_put v hi h.ibuf, h.pbuf, h.obuf⟩
  clear _ h := buffers_of h rfl rfl rfl rfl rfl rfl
  body _ hi := buffers_body hi
  complete a h := buffers_of h (complete_ibuf a) (complete_pbuf a) (complete_obuf a)
    (complete_ibufCap a) (complete_pbufCap a) (complete_obufCap a)
  reserved _ _ h := buffers_of h rfl rfl rfl rfl rfl rfl
  reset _ seed _ := buffers_reset _ seed

/-! ### The statements -/

/-- Settles O54: consistent status is `StatusMid`, which every body keeps or enters by an error entry. -/
theorem stepKeepsStatusConsistent : Obligations.StepKeepsStatusConsistent := by
  intro s t hst hs
  rw [statusOk_iff_statusMid] at hs ⊢
  exact statusMid_keptByStep.step hst hs

/-- Settles O55: a body sets a length register to 0, or to a value it has compared with the capacity. -/
theorem stepKeepsLengthsInRange : Obligations.StepKeepsLengthsInRange :=
  fun _ _ hst hcaps hs => lengths_keptByStep.step hst ⟨hcaps, hs⟩

/-- Settles O56: whatever writes the table writes its sum to `OCNT`, 0 where it empties it. -/
theorem stepKeepsCountsSummed : Obligations.StepKeepsCountsSummed :=
  fun _ _ hst hs => counts_keptByStep.step hst hs

/-- Settles O57: the invariant includes the summed counts, by which BUILD's frequencies do not wrap. -/
theorem stepKeepsTheTreeWellFormed : Obligations.StepKeepsTheTreeWellFormed :=
  fun _ _ hst hcounts hs => (treeSide_keptByStep.step hst ⟨hcounts, hs⟩).tree

/-- Settles O58: the invariant includes the well-formed tree, whose paths CODES records. -/
theorem stepKeepsTheCodebookPrefixFree : Obligations.StepKeepsTheCodebookPrefixFree :=
  fun _ _ hst hcounts htree hs => (codeSide_keptByStep.step hst ⟨⟨hcounts, htree⟩, hs⟩).codebook

/-- Settles O59: a host write to `IBUF` is in range, and every command checks its length first. -/
theorem stepKeepsBuffersCanonical : Obligations.StepKeepsBuffersCanonical :=
  fun _ _ hst hs => buffers_keptByStep.step hst hs

/-- Settles O60: the seven step lemmas together; each finds what it needs of the others in the premise. -/
theorem stepKeepsTheInvariant : Obligations.StepKeepsTheInvariant := by
  intro s t hst ⟨hcaps, hstatus, hlengths, hcounts, htree, hcodebook, hbuffers⟩
  obtain ⟨hcaps', hlengths'⟩ := stepKeepsLengthsInRange s t hst hcaps hlengths
  exact {
    caps := hcaps'
    status := stepKeepsStatusConsistent s t hst hstatus
    lengths := hlengths'
    counts := stepKeepsCountsSummed s t hst hcounts
    tree := stepKeepsTheTreeWellFormed s t hst hcounts htree
    codebook := stepKeepsTheCodebookPrefixFree s t hst hcounts htree hcodebook
    buffers := stepKeepsBuffersCanonical s t hst hbuffers }

/-- Settles O53: empty tables and buffers, the absent tree, all registers 0. -/
theorem resetMeetsTheInvariant : Obligations.ResetMeetsTheInvariant := fun c hc => {
  caps := hc
  status := (statusOk_iff_statusMid _).mpr (statusMid_reset c 0)
  lengths := lengths_reset c 0
  counts := counts_reset c 0
  tree := (treeSide_reset c 0).tree
  codebook := (codeSide_reset c 0).codebook
  buffers := buffers_reset c 0 }

end Sys2Proof.Machine
end

section
/-!
PROOF. O50 to O52: the frames of the commands (R40). A frame is a function `F` that rebuilds a state from the one
before the command and the destinations of the one after; the frame holds of `b` when `b = F b`.
-/

namespace Sys2Proof.Machine

theorem complete_eq_withStatus (a : Arch) : complete a = withStatus a (complete a).status := by
  unfold complete; split <;> rfl

/-- `STATUS` is in every frame's destinations, so completion stays inside the frame. -/
theorem complete_framed {F : Arch → Arch} (hF : ∀ b st, F (withStatus b st) = withStatus (F b) st)
    {b : Arch} (h : b = F b) : complete b = F (complete b) := by
  have e := complete_eq_withStatus b
  calc complete b = withStatus b (complete b).status := e
    _ = withStatus (F b) (complete b).status := by rw [← h]
    _ = F (withStatus b (complete b).status) := (hF _ _).symm
    _ = F (complete b) := by rw [← e]

section Exec
variable {i : Instr} (hi : i ≠ .clear) {s t : State} (hx : exec i s = .next t)
include hi hx

/-- What holds of the state as it is and of what the completed body leaves holds after the command. -/
theorem exec_leaves {Q : Arch → Prop} (hsame : Q s.toArch)
    (hbody : Q (complete (bodyOf i s.toArch))) : Q t.toArch := by
  rcases (exec_frame hi hx).2 with e | e
  · rw [e]; exact hsame
  · rw [e]; exact hbody

/-- A frame of the body is a frame of the command. -/
theorem exec_framed {F : Arch → Arch} (hF : ∀ b st, F (withStatus b st) = withStatus (F b) st)
    (hsame : s.toArch = F s.toArch) (hbody : bodyOf i s.toArch = F (bodyOf i s.toArch)) :
    t.toArch = F t.toArch :=
  exec_leaves hi hx (Q := fun b => b = F b) hsame (complete_framed hF hbody)

theorem exec_pbufByte {k : Nat} (h : (bodyOf i s.toArch).pbufByte k = s.pbufByte k) :
    t.pbufByte k = s.pbufByte k :=
  exec_leaves hi hx (Q := fun b => b.pbufByte k = s.pbufByte k) rfl
    ((pbuf_of (complete_pbuf _) (complete_seed _) k).trans h)

theorem exec_obufByte {k : Nat} (h : (bodyOf i s.toArch).obufByte k = s.obufByte k) :
    t.obufByte k = s.obufByte k :=
  exec_leaves hi hx (Q := fun b => b.obufByte k = s.obufByte k) rfl
    ((obuf_of (complete_obuf _) (complete_seed _) k).trans h)

end Exec

/-- A frame whose status registers are left open is the frame with those of the state itself. -/
theorem eq_frame_of_exists {b : Arch} {G : BitVec 2 → Byte → Word64 → Byte → Arch}
    (hG : ∀ st e n c, (G st e n c).status = st ∧ (G st e n c).errcode = e ∧
      (G st e n c).errinfo = n ∧ (G st e n c).errcmd = c)
    (h : ∃ st e n c, b = G st e n c) : b = G b.status b.errcode b.errinfo b.errcmd := by
  obtain ⟨st, e, n, c, hb⟩ := h
  obtain ⟨h1, h2, h3, h4⟩ := hG st e n c
  rw [← hb] at h1 h2 h3 h4
  rw [h1, h2, h3, h4]; exact hb

/-! ### COUNT, BUILD, CODES -/

theorem stageCount_framed (a : Arch) : stageCount a =
    { withStatusOf a (stageCount a) with ft := (stageCount a).ft, ocnt := (stageCount a).ocnt } := by
  by_cases h : a.ibufCap.toNat < a.ilen.toNat
  · rw [stageCount_of_gt h]; rfl
  · rw [stageCount_of_le (by omega)]; rfl

theorem count_framed {s t : State} (hx : exec .count s = .next t) :
    t.toArch = { withStatusOf s.toArch t.toArch with ft := t.ft, ocnt := t.ocnt } :=
  exec_framed (F := fun b => { withStatusOf s.toArch b with ft := b.ft, ocnt := b.ocnt })
    (by decide) hx (fun _ _ => rfl) rfl (stageCount_framed s.toArch)

theorem build_framed {s t : State} (hx : exec .build s = .next t) :
    t.toArch = { withStatusOf s.toArch t.toArch with
      node := t.node, root := t.root, nleaf := t.nleaf } :=
  exec_framed (F := fun b => { withStatusOf s.toArch b with
      node := b.node, root := b.root, nleaf := b.nleaf })
    (by decide) hx (fun _ _ => rfl) rfl rfl

theorem codes_framed {s t : State} (hx : exec .codes s = .next t) :
    t.toArch = { withStatusOf s.toArch t.toArch with clen := t.clen, code := t.code } :=
  exec_framed (F := fun b => { withStatusOf s.toArch b with clen := b.clen, code := b.code })
    (by decide) hx (fun _ _ => rfl) rfl rfl

/-- Settles O50: no buffer is among the destinations of the frame. -/
theorem frameOfTableCommands : Obligations.FrameOfTableCommands := by
  intro s t
  refine ⟨fun hx => ?_, fun hx => ?_, fun hx => ?_⟩
  · have hf := count_framed hx
    exact ⟨(exec_frame (by decide) hx).1, sameBytes_of (congrArg Arch.ibuf hf :)
      (congrArg Arch.pbuf hf :) (congrArg Arch.obuf hf :) (congrArg Arch.seed hf :), hf⟩
  · have hf := build_framed hx
    exact ⟨(exec_frame (by decide) hx).1, sameBytes_of (congrArg Arch.ibuf hf :)
      (congrArg Arch.pbuf hf :) (congrArg Arch.obuf hf :) (congrArg Arch.seed hf :), hf⟩
  · have hf := codes_framed hx
    exact ⟨(exec_frame (by decide) hx).1, sameBytes_of (congrArg Arch.ibuf hf :)
      (congrArg Arch.pbuf hf :) (congrArg Arch.obuf hf :) (congrArg Arch.seed hf :), hf⟩

/-! ### PACK, SERIALIZE, DESERIALIZE, DECODE -/

theorem pack_framed {s t : State} (hx : exec .pack s = .next t) :
    t.toArch = { withStatusOf s.toArch t.toArch with
      pbuf := t.pbuf, plen := t.plen, nbits := t.nbits } :=
  exec_framed (F := fun b => { withStatusOf s.toArch b with
      pbuf := b.pbuf, plen := b.plen, nbits := b.nbits })
    (by decide) hx (fun _ _ => rfl) rfl
    (eq_frame_of_exists (fun _ _ _ _ => ⟨rfl, rfl, rfl, rfl⟩) (pack_frame s.toArch).1)

theorem serialize_framed {s t : State} (hx : exec .serialize s = .next t) :
    t.toArch = { withStatusOf s.toArch t.toArch with obuf := t.obuf, olen := t.olen } :=
  exec_framed (F := fun b => { withStatusOf s.toArch b with obuf := b.obuf, olen := b.olen })
    (by decide) hx (fun _ _ => rfl) rfl
    (eq_frame_of_exists (fun _ _ _ _ => ⟨rfl, rfl, rfl, rfl⟩) (serialize_frame s.toArch).1)

theorem deserialize_framed {s t : State} (hx : exec .deserialize s = .next t) :
    t.toArch = { withStatusOf s.toArch t.toArch with
      ft := t.ft, ocnt := t.ocnt, pbuf := t.pbuf, plen := t.plen, nbits := t.nbits } :=
  exec_framed (F := fun b => { withStatusOf s.toArch b with
      ft := b.ft, ocnt := b.ocnt, pbuf := b.pbuf, plen := b.plen, nbits := b.nbits })
    (by decide) hx (fun _ _ => rfl) rfl
    (eq_frame_of_exists (fun _ _ _ _ => ⟨rfl, rfl, rfl, rfl⟩) (deserialize_frame s.toArch).1)

theorem decode_framed {s t : State} (hx : exec .decode s = .next t) :
    t.toArch = { withStatusOf s.toArch t.toArch with obuf := t.obuf, olen := t.olen } :=
  exec_framed (F := fun b => { withStatusOf s.toArch b with obuf := b.obuf, olen := b.olen })
    (by decide) hx (fun _ _ => rfl) rfl
    (eq_frame_of_exists (fun _ _ _ _ => ⟨rfl, rfl, rfl, rfl⟩) (decode_frame s.toArch).1)

/-- Settles O51: the registers by the frame of each body, the bytes by where the body's one write ends. -/
theorem frameOfStoringCommands : Obligations.FrameOfStoringCommands := by
  intro s t
  refine ⟨fun hx => ?_, fun hx => ?_, fun hx => ?_, fun hx => ?_⟩
  · have hf := pack_framed hx
    have hseed : t.seed = s.seed := (congrArg Arch.seed hf :)
    exact ⟨(exec_frame (by decide) hx).1, hf, fun k => ⟨ibuf_of (congrArg Arch.ibuf hf :) hseed k,
      obuf_of (congrArg Arch.obuf hf :) hseed k,
      fun hk => exec_pbufByte (by decide) hx ((pack_frame s.toArch).2 k hk)⟩⟩
  · have hf := serialize_framed hx
    have hseed : t.seed = s.seed := (congrArg Arch.seed hf :)
    exact ⟨(exec_frame (by decide) hx).1, hf, fun k => ⟨ibuf_of (congrArg Arch.ibuf hf :) hseed k,
      pbuf_of (congrArg Arch.pbuf hf :) hseed k,
      fun hk => exec_obufByte (by decide) hx ((serialize_frame s.toArch).2 k hk)⟩⟩
  · have hf := deserialize_framed hx
    have hseed : t.seed = s.seed := (congrArg Arch.seed hf :)
    exact ⟨(exec_frame (by decide) hx).1, hf, fun k => ⟨ibuf_of (congrArg Arch.ibuf hf :) hseed k,
      obuf_of (congrArg Arch.obuf hf :) hseed k,
      fun hk => exec_pbufByte (by decide) hx ((deserialize_frame s.toArch).2 k hk)⟩⟩
  · have hf := decode_framed hx
    have hseed : t.seed = s.seed := (congrArg Arch.seed hf :)
    exact ⟨(exec_frame (by decide) hx).1, hf, fun k => ⟨ibuf_of (congrArg Arch.ibuf hf :) hseed k,
      pbuf_of (congrArg Arch.pbuf hf :) hseed k,
      fun hk => exec_obufByte (by decide) hx ((decode_frame s.toArch).2 k hk)⟩⟩

/-! ### COMPRESS and DECOMPRESS -/

theorem sequence_frame {i : Instr} (hi : i ∈ [Instr.compress, Instr.decompress]) (a : Arch) :
    SeqFrame a (bodyOf i a) := by
  simp only [List.mem_cons, List.not_mem_nil, or_false] at hi
  rcases hi with rfl | rfl
  · exact compress_frame a
  · exact decompress_frame a

/-- Settles O52: the frame of each run of stages, kept by completion. -/
theorem frameOfSequences : Obligations.FrameOfSequences := by
  intro i hi s t hx herr
  have hne : i ≠ .clear := by rintro rfl; revert hi; decide
  have hf : SeqFrame s.toArch t.toArch := by
    rw [exec_arch hne herr hx]; exact (sequence_frame hi s.toArch).complete
  exact ⟨(exec_frame hne hx).1, hf.ibuf, hf.ilen, hf.ibufCap, hf.pbufCap, hf.obufCap,
    fun k => ⟨ibuf_of hf.ibuf hf.seed k, hf.pbytes k, hf.obytes k⟩⟩

end Sys2Proof.Machine
end

section
/-!
PROOF. O11 and O12: what a read of a byte or of a frequency answers (R34, R35, R46), and the state after reset (R38).
-/

namespace Sys2Proof.Machine

theorem resultByte_of_lt {epoch : Nat} {buf : Buffer} {len : Word64} {b : Byte} {k : Nat}
    (h : k < len.toNat) : resultByte epoch buf len b k = b := if_pos h

/-- A byte zero-extended to a host word is below 256 (R50). -/
theorem zeroExtended_byte_lt (b : Byte) : (b.setWidth 64 : Word64).toNat < 256 := by
  have hb := b.isLt
  rw [BitVec.toNat_setWidth]
  omega

/-- Settles O11: the reply is the location's value; only `PBUF` and `OBUF` ask whether it is below the length. -/
theorem bufferBytesRead : Obligations.BufferBytesRead := by
  intro s k rest
  refine ⟨fun hp hk => ⟨_, step_read_of_wf hp (sp := .ibuf) rfl hk, rfl⟩, fun hp hk hl => ?_,
    fun hp hk hl => ?_, fun hp hk => ⟨_, step_read_of_wf hp (sp := .ft) rfl hk, rfl⟩, ?_⟩
  · refine ⟨_, step_read_of_wf hp (sp := .pbuf) rfl hk, ?_⟩
    simp only [readLocation, resultByte_of_lt hl]
  · refine ⟨_, step_read_of_wf hp (sp := .obuf) rfl hk, ?_⟩
    simp only [readLocation, resultByte_of_lt hl]
  · rintro (⟨hp, hk⟩ | ⟨hp, hk⟩)
    · exact ⟨_, _, step_read_of_wf hp (sp := .pbuf) rfl hk, rfl, zeroExtended_byte_lt _⟩
    · exact ⟨_, _, step_read_of_wf hp (sp := .obuf) rfl hk, rfl, zeroExtended_byte_lt _⟩

theorem clean_reset (c : Capacities) (seed : Nat) : (Arch.reset c seed).Clean where
  lengths := ⟨rfl, rfl, rfl, rfl, rfl⟩
  root := rfl
  nleaf := rfl
  status := rfl
  errors := ⟨rfl, rfl, rfl⟩
  ft := tableGet_replicate 0
  node := nodeAt_freeTable
  codebook s := ⟨tableGet_replicate 0 s, tableGet_replicate 0 s⟩

/-- Settles O12: both states are `Arch.reset` of the capacities. -/
theorem resetLeavesTheCleanState : Obligations.ResetLeavesTheCleanState :=
  ⟨fun _ _ hp => ⟨_, step_reset hp, clean_reset _ _, rfl, rfl, rfl, rfl⟩,
    fun c => ⟨clean_reset c 0, rfl, rfl, rfl⟩⟩

end Sys2Proof.Machine
end

section
/-!
PROOF. O6 to O10: the host's port. A read has no side effect and is repeatable (R53); a write reaches a byte of `IBUF`,
`ILEN` or a command and nothing else (R55, R57); the access errors are exactly the reserved spaces and the indices out
of range (R58); and what a read of a register or of a packed view answers (R55, R56). The step of a write that is none
to `CMD` is said once for each of three cases: `step_write_ibuf`, `step_write_ilen`, `step_write_ignored`.
-/

namespace Sys2Proof.Machine

/-! ### Space ids and register indices -/

/-- The id of a space (R46). -/
def Space.id : Space → SpaceId
  | .reg => 0
  | .ibuf => 1
  | .pbuf => 2
  | .obuf => 3
  | .ft => 4
  | .node => 5
  | .cb => 6

/-- The index of a register in space 0 (R55). -/
def Reg.index : Reg → Nat
  | .cmd => 0
  | .status => 1
  | .errcode => 2
  | .errinfo => 3
  | .errcmd => 4
  | .ilen => 5
  | .ocnt => 6
  | .plen => 7
  | .nbits => 8
  | .olen => 9
  | .root => 10
  | .nleaf => 11
  | .ibufCap => 12
  | .pbufCap => 13
  | .obufCap => 14

theorem spaceOf_eq_some_iff {id : SpaceId} {sp : Space} : spaceOf id = some sp ↔ id = sp.id := by
  revert id
  cases sp <;> decide

theorem spaceOf_eq_none_iff {id : SpaceId} : spaceOf id = none ↔ 7 ≤ id.toNat := by
  revert id
  decide

theorem index_of_regOf {k : Nat} {r : Reg} (h : regOf k = some r) : k = r.index := by
  unfold regOf at h
  split at h <;> cases h <;> rfl

/-- The access errors (R58): a reserved space, or an index outside the range of R46. -/
theorem accessWellFormed_eq_false_iff (a : Arch) (id : SpaceId) (k : Nat) :
    accessWellFormed a id k = false ↔
      7 ≤ id.toNat ∨ ∃ sp : Space, id = sp.id ∧ a.spaceSize sp ≤ k := by
  simp only [← Bool.not_eq_true, accessWellFormed_iff, ← spaceOf_eq_none_iff, ← spaceOf_eq_some_iff]
  cases spaceOf id <;> simp

/-! ### Reads -/

/-- A read in range of a state with the same architectural state and epoch as `s` gives what it gives in `s`
(R53). -/
theorem step_read_repeated {s u : State} {id : SpaceId} {k : Nat} {sp : Space}
    {rest : List HostAccess} (hp : u.pending = .read id k :: rest) (hsp : spaceOf id = some sp)
    (hk : k < s.spaceSize sp) (ha : u.toArch = s.toArch) (he : u.epoch = s.epoch) :
    ∃ t, step u = .next t ∧ t.reply = .data (readLocation s sp k) := by
  refine ⟨_, step_read_of_wf hp hsp (ha ▸ hk), ?_⟩
  rw [readLocation_congr ha he]

/-! ### Writes -/

section Write
variable {s : State} {rest : List HostAccess} {v : Word64}

/-- A write to a byte of `IBUF` in range (R57). -/
theorem step_write_ibuf {k : Nat} (hp : s.pending = .write 1 k v :: rest) (hk : k < s.ibufCap.toNat) :
    step s = .next { s with
      ibuf := Memory.put s.ibuf k (v.setWidth 8), pending := rest, reply := .ack } :=
  step_write_of_wf hp (sp := .ibuf) rfl hk

/-- A write to `ILEN` (R55). -/
theorem step_write_ilen (hp : s.pending = .write 0 5 v :: rest) :
    step s = .next { s with ilen := v, pending := rest, reply := .ack } :=
  step_write_of_wf hp (sp := .reg) rfl (by decide : 5 < 15)

/-- A write to a location without W is ignored (R55, R57). -/
theorem writeLocation_ignored {sp : Space} {k : Nat} (hi : sp ≠ .ibuf)
    (hr : sp = .reg → k ≠ 0 ∧ k ≠ 5) : writeLocation sp k v s = .next s := by
  cases sp with
  | ibuf => exact absurd rfl hi
  | reg =>
    obtain ⟨h0, h5⟩ := hr rfl
    unfold writeLocation
    cases h : regOf k with
    | none => rfl
    | some r =>
      have hk := index_of_regOf h
      cases r with
      | cmd => exact absurd hk h0
      | ilen => exact absurd hk h5
      | _ => rfl
  | _ => rfl

/-- A write to any other location changes nothing but the port: it is an access error or ignored (R55, R58). -/
theorem step_write_ignored {id : SpaceId} {k : Nat} (hp : s.pending = .write id k v :: rest)
    (hi : id = 1 → s.ibufCap.toNat ≤ k) (hr : id = 0 → k ≠ 0 ∧ k ≠ 5) :
    ∃ r, step s = .next { s with pending := rest, reply := r } := by
  by_cases hw : accessWellFormed s.toArch id k = true
  · obtain ⟨sp, hsp, hk⟩ := (accessWellFormed_iff _ _ _).mp hw
    obtain rfl := spaceOf_eq_some_iff.mp hsp
    refine ⟨.ack, (step_write_of_wf hp hsp hk).trans (writeLocation_ignored ?_ ?_)⟩
    · rintro rfl
      exact absurd hk (Nat.not_lt.mpr (hi rfl))
    · rintro rfl
      exact hr rfl
  · rw [step_write hp, hostWrite_of_error (s := { s with pending := rest }) (by simpa using hw)]
    exact ⟨_, rfl⟩

end Write

/-! ### The packed views -/

/-- The bit fields of the link word (R56). The widths stay sums, so that the laws of `++` apply part by part. -/
theorem linkWord_fields (n : Node) :
    (linkWord n).extractLsb 8 0 = n.left ∧ (linkWord n).extractLsb 17 9 = n.right ∧
      (linkWord n).extractLsb 25 18 = n.sym ∧ (linkWord n).extractLsb 27 26 = kindBits n.kind ∧
      (linkWord n).extractLsb 63 28 = 0 := by
  refine ⟨?_, ?_, ?_, ?_, ?_⟩ <;>
    simp [linkWord, BitVec.extractLsb, BitVec.extractLsb'_append_eq_of_le,
      BitVec.extractLsb'_append_eq_of_add_le, -Nat.reduceAdd]

theorem readNodeView_freq (a : Arch) (i : Nat) : readNodeView a (2 * i) = (nodeAt a.node i).freq := by
  simp [readNodeView]

theorem readNodeView_link (a : Arch) (i : Nat) :
    readNodeView a (2 * i + 1) = linkWord (nodeAt a.node i) := by
  have h1 : (2 * i + 1) % 2 = 1 := by omega
  have h2 : (2 * i + 1) / 2 = i := by omega
  simp [readNodeView, h1, h2]

theorem readCodebookView_len (a : Arch) (b : Byte) :
    readCodebookView a (8 * b.toNat) = (tableGet a.clen b).setWidth 64 := by
  simp [readCodebookView]

/-- Word `w` of a codebook entry, `w = 1` to `7`, holds 64 bits of the code, zeros beyond its width (R56). -/
theorem readCodebookView_code (a : Arch) (b : Byte) {w : Nat} (h1 : 1 ≤ w) (h7 : w ≤ 7) :
    readCodebookView a (8 * b.toNat + w) = (tableGet a.code b).extractLsb' (64 * (w - 1)) 64 := by
  have hm : (8 * b.toNat + w) % 8 = w := by omega
  have hd : (8 * b.toNat + w) / 8 = b.toNat := by omega
  have h0 : w ≠ 0 := by omega
  simp [readCodebookView, hm, hd, h0]

/-! ### The statements -/

/-- Settles O6: the reads by `hostRead_keeps` and `step_read_repeated`, the writes by the three cases of a write. -/
theorem hostAccessSideEffects : Obligations.HostAccessSideEffects := by
  refine ⟨fun s id k rest hp => ?_, fun s id k rest hp hw => ?_, fun s id k mid rest hp hw => ?_,
    fun s k v rest hp hk => ?_, fun s v rest hp => ⟨_, step_write_ilen hp, rfl⟩,
    fun s id k v rest hp hi hr => ?_⟩
  · obtain ⟨harch, hpend, hepoch⟩ := hostRead_keeps id k { s with pending := rest }
    exact ⟨_, step_read hp, harch, hepoch, hpend⟩
  · obtain ⟨sp, hsp, hk⟩ := (accessWellFormed_iff _ _ _).mp hw
    have h1 := step_read_of_wf hp hsp hk
    obtain ⟨u, h2, hu⟩ := step_read_repeated (s := s)
      (u := { s with pending := .read id k :: rest, reply := .data (readLocation s sp k) })
      rfl hsp hk rfl rfl
    exact ⟨_, u, _, h1, h2, rfl, hu⟩
  · obtain ⟨sp, hsp, hk⟩ := (accessWellFormed_iff _ _ _).mp hw
    have h1 := step_read_of_wf hp hsp hk
    have h2 := step_read (s := { s with
      pending := .read mid.1 mid.2 :: .read id k :: rest, reply := .data (readLocation s sp k) }) rfl
    obtain ⟨harch, hpend, hepoch⟩ := hostRead_keeps mid.1 mid.2 { s with
      pending := .read id k :: rest, reply := .data (readLocation s sp k) }
    obtain ⟨w, h3, hw⟩ := step_read_repeated hpend hsp hk harch hepoch
    exact ⟨_, _, w, _, h1, h2, h3, rfl, hw⟩
  · exact ⟨_, step_write_ibuf hp hk, rfl, Memory.read_put_same, fun j hj => Memory.read_put_other hj⟩
  · obtain ⟨r, hstep⟩ := step_write_ignored hp (fun h => absurd h hi) (fun h => by simpa [h] using hr)
    exact ⟨_, hstep, rfl⟩

/-- Settles O7: a write that is none to `CMD` is one of the three cases of a write. -/
theorem hostWritesReachOnlyInput : Obligations.HostWritesReachOnlyInput := by
  refine ⟨fun s v rest hp => step_command hp, fun s t id k v rest hp hcmd hst => ?_⟩
  by_cases hib : id = 1 ∧ k < s.ibufCap.toNat
  · obtain ⟨rfl, hk⟩ := hib
    rw [step_write_ibuf hp hk] at hst
    cases hst
    exact ⟨rfl, fun j hj => Memory.read_put_other fun e => hj ⟨rfl, e⟩,
      fun _ _ => Memory.read_put_same, fun _ => rfl, fun h => absurd h.1 (by decide),
      fun h => absurd h (by decide)⟩
  by_cases hil : id = 0 ∧ k = 5
  · obtain ⟨rfl, rfl⟩ := hil
    rw [step_write_ilen hp] at hst
    cases hst
    exact ⟨rfl, fun _ _ => rfl, fun h => absurd h (by decide), fun h => absurd ⟨rfl, rfl⟩ h,
      fun _ => rfl, fun h => absurd h (by decide)⟩
  · obtain ⟨r, hstep⟩ := step_write_ignored hp (fun h => Nat.not_lt.mp fun hk => hib ⟨h, hk⟩)
      (fun h => ⟨fun hk => hcmd ⟨h, hk⟩, fun hk => hil ⟨h, hk⟩⟩)
    rw [hstep] at hst
    cases hst
    exact ⟨rfl, fun _ _ => rfl, fun h hk => absurd ⟨h, hk⟩ hib, fun _ => rfl,
      fun h => absurd h hil, fun _ => rfl⟩

/-- Settles O8: the ranges are the sizes of the seven spaces. -/
theorem accessErrorsChangeNothing : Obligations.AccessErrorsChangeNothing := by
  intro s id k
  refine ⟨?_, fun hw => ⟨fun rest hp => ?_, fun v rest hp => ?_⟩⟩
  · rw [accessWellFormed_eq_false_iff]
    refine or_congr_right ⟨?_, ?_⟩
    · rintro (h | h | h | h | h | h | h)
      exacts [⟨.reg, h⟩, ⟨.ibuf, h⟩, ⟨.pbuf, h⟩, ⟨.obuf, h⟩, ⟨.ft, h⟩, ⟨.node, h⟩, ⟨.cb, h⟩]
    · rintro ⟨sp, rfl, hk⟩
      cases sp <;> simpa [Space.id, Arch.spaceSize] using hk
  · rw [step_read hp, hostRead_of_error (s := { s with pending := rest }) hw]
    exact ⟨_, _, rfl, rfl, rfl⟩
  · rw [step_write hp, hostWrite_of_error (s := { s with pending := rest }) hw]
    exact ⟨_, rfl, rfl, rfl⟩

/-- Settles O9: reads by the register's clause of `readReg`, zero-extended where it is narrower than a word. -/
theorem registerMapReads : Obligations.RegisterMapReads := by
  refine ⟨fun s k rest hp hk => ?_, fun s k w rest hp hk => ⟨fun h0 h5 => ?_, ?_, ?_⟩⟩
  · have zeroExtended {n : Nat} (x : BitVec n) (hn : n ≤ 64) : (x.setWidth 64).toNat = x.toNat :=
      BitVec.toNat_setWidth_of_le hn
    refine ⟨_, _, step_read_of_wf hp (sp := .reg) rfl hk, rfl, ?_⟩
    refine ⟨?_, ?_, ?_, ?_, ?_, ?_, ?_, ?_, ?_, ?_, ?_, ?_, ?_, ?_, ?_⟩ <;> rintro rfl
    case refine_2 => exact zeroExtended s.status (by decide)
    case refine_3 => exact zeroExtended s.errcode (by decide)
    case refine_5 => exact zeroExtended s.errcmd (by decide)
    case refine_11 => exact zeroExtended s.root (by decide)
    case refine_12 => exact zeroExtended s.nleaf (by decide)
    all_goals rfl
  · have hstep := (step_write_of_wf hp (sp := .reg) rfl hk).trans
      (writeLocation_ignored (by decide) fun _ => ⟨h0, h5⟩)
    exact ⟨_, hstep, rfl, rfl⟩
  · rintro rfl
    exact ⟨_, step_write_ilen hp, rfl, rfl⟩
  · rintro rfl
    exact step_command hp

/-- Settles O10: the bits of R56 are those of `linkWord_fields` and of `readCodebookView_code`. -/
theorem packedViewsRead : Obligations.PackedViewsRead := by
  refine ⟨fun s i w rest hp hi hw => ?_, fun s b w rest hp hw => ?_⟩
  · have hk : 2 * i + w < 1022 := by omega
    refine ⟨_, _, step_read_of_wf hp (sp := .node) rfl hk, rfl, ?_, ?_⟩
    · rintro rfl
      exact readNodeView_freq s.toArch i
    · rintro rfl
      simp only [readLocation, readNodeView_link]
      exact linkWord_fields _
  · have hk : 8 * b.toNat + w < 2048 := by omega
    refine ⟨_, _, step_read_of_wf hp (sp := .cb) rfl hk, rfl, ?_, fun h1 h4 j hj => ?_, fun h5 => ?_⟩
    · rintro rfl
      simp only [readLocation, Nat.add_zero, readCodebookView_len]
      exact BitVec.toNat_setWidth_of_le (by decide)
    · simp only [readLocation, readCodebookView_code _ b h1 hw, BitVec.getLsbD_extractLsb', hj,
        decide_true, Bool.true_and]
    · simp only [readLocation, readCodebookView_code _ b (by omega : 1 ≤ w) hw]
      refine BitVec.eq_of_getLsbD_eq fun j hj => ?_
      rw [BitVec.getLsbD_extractLsb', BitVec.getLsbD_of_ge _ _ (by omega)]
      simp

end Sys2Proof.Machine
end

section
/-!
PROOF. O1 to O3: the command byte (R63, R64, R67, R156). The decoder is the inverse of the encoder, and a byte is
reserved when it encodes no command; what a write to `CMD` does is said once for each answer of the decoder.
-/

namespace Sys2Proof.Machine

/-! ### The decoder -/

theorem Instr.mem_all (i : Instr) : i ∈ Instr.all := by cases i <;> decide

/-- A byte is reserved when it is the opcode of no command (R64, R67). -/
theorem decodeByte_eq_reserved_iff {op : Byte} :
    decodeByte op = .reserved op ↔ op ∉ Instr.all.map encode := by
  simp only [List.mem_map, not_exists, not_and]
  constructor
  · rintro h i - rfl
    rw [decodeByte_encode] at h
    cases h
  · intro h
    cases hd : decodeByte op with
    | command i => exact absurd (encode_of_decodeByte hd) (h i (Instr.mem_all i))
    | reserved b => rw [reserved_of_decodeByte hd]

/-- The reserved opcodes as the ranges of R67. -/
theorem decodeByte_eq_reserved_iff_range {op : Byte} : decodeByte op = .reserved op ↔
    op = 0x00 ∨ (0x09 ≤ op.toNat ∧ op.toNat ≤ 0x0F) ∨ 0x12 ≤ op.toNat := by
  rw [decodeByte_eq_reserved_iff]
  simp only [Instr.all, List.map, encode, List.mem_cons, List.not_mem_nil, or_false]
  bv_omega

/-! ### Issuing a byte -/

section Issue
variable {op : Byte} {s : State}

theorem issueCommand_of_command {i : Instr} (h : decodeByte op = .command i) :
    issueCommand op s = exec i s := by
  unfold issueCommand; rw [h]

theorem issueCommand_of_reserved {b : Byte} (h : decodeByte op = .reserved b) :
    issueCommand op s = issueReserved b s := by
  unfold issueCommand; rw [h]

/-- While `ERR = 1` a byte other than CLEAR's opcode does nothing (R63, R160). -/
theorem issueCommand_of_err (h : s.err = true) (hop : op ≠ encode .clear) :
    issueCommand op s = .next s := by
  cases hd : decodeByte op with
  | command i =>
    have hi : i ≠ .clear := by
      rintro rfl
      exact hop (encode_of_decodeByte hd).symm
    rw [issueCommand_of_command hd, exec_of_err h hi]
  | reserved b => rw [issueCommand_of_reserved hd, issueReserved_of_err h]

end Issue

/-- A write of a reserved opcode to `CMD` while `ERR = 0` (R156). -/
theorem step_reserved {s : State} {v : Word64} {rest : List HostAccess} {b : Byte}
    (hp : s.pending = .write 0 0 v :: rest) (hd : decodeByte (v.setWidth 8) = .reserved b)
    (he : s.err = false) :
    step s = .next { s with
      toArch := recordError b .illegalCommand b.toNat s.toArch, pending := rest, reply := .ack } := by
  rw [step_command hp, issueCommand_of_reserved hd]
  exact issueReserved_of_ok he

/-! ### The statements -/

/-- Settles O1: the assigned opcodes are the encodings of the ten commands. -/
theorem assignedOpcodesDecode : Obligations.AssignedOpcodesDecode :=
  ⟨decodeByte_encode .clear, decodeByte_encode .count, decodeByte_encode .build,
    decodeByte_encode .codes, decodeByte_encode .pack, decodeByte_encode .serialize,
    decodeByte_encode .deserialize, decodeByte_encode .decode, decodeByte_encode .compress,
    decodeByte_encode .decompress, fun _ h => decodeByte_eq_reserved_iff.mpr h, decodeByte_encode,
    fun _ _ h => encode_of_decodeByte h⟩

/-- Settles O2: the ten opcodes leave the ranges of R67, and an error record touches the status registers only. -/
theorem reservedOpcodeRaisesIllegalCommand : Obligations.ReservedOpcodeRaisesIllegalCommand := by
  refine ⟨fun _ => decodeByte_eq_reserved_iff_range, ?_⟩
  rintro s _ v rest hp rfl hd he
  exact ⟨_, step_reserved hp hd he, ⟨recordError_status _ _ _ _, rfl, rfl, rfl⟩, rfl, rfl, rfl⟩

/-- Settles O3: a write to `CMD` issues its low byte, by the three cases of issuing a byte. -/
theorem stepRunsTheDecodedCommand : Obligations.StepRunsTheDecodedCommand := by
  intro s v rest hp
  refine ⟨fun he hop => ?_, fun i _ hd => ?_, fun op he hd => step_reserved hp hd he⟩
  · rw [step_command hp]
    exact issueCommand_of_err he hop
  · rw [step_command hp, issueCommand_of_command hd]

end Sys2Proof.Machine
end

section
/-!
PROOF. O13 to O16 and O38: CLEAR and COUNT (R74 to R78), and what COUNT, BUILD, PACK and DECODE depend on (R79, R90,
R105, R120).
-/

namespace Sys2Proof.Machine

/-! ### CLEAR -/

theorem sameBytes_stageClear (a : Arch) : sameBytes a (stageClear a) := sameBytes_of rfl rfl rfl rfl

/-- CLEAR of a cleared state changes nothing (R75): what it keeps it does not read. -/
theorem stageClear_stageClear (a : Arch) : stageClear (stageClear a) = stageClear a := rfl

/-- CLEAR of the reset state changes nothing (R75). -/
theorem stageClear_reset (c : Capacities) (seed : Nat) :
    stageClear (Arch.reset c seed) = Arch.reset c seed := rfl

theorem clear_arch {s t : State} (hx : exec .clear s = .next t) : t.toArch = stageClear s.toArch :=
  (congrArg State.toArch (Host.Outcome.next.inj ((exec_of_ok (.inr rfl)).symm.trans hx))).symm

/-- Settles O13: CLEAR executes whatever `ERR` is, and only CLEAR does while `ERR = 1`. -/
theorem clearLeavesResetValues : Obligations.ClearLeavesResetValues := fun s =>
  ⟨_, exec_of_ok (.inr rfl), tableGet_emptyTable, rfl, nodeAt_freeTable, rfl, rfl,
    fun b => ⟨tableGet_replicate 0 b, tableGet_replicate 0 b⟩, rfl, rfl, rfl, rfl, rfl, rfl, rfl,
    rfl, rfl, rfl, rfl, rfl, sameBytes_stageClear s.toArch, ⟨rfl, rfl, rfl⟩,
    fun he _ hi => exec_of_err he hi⟩

/-- Settles O14: both halves on the body of CLEAR. -/
theorem clearIsIdempotent : Obligations.ClearIsIdempotent := by
  refine ⟨fun s t u ht hu => ?_, fun c t ht => ?_⟩
  · rw [clear_arch hu, clear_arch ht, stageClear_stageClear]
  · rw [clear_arch ht]
    exact stageClear_reset c 0

/-! ### COUNT -/

section Count
variable {s : State} (he : s.err = false)
include he

/-- COUNT of an input that fits. -/
theorem exec_count_of_le (h : s.ilen.toNat ≤ s.ibufCap.toNat) : exec .count s = .next { s with
    toArch := complete { s.toArch with ft := tally s.input emptyTable, ocnt := s.ilen }
    epoch := s.epoch + 1 } := by
  rw [exec_of_ok_ne he (by decide), bodyOf, stageCount_of_le h]

/-- COUNT of an input longer than its buffer. -/
theorem exec_count_of_gt (h : s.ibufCap.toNat < s.ilen.toNat) : exec .count s = .next { s with
    toArch := raiseError .count .capacity s.ilen.toNat s.toArch
    epoch := s.epoch + 1 } := by
  rw [exec_of_ok_ne he (by decide), bodyOf, stageCount_of_gt h, complete_raiseError]

/-- A COUNT that raises nothing met an input that fits, and leaves its tally (R77). -/
theorem count_tally_of_ok {t : State} (hx : exec .count s = .next t) (ht : t.err = false) :
    t.ft = tally s.input emptyTable ∧ t.ocnt = s.ilen := by
  by_cases h : s.ilen.toNat ≤ s.ibufCap.toNat
  · rw [exec_count_of_le he h] at hx
    cases hx
    exact ⟨complete_ft _, complete_ocnt _⟩
  · rw [exec_count_of_gt he (Nat.lt_of_not_le h)] at hx
    cases hx
    rw [raiseError_err] at ht
    cases ht

end Count

/-- Settles O15: each branch of the length check leaves its `FT`, `OCNT` and status; COUNT's frame is the rest. -/
theorem countTalliesTheInput : Obligations.CountTalliesTheInput := by
  intro s he
  refine ⟨fun h => ?_, fun h => ?_⟩
  · have hx := exec_count_of_le he h
    have hft : ∀ b, (tableGet (tally s.input emptyTable) b).toNat = s.input.count b :=
      tally_toNat (input_lt s.toArch)
    refine ⟨_, hx, fun b => ?_, complete_ocnt _, completesFrom_complete he rfl rfl rfl, count_framed hx⟩
    rw [complete_ft]
    exact hft b
  · have hx := exec_count_of_gt he h
    exact ⟨_, hx, raiseError_raised _ _ _ _, tableGet_emptyTable, rfl, count_framed hx⟩

/-- BUILD, CODES, PACK and SERIALIZE keep `FT` (R78): it is in none of their frames' destinations. -/
theorem compressPath_ft {i : Instr} (hi : i ∈ [Instr.build, Instr.codes, Instr.pack, Instr.serialize])
    {u v : State} (hx : exec i u = .next v) : v.ft = u.ft := by
  simp only [List.mem_cons, List.not_mem_nil, or_false] at hi
  rcases hi with rfl | rfl | rfl | rfl
  · exact (congrArg Arch.ft (build_framed hx) :)
  · exact (congrArg Arch.ft (codes_framed hx) :)
  · exact (congrArg Arch.ft (pack_framed hx) :)
  · exact (congrArg Arch.ft (serialize_framed hx) :)

/-- Settles O16: the laws of the tally. -/
theorem countsSumToInputLength : Obligations.CountsSumToInputLength := by
  intro s t he hx ht
  obtain ⟨hft, hocnt⟩ := count_tally_of_ok he hx ht
  refine ⟨?_, hocnt, fun b => ?_, fun i hi u v => compressPath_ft hi⟩
  · rw [hft, tallied_sum]
  · rw [hft, mem_input_iff]

/-! ### The unit commands as functions -/

theorem build_congr {a b : Arch} (h : a.ft = b.ft) : (stageBuild a).node = (stageBuild b).node ∧
    (stageBuild a).root = (stageBuild b).root ∧ (stageBuild a).nleaf = (stageBuild b).nleaf := by
  unfold stageBuild; rw [h]; exact ⟨rfl, rfl, rfl⟩

/-- Settles O38: each command leaves its completed body, and each body has its congruence; completion changes no
result and no error register. -/
theorem unitCommandsAreFunctions : Obligations.UnitCommandsAreFunctions := by
  intro s s' t t' he he'
  have hee : s.err = s'.err := he.trans he'.symm
  refine ⟨fun hin hlen hcap hx hx' => ?_, fun hft hx hx' => ?_,
    fun hin hlen hclen hcode hicap hpcap hx hx' => ?_,
    fun hnode hroot hpay _ hocnt hcap hx hx' => ?_⟩ <;>
  rw [exec_arch (by decide) he hx, exec_arch (by decide) he' hx']
  · obtain ⟨hft, ho, herr, hst⟩ := count_congr hee hin hlen hcap
    simp only [bodyOf, complete_ft, complete_ocnt, complete_err, complete_errcode, complete_errinfo]
    exact ⟨hft, ho, herr, fun h => (hst h he).2.imp_right And.left⟩
  · simp only [bodyOf, complete_node, complete_root, complete_nleaf]
    exact build_congr hft
  · obtain ⟨hpl, hnb, hpay, herr, hst⟩ := pack_congr hee hin hlen hclen hcode hicap hpcap
    simp only [bodyOf, complete_plen, complete_nbits, complete_payload, complete_err,
      complete_errcode, complete_errinfo]
    exact ⟨hpl, hnb, hpay, herr, fun h => (hst h he).2.imp_right And.left⟩
  · obtain ⟨hol, hout, herr, hst⟩ := decode_congr hee hnode hroot hpay hocnt hcap
    simp only [bodyOf, complete_olen, complete_output, complete_err, complete_errcode,
      complete_errinfo]
    exact ⟨hol, hout, herr, fun h => (hst h he).2.imp_right And.left⟩

end Sys2Proof.Machine
end

section
/-!
PROOF. O17 to O21: BUILD (R83 to R89). The laws of the merge (Laws/Merge.lean, Laws/Tree.lean) and of the weighted
path length (Laws/Cost.lean) speak of `mergeAll`; `exec_build` says once that BUILD leaves just that.
-/

namespace Sys2Proof.Machine

/-- BUILD completes, and leaves the arena, the root and the number of leaves that merging gives (R83). -/
theorem exec_build {s : State} (he : s.err = false) : ∃ t, exec .build s = .next t ∧
    completesFrom t.toArch s.toArch ∧ t.node = (mergeAll s.ft).1 ∧ t.root = rootOf (mergeAll s.ft).2 ∧
    t.nleaf = BitVec.ofNat 9 (presentSymbols s.ft).length :=
  ⟨_, exec_of_ok_ne he (by decide), completesFrom_complete he rfl rfl rfl, complete_node _,
    complete_root _, (complete_nleaf _).trans (congrArg (BitVec.ofNat 9) (initialLive_length s.ft))⟩

theorem presentCount_toNat (ft : SymTable Word64) :
    (BitVec.ofNat 9 (presentSymbols ft).length).toNat = (presentSymbols ft).length := by
  have hle := presentSymbols_length_le ft
  rw [BitVec.toNat_ofNat]
  exact Nat.mod_eq_of_lt (by omega)

/-! ### The order and the merges -/

/-- Settles O18: by the order's three laws; irreflexivity is asymmetry at one index. -/
theorem tieBreakIsAStrictTotalOrder : Obligations.TieBreakIsAStrictTotalOrder := by
  intro t i j k
  refine ⟨comesBefore_iff t i j, ?_, comesBefore_trans t, fun hne => ⟨fun hij => ?_, fun hji => ?_⟩⟩
  · exact Bool.eq_false_iff.mpr fun hii => comesBefore_asymm t hii hii
  · exact Bool.eq_false_iff.mpr fun hji => comesBefore_asymm t hij hji
  · exact comesBefore_total t hne.symm hji

/-- The whole record of a merge (R86). -/
theorem MergedLeast.nodeAt_eq {t : NodeTable} {k a b : Nat} (h : MergedLeast t k a b)
    (hk : (nodeAt t (256 + k)).kind = .inner) : nodeAt t (256 + k) =
      ⟨.inner, 0, (nodeAt t a).freq + (nodeAt t b).freq, BitVec.ofNat 9 a, BitVec.ofNat 9 b⟩ := by
  have hl : BitVec.ofNat 9 a = (nodeAt t (256 + k)).left := by
    rw [← h.left_eq, BitVec.ofNat_toNat, BitVec.setWidth_eq]
  have hr : BitVec.ofNat 9 b = (nodeAt t (256 + k)).right := by
    rw [← h.right_eq, BitVec.ofNat_toNat, BitVec.setWidth_eq]
  rw [hl, hr, ← h.freq_eq, ← h.sym_zero, ← hk]

/-- The node left when merging ends is the only one live (R83). -/
theorem live_iff_root {ft : SymTable Word64} (hne : presentSymbols ft ≠ []) (i : Nat) :
    liveBefore (mergeAll ft).1 ((presentSymbols ft).length - 1) i ↔
      i = (rootOf (mergeAll ft).2).toNat := by
  obtain ⟨hempty, -⟩ | ⟨-, r, hr, -, hroot, -⟩ := root_spec ft
  · exact absurd hempty hne
  · rw [← (mergeAll_spec ft).1.live_iff, hroot, hr, List.mem_singleton]

/-- With no symbol there is no root (R87). -/
theorem rootOf_mergeAll_nil {ft : SymTable Word64} (h : presentSymbols ft = []) :
    rootOf (mergeAll ft).2 = Config.nil := by
  obtain ⟨-, hroot⟩ | ⟨hne, -⟩ := root_spec ft
  · exact hroot
  · exact absurd h hne

/-- Settles O17: the invariant of the merge loop, as merging leaves it, and the one live node left. -/
theorem buildMergesTheTwoLeast : Obligations.BuildMergesTheTwoLeast := by
  intro s he
  obtain ⟨t, hx, hc, hnode, hroot, hleaf⟩ := exec_build he
  obtain ⟨hinv, -⟩ := mergeAll_spec s.ft
  have hn : t.nleaf.toNat = (presentSymbols s.ft).length := by rw [hleaf, presentCount_toNat]
  refine ⟨t, hx, hc, hn, fun b => ?_, fun k hk => ?_, fun i hi h256 => ?_, fun h0 => ?_,
    fun h0 i => ?_⟩
  · rw [hnode]
    exact mergeAll_leaf s.ft b
  · obtain ⟨hkind, a, b, hml⟩ := hinv.merged k (by omega)
    rw [hnode]
    exact ⟨a, b, hml.left_live, hml.right_live, hml.ne, hml.left_least, hml.right_least,
      hml.nodeAt_eq hkind⟩
  · rw [hnode]
    exact hinv.rest_free i (by omega)
  · rw [hroot]
    rw [h0] at hn
    exact rootOf_mergeAll_nil (List.length_eq_zero_iff.mp hn.symm)
  · rw [hnode, hroot, hn]
    refine live_iff_root (fun hnil => h0 (BitVec.eq_of_toNat_eq ?_)) i
    rw [hn, hnil]
    rfl

/-! ### Tables of no symbol and of one -/

theorem presentSymbols_eq_nil {ft : SymTable Word64} (h : ∀ b, tableGet ft b = 0) :
    presentSymbols ft = [] :=
  List.eq_nil_iff_forall_not_mem.mpr fun b hb => (mem_presentSymbols ft b).mp hb (h b)

theorem presentSymbols_eq_singleton {ft : SymTable Word64} {b : Byte} (hb : tableGet ft b ≠ 0)
    (h : ∀ u, u ≠ b → tableGet ft u = 0) : presentSymbols ft = [b] := by
  refine List.perm_singleton.mp ?_
  rw [List.perm_ext_iff_of_nodup (presentSymbols_nodup ft) (List.nodup_singleton b)]
  intro u
  rw [mem_presentSymbols, List.mem_singleton]
  exact ⟨fun hu => Decidable.byContradiction fun hne => hu (h u hne), fun e => e ▸ hb⟩

/-- With at most one symbol nothing is merged: the arena is the leaves' (R87). -/
theorem mergeAll_of_le_one {ft : SymTable Word64} (h : (presentSymbols ft).length ≤ 1) :
    mergeAll ft = (leafTable ft, initialLive ft) := by
  rw [mergeAll, initialLive_length, Nat.sub_eq_zero_of_le h]
  rfl

/-- Settles O19: no merge takes place, so the arena and the live nodes are those before the first merge. -/
theorem buildOfDegenerateTables : Obligations.BuildOfDegenerateTables := by
  intro s he
  obtain ⟨t, hx, -, hnode, hroot, hleaf⟩ := exec_build he
  refine ⟨fun hz => ⟨t, hx, ?_⟩, fun b hb hu => ⟨t, hx, ?_⟩⟩
  · have hp := presentSymbols_eq_nil hz
    rw [mergeAll_of_le_one (by rw [hp]; decide)] at hnode hroot
    refine ⟨by rw [hroot, initialLive, hp]; rfl, by rw [hleaf, hp]; rfl, fun i => ?_⟩
    rw [hnode]
    by_cases hi : i < 256
    · rw [nodeAt_leafTable_low s.ft hi, leafSlot_of_zero (hz _)]
    · exact nodeAt_leafTable_high s.ft (Nat.le_of_not_lt hi)
  · have hp := presentSymbols_eq_singleton hb hu
    have hinv := mergeInv_start s.ft
    rw [mergeAll_of_le_one (by rw [hp, List.length_singleton])] at hnode hroot
    refine ⟨?_, by rw [hleaf, hp]; rfl, ?_, fun i hk => ?_⟩
    · have hlt := b.isLt
      rw [hroot, initialLive, hp]
      exact Nat.mod_eq_of_lt (by omega)
    · rw [hnode, nodeAt_leafTable_low s.ft b.isLt, ofNat_toNat_byte, leafSlot_of_ne hb]
    · rw [hnode] at hk
      have hi := (hinv.inner_iff i).mp hk
      omega

/-! ### The tree of a table whose sum fits -/

/-- Under the invariant of R39 (a) the table's sum fits 64 bits. -/
theorem Arch.CountsOk.tableSum_lt {a : Arch} (h : a.CountsOk) : tableSum a.ft < 2 ^ 64 := by
  rw [h]
  exact a.ocnt.isLt

/-- No path from the root to a leaf has as many edges as there are leaves (R88). -/
theorem TreeWf.leadsTo_length_le {t : NodeTable} {root nleaf : NodeIndex} (h : TreeWf t root nleaf)
    {p : List Bool} {b : Byte} (hp : leadsTo t root p b) : p.length ≤ nleaf.toNat - 1 := by
  obtain ⟨hkind, -⟩ | ⟨-, h2⟩ := h.root_kind (nil_of_nil_kind (h.node_of_follow hp.kind))
  · cases p with
    | nil => exact Nat.zero_le _
    | cons c p =>
      rw [h.inner_of_follow hp.kind] at hkind
      cases hkind
  · have hlen := h.root_path_length h2 hp.kind
    omega

/-- The frequency of a node BUILD leaves is the sum of the `FT` entries of the symbols below it (R88). -/
theorem mergeAll_freq_below {ft : SymTable Word64} (hsum : tableSum ft < 2 ^ 64) (i : NodeIndex)
    (hk : (nodeAt (mergeAll ft).1 i.toNat).kind ≠ .free) : ∃ below : List Byte, below.Nodup ∧
      (∀ b, b ∈ below ↔ ∃ p, leadsTo (mergeAll ft).1 i p b) ∧
      (nodeAt (mergeAll ft).1 i.toNat).freq.toNat = (below.map fun b => (tableGet ft b).toNat).sum := by
  obtain ⟨below, hnd, hmem, hfreq⟩ := (treeWf_mergeAll ft hsum).freq_of_leaves i hk
  refine ⟨below, hnd, hmem, hfreq.trans ?_⟩
  simp only [mergeAll_leaf, leafSlot_freq]

/-- Distinct symbols' entries sum to no more than the whole table's (R39 (a)). -/
theorem sum_le_tableSum (ft : SymTable Word64) {below : List Byte} (h : below.Nodup) :
    (below.map fun b => (tableGet ft b).toNat).sum ≤ tableSum ft := by
  obtain ⟨l, hperm, hsub⟩ := List.subperm_of_subset h fun b _ => mem_allSymbols b
  rw [← (hperm.map _).sum_eq]
  exact (hsub.map _).sum_le_sum fun _ _ => Nat.zero_le _

/-- No frequency BUILD leaves exceeds the table's sum (R88). -/
theorem mergeAll_freq_le {ft : SymTable Word64} (hsum : tableSum ft < 2 ^ 64) (i : Nat) :
    (nodeAt (mergeAll ft).1 i).freq.toNat ≤ tableSum ft := by
  by_cases hk : (nodeAt (mergeAll ft).1 i).kind = .free
  · rw [(treeWf_mergeAll ft hsum).free_record i hk]
    exact Nat.zero_le _
  · have hi : i < 511 := by
      by_contra hc
      exact hk (by rw [nodeAt_of_ge (Nat.le_of_not_lt hc)]; rfl)
    have e : (BitVec.ofNat 9 i).toNat = i := by
      rw [BitVec.toNat_ofNat]
      exact Nat.mod_eq_of_lt (by omega)
    obtain ⟨below, hnd, -, hfreq⟩ := mergeAll_freq_below hsum (BitVec.ofNat 9 i) (by rwa [e])
    rw [e] at hfreq
    rw [hfreq]
    exact sum_le_tableSum ft hnd

/-- Settles O20: each clause is a law of a well-formed tree, or of the frequencies merging leaves. -/
theorem buildLeavesAWellFormedTree : Obligations.BuildLeavesAWellFormedTree := by
  intro s he hcounts
  have hsum := hcounts.tableSum_lt
  obtain ⟨t, hx, -, hnode, hroot, hleaf⟩ := exec_build he
  have ht : TreeWf t.node t.root t.nleaf := by
    rw [hnode, hroot, hleaf]
    exact treeWf_mergeAll s.ft hsum
  refine ⟨t, hx, ht, by rw [hleaf, presentCount_toNat], ht.inner_iff, fun h2 => ?_,
    fun p b => ht.leadsTo_length_le, ?_, ?_⟩
  · have htop := ht.root_top h2
    omega
  · rw [hnode]
    exact mergeAll_freq_below hsum
  · rw [hnode]
    exact mergeAll_freq_le hsum

/-- Settles O21: Huffman's argument is `paths_least`; a path exists because every symbol has its leaf. -/
theorem buildIsOptimal : Obligations.BuildIsOptimal := by
  intro s he hcounts h2
  have hsum := hcounts.tableSum_lt
  obtain ⟨t, hx, -, hnode, hroot, -⟩ := exec_build he
  have hne : presentSymbols s.ft ≠ [] := List.length_pos_iff.mp (by omega)
  refine ⟨t, hx, ?_⟩
  rw [hnode, hroot]
  exact ⟨fun b hb => (treeWf_mergeAll s.ft hsum).exists_leadsTo ((leaf_iff_present s.ft b).mpr hb),
    fun path c => paths_least s.ft hsum hne⟩

end Sys2Proof.Machine
end

section
/-!
PROOF. O22 to O24: CODES (R94 to R98). The laws of Laws/Codes.lean speak of the paths of the tree and of
`stageCodes`; `exec_codes` says once that CODES leaves just that codebook.
-/

namespace Sys2Proof.Machine

/-- CODES completes, and leaves the codebook derived from the tree (R94). -/
theorem exec_codes {s : State} (he : s.err = false) : ∃ t, exec .codes s = .next t ∧
    completesFrom t.toArch s.toArch ∧ t.toArch = complete (stageCodes s.toArch) :=
  ⟨_, exec_of_ok_ne he (by decide), completesFrom_complete he rfl rfl rfl, rfl⟩

/-! ### The codebook of a well-formed tree -/

section Codebook
variable {a : Arch} (h : a.TreeOk)
include h

/-- After CODES the length of a symbol with a path is the path's (R94, R95). -/
theorem stageCodes_clen_toNat {b : Byte} {p : List Bool} (hp : codePath a.node a.root b p) :
    (tableGet (stageCodes a).clen b).toNat = p.length :=
  clen_of_holds ((deriveCodes_spec h b).1 p hp) (codePath_length h hp).2

/-- After CODES the entry of a symbol without a path is empty (R94). -/
theorem stageCodes_uncoded {b : Byte} (hno : ∀ p, ¬codePath a.node a.root b p) :
    tableGet (stageCodes a).clen b = 0 ∧ tableGet (stageCodes a).code b = 0 := by
  obtain ⟨hclen, hcode⟩ := (deriveCodes_spec h b).2 hno
  exact ⟨hclen.trans (empty_clen b), hcode.trans (empty_code b)⟩

/-- A code is shorter than the number of leaves, or is the one bit of a lone leaf (R97 (c)). -/
theorem codePath_length_le {b : Byte} {p : List Bool} (hp : codePath a.node a.root b p) :
    p.length ≤ max (a.nleaf.toNat - 1) 1 := by
  obtain ⟨-, ⟨-, -, rfl⟩ | ⟨-, hl⟩⟩ := hp
  · exact le_max_right _ 1
  · exact (h.leadsTo_length_le hl).trans (le_max_left _ _)

/-- The bound of R97 (c) on what CODES stores for any symbol. -/
theorem stageCodes_clen_le (b : Byte) :
    (tableGet (stageCodes a).clen b).toNat ≤ max (a.nleaf.toNat - 1) 1 := by
  by_cases hb : ∃ p, codePath a.node a.root b p
  · obtain ⟨p, hp⟩ := hb
    rw [stageCodes_clen_toNat h hp]
    exact codePath_length_le h hp
  · rw [(stageCodes_uncoded h (not_exists.mp hb)).1]
    exact Nat.zero_le _

end Codebook

/-- Settles O22: the first two clauses are `deriveCodes_spec`; a leaf's path exists and is the only one. -/
theorem codesAreRootToLeafPaths : Obligations.CodesAreRootToLeafPaths := by
  intro s he htree
  obtain ⟨t, hx, hdone, ht⟩ := exec_codes he
  refine ⟨t, hx, hdone, ?_⟩
  rw [ht, complete_clen, complete_code]
  refine ⟨fun b p hp => ⟨stageCodes_clen_toNat htree hp, ?_⟩,
    fun b hno => stageCodes_uncoded htree hno, fun b hk => ?_⟩
  · rw [complete_codeBits]
    exact stageCodes_codeBits htree hp
  · obtain ⟨p, hp⟩ := (exists_codePath htree b).mpr hk
    exact ⟨p, hp, fun q hq => codePath_unique htree hp hq⟩

/-- Settles O23: no code begins another by clause R39 (d) of the codebook CODES leaves, which is read off `NODE`
and `ROOT` alone. -/
theorem codesArePrefixFree : Obligations.CodesArePrefixFree := by
  refine ⟨fun s t he htree hx => ?_, fun s s' t t' he he' hnode hroot hx hx' => ?_⟩
  · rw [exec_arch (by decide) he hx]
    simp only [bodyOf, complete_clen, complete_codeBits]
    refine ⟨stageCodes_clen_ne_zero htree, (stageCodes_codebookOk htree).no_prefix,
      fun b h2 => ?_, fun b h1 => ?_⟩
    · have hle := stageCodes_clen_le htree b
      omega
    · have hle := stageCodes_clen_le htree b
      rw [h1] at hle
      exact hle
  · rw [exec_arch (by decide) he hx, exec_arch (by decide) he' hx']
    simp only [bodyOf, complete_clen, complete_code, stageCodes_clen, stageCodes_code, hnode, hroot,
      and_self]

/-! ### Degenerate trees -/

theorem deriveCodes_nil (t : NodeTable) : deriveCodes t Config.nil = .empty := if_pos rfl

theorem deriveCodes_of_leaf {t : NodeTable} {root : NodeIndex} (hr : root ≠ Config.nil)
    (hk : (nodeAt t root.toNat).kind = .leaf) :
    deriveCodes t root = Codebook.empty.record (nodeAt t root.toNat).sym [false] :=
  (if_neg hr).trans (if_pos hk)

/-- Settles O24: CODES records the code "0" for a lone leaf in the empty codebook, and nothing for an absent tree. -/
theorem codesOfDegenerateTrees : Obligations.CodesOfDegenerateTrees := by
  intro s he
  obtain ⟨t, hx, -, ht⟩ := exec_codes he
  refine ⟨fun hr hk => ⟨t, hx, ?_⟩, fun hr => ⟨t, hx, fun b => ?_⟩⟩
  · rw [ht, complete_clen, complete_code, stageCodes_clen, stageCodes_code, deriveCodes_of_leaf hr hk]
    obtain ⟨hclen, hcode⟩ := Codebook.holds_record .empty (nodeAt s.node s.root.toNat).sym [false]
    exact ⟨hclen, hcode, fun b hb => (Codebook.agree_record .empty [false] hb).1.trans (empty_clen b)⟩
  · rw [ht, complete_clen, stageCodes_clen, hr, deriveCodes_nil, empty_clen]

end Sys2Proof.Machine
end

section
/-!
PROOF. O25 and O26: PACK (R102, R103, R107). How an issued PACK ends is said once for an error entry and once for an
input that fits; the stream bits of the payload are the bits of `bitStream`, and 0 from its end on.
-/

namespace Sys2Proof.Machine

/-! ### The bits of packed bytes -/

/-- The bits of a stream packed into its bytes are the stream's, and 0 from its end on (R52, R103). -/
theorem streamBit_packBits (bits : List Bool) (p : Nat) :
    streamBit (packBits (ceil8 bits.length) bits) p = bits.getD p false := by
  rw [← bitsOfBytes_getD, bitsOfBytes_packBits _ _ (length_le_ceil8 bits.length)]
  rcases Nat.lt_or_ge p bits.length with hp | hp
  · exact List.getD_append _ _ _ _ hp
  · rw [List.getD_append_right _ _ _ _ hp, List.getD_eq_default _ _ hp, List.getD_eq_getElem?_getD,
      List.getElem?_getD_replicate_default_eq]

/-! ### The input and its stream -/

/-- The first input byte without a code, by its index (R104). -/
theorem firstUncoded_input {a : Arch} {i : Nat} (hi : i < a.ilen.toNat)
    (h0 : tableGet a.clen (a.ibufByte i) = 0)
    (hfirst : ∀ j, j < i → tableGet a.clen (a.ibufByte j) ≠ 0) :
    firstUncoded a.clen a.input = some i := by
  refine firstUncoded_eq_some.mpr ⟨a.ibufByte i, ?_, h0, fun j hj b hb => ?_⟩
  · rw [input_getElem?, if_pos hi]
  · rw [input_getElem?, if_pos (hj.trans hi)] at hb
    exact Option.some.inj hb ▸ hfirst j hj

/-- A symbol whose code has a bit has an entry in the codebook (R32). -/
theorem clen_ne_zero_of_codeBits {a : Arch} {b : Byte} (h : a.codeBits b ≠ []) :
    tableGet a.clen b ≠ 0 := by
  intro h0
  refine h (List.length_eq_zero_iff.mp ?_)
  rw [Arch.codeBits, bitsOfCode_length, h0]
  rfl

/-- The stream of an input of one symbol with the code "0": one 0 for each byte (R107). -/
theorem bitStream_of_one_symbol {a : Arch} {b : Byte} (hone : ∀ x ∈ a.input, x = b)
    (hcode : a.codeBits b = [false]) : a.bitStream = List.replicate a.ilen.toNat false := by
  rw [Arch.bitStream, List.eq_replicate_of_mem hone, input_length, List.flatMap_replicate, hcode]
  simp

/-! ### PACK as the host issues it -/

section Pack
variable {s : State} (he : s.err = false)
include he

/-- A PACK whose body raises (R158). -/
theorem exec_pack_of_raise {k : ErrorKind} {n : Nat}
    (e : stagePack s.toArch = raiseError .pack k n s.toArch) :
    ∃ t, exec .pack s = .next t ∧ t.raised 0x05 k n ∧ t.plen = 0 ∧ t.nbits = 0 := by
  refine ⟨_, exec_of_ok_ne he (by decide), ?_⟩
  rw [bodyOf, e, complete_raiseError]
  exact ⟨raiseError_raised _ _ _ _, rfl, rfl⟩

variable (hi : s.ilen.toNat ≤ s.ibufCap.toNat) (hcoded : ∀ b ∈ s.input, tableGet s.clen b ≠ 0)
  (hfit : ceil8 s.bitStream.length ≤ s.pbufCap.toNat)
include hi hcoded hfit

/-- A PACK that passes its three checks (R102, R157). -/
theorem exec_pack_of_fits : ∃ t, exec .pack s = .next t ∧ completesFrom t.toArch s.toArch ∧
    t.nbits = BitVec.ofNat 64 s.bitStream.length ∧ t.plen.toNat = ceil8 s.bitStream.length ∧
    t.payload = packBits (ceil8 s.bitStream.length) s.bitStream := by
  refine ⟨_, exec_of_ok_ne he (by decide), ?_⟩
  have e := stagePack_of_ok hi (firstUncoded_eq_none.mpr hcoded) hfit
  obtain ⟨hplen, hpayload⟩ :=
    packed_payload (b := stagePack s.toArch) hfit (by rw [e]) (by rw [e]) (by rw [e])
  simp only [bodyOf, complete_nbits, complete_plen, complete_payload]
  refine ⟨?_, by rw [e], hplen, hpayload⟩
  rw [e]
  exact completesFrom_complete he rfl rfl rfl

end Pack

/-! ### The statements -/

/-- Settles O25: each check of `stagePack` with what it raises, then the packed stream bit by bit. -/
theorem packStoresTheBitStream : Obligations.PackStoresTheBitStream := by
  intro s he hcaps
  refine ⟨fun h => exec_pack_of_raise he (stagePack_of_gt h),
    fun i hle hi h0 hfirst =>
      exec_pack_of_raise he (stagePack_of_uncoded hle (firstUncoded_input hi h0 hfirst)),
    fun hle hcoded => ⟨fun hfull => exec_pack_of_raise he
      (stagePack_of_full hle (firstUncoded_eq_none.mpr hcoded) hfull), fun hfit => ?_⟩⟩
  obtain ⟨t, hx, hdone, -⟩ := exec_pack_of_fits he hle hcoded hfit
  obtain ⟨-, -, -, hnbits, hplen, hpayload⟩ := pack_ok he hcaps hx (err_of_status hdone.1)
  refine ⟨t, hx, hdone, hnbits, hnbits.trans (bitStream_length s.toArch), hplen,
    fun p _ => ?_, fun p hp _ => ?_⟩
  · rw [hpayload, streamBit_packBits]
  · rw [hpayload, streamBit_packBits]
    exact List.getD_eq_default _ _ (hnbits ▸ hp)

/-- Settles O26: the padding by the bounds on `ceil8`; the streams of R107 are empty, or all zeros. -/
theorem packPadsWithZeros : Obligations.PackPadsWithZeros := by
  refine ⟨fun s t he hcaps hx ht => ?_, fun s he hz => ?_, fun s b he hcaps hi hfit hone hcode => ?_⟩
  · obtain ⟨-, -, -, hnbits, hplen, hpayload⟩ := pack_ok he hcaps hx ht
    have hle := length_le_ceil8 s.bitStream.length
    have hlt := ceil8_lt s.bitStream.length
    rw [hnbits, hplen, hpayload]
    refine ⟨by omega, hle, fun p _ => streamBit_packBits _ p, fun p hp _ => ?_, by omega⟩
    rw [streamBit_packBits]
    exact List.getD_eq_default _ _ hp
  · have hin : s.input = [] := by rw [Arch.input, hz]; rfl
    have hnil : s.bitStream = [] := by rw [Arch.bitStream, hin]; rfl
    obtain ⟨t, hx, hdone, hnbits, hplen, -⟩ := exec_pack_of_fits he (hz ▸ Nat.zero_le _)
      (by simp [hin]) (hnil ▸ Nat.zero_le _)
    rw [hnil] at hnbits hplen
    exact ⟨t, hx, err_of_status hdone.1, BitVec.eq_of_toNat_eq hplen, hnbits⟩
  · have hbits := bitStream_of_one_symbol hone hcode
    have hlen : s.bitStream.length = s.ilen.toNat := by rw [hbits, List.length_replicate]
    have hb : tableGet s.clen b ≠ 0 := clen_ne_zero_of_codeBits (by rw [hcode]; simp)
    obtain ⟨t, hx, hdone, hnbits, hplen, hpayload⟩ := exec_pack_of_fits he hi
      (fun x hx => hone x hx ▸ hb) (hlen ▸ hfit)
    refine ⟨t, hx, err_of_status hdone.1, ?_, by rw [hplen, hlen], ?_⟩
    · rw [hnbits, hlen, BitVec.ofNat_toNat, BitVec.setWidth_eq]
    · rw [hpayload, hbits]
      exact packBits_false _ fun x hx => List.eq_of_mem_replicate hx

end Sys2Proof.Machine
end

section
/-!
PROOF. O32 to O37: DECODE (R109 to R118). `decodeResult` says what DECODE emits or raises; here stands what each result
makes of the state, how the result depends on the payload, and what it is for a payload cut short or packed.
-/

namespace Sys2Proof.Machine

/-! ### The result of DECODE -/

section Result
variable {a b : Arch} {k : ErrorKind} {n : Nat} {out : List Byte}

/-- A result to store is what the body stores, `OCNT` bytes (R110). -/
theorem stageDecode_of_stores (h : decodeResult a = .stores out) :
    out.length = a.ocnt.toNat ∧ stageDecode a = storeDecoded out a := by
  obtain ⟨o, ho, hl, -, e⟩ | ⟨k, n, hr, -⟩ := stageDecode_cases a
  · cases ho.symm.trans h
    exact ⟨hl, e⟩
  · cases hr.symm.trans h

/-- A result that raises is what the body raises (R158). -/
theorem stageDecode_of_raises (h : decodeResult a = .raises k n) :
    stageDecode a = raiseError .decode k n a := by
  obtain ⟨o, ho, -⟩ | ⟨k', n', hr, -, e⟩ := stageDecode_cases a
  · cases ho.symm.trans h
  · cases hr.symm.trans h
    exact e

/-- A payload longer by any bytes changes nothing of what is stored (R113). -/
theorem decodeResult_append (hnode : a.node = b.node) (hroot : a.root = b.root)
    (hocnt : a.ocnt = b.ocnt) (hcap : a.obufCap = b.obufCap) {extra : List Byte}
    (hp : b.payload = a.payload ++ extra) (h : decodeResult a = .stores out) :
    decodeResult b = .stores out := by
  have hwalk : ∀ o, a.walked = .emitted o → b.walked = .emitted o := by
    intro o ho
    rw [Arch.walked, hp, bitsOfBytes_append, ← hnode, ← hroot, ← hocnt]
    exact walk_append ho
  unfold decodeResult at h ⊢
  rw [← hnode, ← hroot, ← hocnt, ← hcap]
  split_ifs at h ⊢
  · exact h
  · exact h
  · cases hw : a.walked with
    | emitted o => rw [hwalk o hw]; rw [hw] at h; exact h
    | truncated m => rw [hw] at h; cases h
    | badLink m => rw [hw] at h; cases h

/-- Without a tree DECODE raises the capacity error of step 2, or `MalformedTreeError(0)` (R111, R115). -/
theorem decodeResult_of_absent (hr : a.root = Config.nil) (h : decodeResult a = .raises k n) :
    k = .capacity ∨ n = 0 := by
  unfold decodeResult at h
  rw [if_pos hr] at h
  split_ifs at h
  · cases h; exact .inl rfl
  · cases h; exact .inr rfl

end Result

/-! ### DECODE as the host issues it -/

section Issued
variable {s t : State} (he : s.err = false) (hx : exec .decode s = .next t)
include he hx

/-- What an issued DECODE leaves when its body stores. -/
theorem decode_output_of_stored {out : List Byte} (hl : out.length = s.ocnt.toNat)
    (e : stageDecode s.toArch = storeDecoded out s.toArch) :
    t.err = false ∧ t.output = out ∧ t.olen = s.ocnt := by
  obtain ⟨t', hx', hdone, holen, hout⟩ := decode_stores he hl e
  cases hx.symm.trans hx'
  exact ⟨err_of_status hdone.1, hout, holen⟩

/-- What an issued DECODE leaves when its result is to store. -/
theorem decode_output_of_stores {out : List Byte} (h : decodeResult s.toArch = .stores out) :
    t.err = false ∧ t.output = out ∧ t.olen = s.ocnt := by
  obtain ⟨hl, e⟩ := stageDecode_of_stores h
  exact decode_output_of_stored he hx hl e

/-- What an issued DECODE records when its result is to raise. -/
theorem decode_raised_of_raises {k : ErrorKind} {n : Nat} (h : decodeResult s.toArch = .raises k n) :
    t.raised 0x08 k n := by
  obtain ⟨t', hx', hraised, -⟩ := decode_raises he (stageDecode_of_raises h)
  cases hx.symm.trans hx'
  exact hraised

end Issued

/-! ### A payload cut short, and a packed one -/

/-- A payload that ends inside the paths of the symbols wanted makes the body raise, with the number of symbols whose
paths are whole (R114). -/
theorem stageDecode_of_cut {a : Arch} {xs : List Byte} {path : Byte → List Bool} (ht : a.TreeOk)
    (h2 : 2 ≤ a.nleaf.toNat) (hc : a.ocnt.toNat ≤ a.obufCap.toNat) (hl : xs.length = a.ocnt.toNat)
    (hp : ∀ x ∈ xs, leadsTo a.node a.root (path x) x) (hb : bitsOfBytes a.payload <+: xs.flatMap path)
    (hlt : (bitsOfBytes a.payload).length < (xs.flatMap path).length) :
    ∃ m, stageDecode a = raiseError .decode .truncatedStream m a ∧ m < xs.length ∧
      ((xs.take m).flatMap path).length ≤ 8 * a.plen.toNat ∧
      8 * a.plen.toNat < ((xs.take (m + 1)).flatMap path).length := by
  have hk := ht.root_inner h2
  have hr : a.root ≠ Config.nil := nil_of_nil_kind (t := a.node) (by rw [hk]; simp)
  obtain ⟨m, hw, hm, hle, hgt⟩ := walk_cut ht hk xs hp hb hlt 0
  have hz : a.ocnt ≠ 0 := by
    intro hz
    rw [hl, hz] at hm
    exact Nat.not_lt_zero m hm
  have hwalked : a.walked = .truncated m := by rw [Arch.walked, ← hl, hw, Nat.zero_add]
  rw [bitsOfBytes_length, payload_length] at hle hgt
  exact ⟨m, by rw [stageDecode_of_walk hz hc hr (by rw [hk]; simp), hwalked], hm, hle, hgt⟩

/-- PACK after CODES: every input symbol has a path, and the payload's bits begin with the codes of the input (R102). -/
theorem pack_of_codes {s t u : State} (he : s.err = false) (hcaps : s.capsOk) (htree : s.TreeOk)
    (hcodes : exec .codes s = .next t) (hpack : exec .pack t = .next u) (hu : u.err = false) :
    (∀ x ∈ s.input, ∃ p, codePath s.node s.root x p) ∧
    ∃ rest, bitsOfBytes u.payload = s.input.flatMap (stageCodes s.toArch).codeBits ++ rest := by
  obtain ⟨t', hcodes', hdone, ht⟩ := exec_codes he
  cases hcodes.symm.trans hcodes'
  rw [complete_of_ok (a := stageCodes s.toArch) he] at ht
  have hcaps' : t.capsOk := by rw [ht]; exact hcaps
  have hin : t.input = s.input := by rw [ht]; rfl
  have hclen : t.clen = (stageCodes s.toArch).clen := by rw [ht]
  have hcode : t.codeBits = (stageCodes s.toArch).codeBits := codeBits_congr hclen (by rw [ht])
  obtain ⟨-, hcoded, -, -, -, hpayload⟩ := pack_ok (err_of_status hdone.1) hcaps' hpack hu
  rw [hin, hclen] at hcoded
  refine ⟨fun x hx => (exists_codePath htree x).mpr
    ((stageCodes_clen_ne_zero htree x).mp (hcoded x hx)), ?_⟩
  rw [hpayload, bitsOfBytes_packBits _ _ (length_le_ceil8 _), ← hin, ← hcode]
  exact ⟨_, rfl⟩

/-! ### The statements -/

/-- Settles O32: one law of the body for each case, with what an issued DECODE makes of it. -/
theorem decodeWithoutAWalk : Obligations.DecodeWithoutAWalk := by
  intro s he
  refine ⟨fun hz => ?_, fun hz hgt => decode_raises he (stageDecode_of_gt hz hgt),
    fun hz hc hr => decode_raises he (stageDecode_of_absent hz hc hr),
    fun hz hc hr hk => decode_stores he List.length_replicate (stageDecode_of_leaf hz hc hr hk)⟩
  have hres : decodeResult s.toArch = .stores [] := if_pos hz
  obtain ⟨hl, e⟩ := stageDecode_of_stores hres
  obtain ⟨t, hx, hdone, holen, -⟩ := decode_stores he hl e
  exact ⟨t, hx, hdone, holen.trans hz⟩

/-- Settles O33: the walk along the paths is `walk_stream`, by which `decode_walk` says what the body stores. -/
theorem decodeWalksThePaths : Obligations.DecodeWalksThePaths :=
  fun _ _ _ _ he htree h2 hc hl hp hb => decode_stores he hl (decode_walk he htree h2 hc hl hp hb)

/-- Settles O34: a payload cut short by `walk_cut`; one that ends with the last path has no bits to follow. -/
theorem decodeOfATruncatedStream : Obligations.DecodeOfATruncatedStream := by
  intro s xs path he htree h2 hc hl hp
  refine ⟨fun hb hlt => ?_, fun hb => ?_⟩
  · obtain ⟨m, e, hm⟩ := stageDecode_of_cut htree h2 hc hl hp hb hlt
    obtain ⟨t, hx, hraised, holen⟩ := decode_raises he e
    exact ⟨t, m, hx, hraised, holen, hm⟩
  · rw [← List.append_nil (xs.flatMap path)] at hb
    obtain ⟨t, hx, hdone, -, hout⟩ := decode_stores he hl (decode_walk he htree h2 hc hl hp hb)
    exact ⟨t, hx, err_of_status hdone.1, hout⟩

/-- Settles O35: a DECODE that raised no error had a result to store, which more payload does not change. -/
theorem decodeIgnoresWhatFollows : Obligations.DecodeIgnoresWhatFollows := by
  intro s s' t t' extra he he' hnode hroot hocnt hcap hp hx hx' ht
  cases hres : decodeResult s.toArch with
  | stores out =>
    obtain ⟨-, hout, holen⟩ := decode_output_of_stores he hx hres
    obtain ⟨ht', hout', -⟩ :=
      decode_output_of_stores he' hx' (decodeResult_append hnode hroot hocnt hcap hp hres)
    exact ⟨ht', hout'.trans hout.symm, holen⟩
  | raises k n =>
    rw [err_of_raised (decode_raised_of_raises he hx hres)] at ht
    cases ht

/-- Settles O36: with a tree DECODE raises other kinds only, by `walk_no_badLink`; without one it reports 0. -/
theorem decodeMeetsNoBadLink : Obligations.DecodeMeetsNoBadLink := by
  intro s t he htree hx herr hcode
  cases hres : decodeResult s.toArch with
  | stores out =>
    rw [(decode_output_of_stores he hx hres).1] at herr
    cases herr
  | raises k n =>
    obtain ⟨-, hkind, hinfo, -⟩ := decode_raised_of_raises he hx hres
    rw [hkind] at hcode
    have hcap : k ≠ .capacity := by rintro rfl; exact absurd hcode (by decide)
    have htrunc : k ≠ .truncatedStream := by rintro rfl; exact absurd hcode (by decide)
    have hr : s.root = Config.nil := by
      by_contra hr
      exact (decode_raise_kind htree (fun hnil => absurd hnil hr) hres).elim (fun h => hcap h.1) htrunc
    refine ⟨hr, ?_⟩
    rw [hinfo, (decodeResult_of_absent hr hres).resolve_left hcap]
    rfl

/-- Settles O37: the codes CODES records are the paths of the tree, so what PACK stored begins with the paths of the
input, and a lone leaf's payload is not read. -/
theorem decodeInvertsPack : Obligations.DecodeInvertsPack := by
  intro s t u v w he hcaps htree hcodes hpack hu hv hnode hroot hpayload hocnt hfit hx
  obtain ⟨hpaths, rest, hbits⟩ := pack_of_codes he hcaps htree hcodes hpack hu
  have hl : s.input.length = v.ocnt.toNat := by rw [input_length, hocnt]
  have e : stageDecode v.toArch = storeDecoded s.input v.toArch := by
    refine decode_of_packed (nleaf := s.nleaf) (code := (stageCodes s.toArch).codeBits) (rest := rest)
      ?_ ?_ ?_ hfit hl (hpayload ▸ hbits)
    · rw [hnode, hroot]; exact htree
    · rw [hnode, hroot]; exact fun b p hp => stageCodes_codeBits htree hp
    · rw [hnode, hroot]; exact hpaths
  obtain ⟨hw, hout, holen⟩ := decode_output_of_stored hv hx hl e
  exact ⟨hw, hout, holen.trans hocnt⟩

end Sys2Proof.Machine
end

section
/-!
PROOF. O27 to O31: SERIALIZE and DESERIALIZE (R121 to R132). The fields of a blob's metadata are read back once, for
any reader that gives its bytes: `OBUF` after SERIALIZE, `IBUF` before DESERIALIZE.
-/

namespace Sys2Proof.Machine

/-! ### The fields of a blob -/

section Fields
variable {rd : Nat → Byte} {ft : SymTable Word64} {c : Word64}

/-- A byte of a sequence is what the reader gives at its offset. -/
theorem getElem?_of_readsAt {q j : Nat} {bs : List Byte} (h : readsAt rd q bs) (hj : j < bs.length) :
    bs[j]? = some (rd (q + j)) := by
  rw [← h, readFrom_getElem?, if_pos hj]

/-- Pair `k` of the metadata holds the `k`-th present symbol and its frequency (R121). -/
theorem pair_of_readsAt_metadata (h : readsAt rd 0 (metadataBytes ft c)) {k : Nat} {b : Byte}
    (hk : (presentSymbols ft)[k]? = some b) :
    pairSymbol rd k = b ∧ pairFreq rd k = (tableGet ft b).toNat := by
  rw [metadataBytes, readsAt_append, readsAt_append, toBE_length, Nat.zero_add] at h
  obtain ⟨⟨-, hpairs⟩, -⟩ := h
  obtain ⟨hsym, hfreq⟩ := readsAt_pair hpairs hk
  refine ⟨hsym, ?_⟩
  rw [pairFreq, show 3 + 9 * k = 2 + 9 * k + 1 by omega, hfreq, ofBE_toBE 8 _ (tableGet ft b).isLt]

/-- Every pair of the metadata holds the table's frequency of its symbol (R121). -/
theorem pairFreq_of_readsAt_metadata (h : readsAt rd 0 (metadataBytes ft c)) {k : Nat}
    (hk : k < (presentSymbols ft).length) :
    pairFreq rd k = (tableGet ft (pairSymbol rd k)).toNat := by
  obtain ⟨hsym, hfreq⟩ := pair_of_readsAt_metadata h (List.getElem?_eq_getElem hk)
  rw [hsym, hfreq]

/-- A symbol of no pair is not in the table (R121). -/
theorem absent_of_readsAt_metadata (h : readsAt rd 0 (metadataBytes ft c)) {b : Byte}
    (hb : ∀ k, k < (presentSymbols ft).length → pairSymbol rd k ≠ b) : tableGet ft b = 0 := by
  by_contra hne
  obtain ⟨k, hk, e⟩ := List.getElem_of_mem ((mem_presentSymbols ft b).mpr hne)
  exact hb k hk (pair_of_readsAt_metadata h (List.getElem?_eq_some_iff.mpr ⟨hk, e⟩)).1

end Fields

/-! ### The commands as the host issues them -/

/-- A command whose body raises leaves just the error entry (R158). -/
theorem exec_of_raise {i : Instr} (hi : i ≠ .clear) {s : State} (he : s.err = false) {k : ErrorKind}
    {n : Nat} (e : bodyOf i s.toArch = raiseError i k n s.toArch) :
    ∃ t, exec i s = .next t ∧ t.toArch = raiseError i k n s.toArch :=
  ⟨_, exec_of_ok_ne he hi, by rw [e, complete_raiseError]⟩

/-- DESERIALIZE of an accepted blob whose payload fits completes and commits what was parsed (R126). -/
theorem exec_deserialize_of_accepted {s : State} {m : Metadata} (he : s.err = false)
    (hi : s.ilen.toNat ≤ s.ibufCap.toNat)
    (hm : parseMetadata s.ibufByte s.ilen.toNat = .accepted m)
    (hfit : s.ilen.toNat - m.offset ≤ s.pbufCap.toNat) :
    ∃ t, exec .deserialize s = .next t ∧ completesFrom t.toArch s.toArch ∧
      t.toArch = complete (loadContainer m s.toArch) := by
  refine ⟨_, exec_of_ok_ne he (by decide), ?_⟩
  rw [bodyOf, stageDeserialize_of_ok hi hm hfit]
  exact ⟨completesFrom_complete he rfl rfl rfl, rfl⟩

/-! ### SERIALIZE -/

/-- Settles O27: the blob stands in `OBUF` from index 0 on (`serialize_of_le`), and its fields read back. -/
theorem serializeWritesTheBlob : Obligations.SerializeWritesTheBlob := by
  intro s he
  refine ⟨fun hgt => ?_, fun hle => ?_, presentSymbols_ascending s.ft, mem_presentSymbols s.ft⟩
  · obtain ⟨t, hx, ht⟩ := exec_of_raise (i := .serialize) (by decide) he (stageSerialize_of_gt hgt)
    refine ⟨t, hx, ?_⟩
    rw [ht]
    exact ⟨raiseError_raised _ _ _ _, rfl⟩
  · obtain ⟨t, hx, hdone, holen, hblob, -⟩ := serialize_of_le he hle
    rw [Arch.blob, readsAt_append, metadataBytes_length, Nat.zero_add] at hblob
    obtain ⟨hmeta, hpayload⟩ := hblob
    obtain ⟨hnsym, hcount, -⟩ := metadata_of_readsAt hmeta
    rw [countOf, hnsym] at hcount
    refine ⟨t, hx, hdone, holen, hnsym, fun k b hk => pair_of_readsAt_metadata hmeta hk, hcount,
      fun j hj => ?_⟩
    have hbyte := getElem?_of_readsAt hpayload (by rwa [payload_length])
    rw [Arch.payload, readFrom_getElem?, if_pos hj, Nat.zero_add] at hbyte
    exact (Option.some.inj hbyte).symm

/-- Settles O28: the output is the blob, which is made from the triple and determines it (`blob_inj`). -/
theorem serializeIsInjective : Obligations.SerializeIsInjective := by
  intro s s' t t' he he' hx hx' ht ht'
  obtain ⟨-, hout, -⟩ := serialize_ok he hx ht
  obtain ⟨-, hout', -⟩ := serialize_ok he' hx' ht'
  rw [hout, hout']
  refine ⟨blob_inj, fun ⟨hocnt, hft, hpayload⟩ => ?_⟩
  rw [Arch.blob, Arch.blob, hocnt, hft, hpayload]

/-! ### DESERIALIZE -/

/-- Settles O29: the pairs pass, so the metadata is accepted; the blob then starts with the canonical metadata of the
table committed (`parseMetadata_accepted`), whose pairs read back. -/
theorem deserializeLoadsTheContainer : Obligations.DeserializeLoadsTheContainer := by
  intro s he hcaps hi hn hlen hpairs hsum hfit
  have hm := parse_of_pairsOk hn hlen hpairs
  rw [if_neg (not_not.mpr hsum)] at hm
  obtain ⟨hmeta, -, -, -, hnsym⟩ := parseMetadata_accepted hm
  obtain ⟨-, hcount, -⟩ := metadata_of_readsAt hmeta
  obtain ⟨t, hx, hdone, ht⟩ := exec_deserialize_of_accepted he hi hm hfit
  obtain ⟨hft, hocnt, hplen, hnbits, hbytes, -⟩ := loadContainer_spec ht
  refine ⟨t, hx, hdone, fun k hk => ?_, fun b hb => ?_, ?_, hplen, ?_, fun j hj => ?_⟩
  · rw [hft]
    exact (pairFreq_of_readsAt_metadata hmeta (hnsym ▸ hk)).symm
  · rw [hft]
    exact absent_of_readsAt_metadata hmeta (hnsym ▸ hb)
  · rw [hocnt]
    exact hcount.symm
  · obtain ⟨-, ⟨-, hcap⟩, -⟩ := caps_le hcaps
    rw [hnbits, hplen, BitVec.toNat_ofNat]
    exact Nat.mod_eq_of_lt (by omega)
  · exact hbytes j (hplen ▸ hj)

/-- The first check to fail is the error the body raises (R126, R127). -/
theorem stageDeserialize_of_fails {a : Arch} {k : ErrorKind} {n : Nat} (h : DeserializeFails a k n) :
    stageDeserialize a = raiseError .deserialize k n a := by
  cases h with
  | inputTooLong hi => exact stageDeserialize_of_gt hi
  | noCountField hi h2 => exact stageDeserialize_of_rejected hi (if_pos h2)
  | tooManySymbols hi h2 hn =>
    refine stageDeserialize_of_rejected hi ?_
    rw [parseMetadata, if_neg (by omega), if_pos hn]
  | metadataTooShort hi h2 hn hlen =>
    refine stageDeserialize_of_rejected hi ?_
    rw [parseMetadata, if_neg (by omega), if_neg (by omega), if_pos hlen]
  | outOfOrder k hi hn hlen hk hbefore hord =>
    exact stageDeserialize_of_rejected hi (parse_of_fails4 hn hlen hk hbefore hord)
  | zeroFrequency k hi hn hlen hk hbefore hord hfreq =>
    exact stageDeserialize_of_rejected hi (parse_of_fails5 hn hlen hk hbefore hord hfreq)
  | wrongSum hi hn hlen hpairs hsum =>
    exact stageDeserialize_of_rejected hi ((parse_of_pairsOk hn hlen hpairs).trans (if_pos hsum))
  | payloadTooLong hi hn hlen hpairs hsum hfull =>
    exact stageDeserialize_of_full hi
      ((parse_of_pairsOk hn hlen hpairs).trans (if_neg (not_not.mpr hsum))) hfull

/-- Settles O30: the body raises the error of the first check to fail, and the error entry clears the destinations. -/
theorem deserializeRejectsBadBlobs : Obligations.DeserializeRejectsBadBlobs := by
  intro s kind info he hfails
  obtain ⟨t, hx, ht⟩ := exec_of_raise (i := .deserialize) (by decide) he
    (stageDeserialize_of_fails hfails)
  refine ⟨t, hx, ?_⟩
  rw [ht]
  exact ⟨raiseError_raised _ _ _ _, tableGet_emptyTable, rfl, rfl, rfl, rfl⟩

/-! ### The round trip -/

/-- An accepted input is the blob of the table, the count and the payload parsed from it (R132). -/
theorem input_of_accepted {a : Arch} {m : Metadata}
    (h : parseMetadata a.ibufByte a.ilen.toNat = .accepted m) :
    a.input = metadataBytes m.table m.count ++
      readFrom a.ibufByte m.offset (a.ilen.toNat - m.offset) := by
  obtain ⟨hmeta, -, hoff, hle, -⟩ := parseMetadata_accepted h
  rw [readsAt, metadataBytes_length, ← hoff] at hmeta
  calc a.input
    _ = readFrom a.ibufByte 0 (m.offset + (a.ilen.toNat - m.offset)) := by
      rw [Nat.add_sub_cancel' hle, Arch.input]
    _ = _ := by rw [readFrom_append, hmeta, Nat.zero_add]

/-- Settles O31: a blob parses to what it was made from (`deserialize_of_input`), and what was parsed makes the blob
again (`input_of_accepted`). -/
theorem containerRoundTrip : Obligations.ContainerRoundTrip := by
  refine ⟨fun s t u he hcounts hx ht hu hin hi hfit => ?_,
    fun u v w x hu hx hv hw hft hocnt hpayload hx' ht => ?_⟩
  · obtain ⟨-, hout, -⟩ := serialize_ok he hx ht
    rw [← payload_length] at hfit
    obtain ⟨hm, hlen, hrest⟩ := deserialize_of_input hu (hin.trans hout) hcounts hi hfit
    obtain ⟨v, hx', hdone, hload⟩ := exec_deserialize_of_accepted hu hi hm (hlen ▸ hfit)
    obtain ⟨hft, hocnt, -, -, -, hpayload⟩ := loadContainer_spec hload
    exact ⟨v, hx', err_of_status hdone.1, hocnt, hft, hpayload.trans hrest⟩
  · obtain ⟨-, m, hm, -, hload⟩ := deserialize_ok hu hx hv
    obtain ⟨hft', hocnt', -, -, -, hpayload'⟩ := loadContainer_spec hload
    obtain ⟨-, hout, -⟩ := serialize_ok hw hx' ht
    rw [hout, Arch.blob, hft, hocnt, hpayload, hft', hocnt', hpayload', input_of_accepted hm]

end Sys2Proof.Machine
end

section
/-!
PROOF. O46: COMPRESS and DECOMPRESS of degenerate inputs (R125, R147). The empty input meets every capacity check; an
input of one symbol has a tree that is a lone leaf, so CODES records the code "0".
-/

namespace Sys2Proof.Machine

/-! ### A COMPRESS that passes its checks -/

section Checks
variable {a : Arch} (hi : a.ilen.toNat ≤ a.ibufCap.toNat)
include hi

theorem packedOf_obufCap : (packedOf a).obufCap = a.obufCap := by
  rw [packedOf, codedOf_eq hi]
  rfl

variable (hser : (packedOf a).blobSize ≤ a.obufCap.toNat)
include hser

/-- The output is the blob of the packed state (R123). -/
theorem compressedOf_output : (compressedOf a).output = (packedOf a).blob :=
  serialized_output (by rwa [packedOf_obufCap hi])

/-- The stages of COMPRESS raise nothing when each capacity check passes (R141). -/
theorem compress_of_checks (hpack : ceil8 (codedOf a).bitStream.length ≤ a.pbufCap.toNat) :
    runStages compressStages a = compressedOf a := by
  rcases compress_cases a with ⟨hgt, -⟩ | ⟨-, hgt, -⟩ | ⟨-, -, hgt, -⟩ | ⟨-, -, -, e⟩
  · omega
  · omega
  · omega
  · exact e

end Checks

@[simp] theorem compressedOf_codeBits (a : Arch) (b : Byte) :
    (compressedOf a).codeBits b = (codedOf a).codeBits b :=
  congrFun (codeBits_congr (compressedOf_clen a) (by rw [compressedOf, packedOf])) b

/-! ### The empty input -/

/-- The blob of the empty table, count and payload is ten zero bytes (R125). -/
theorem blob_of_empty {a : Arch} (hft : a.ft = emptyTable) (hocnt : a.ocnt = 0) (hplen : a.plen = 0) :
    a.blob = List.replicate 10 0 := by
  rw [Arch.blob, hft, hocnt, readFrom_zeros_blob, payload_of_zero hplen, List.append_nil]

section Empty
variable {a : Arch} (hz : a.ilen = 0)
include hz

/-- The empty input has an empty stream (R107). -/
theorem codedOf_bitStream_empty : (codedOf a).bitStream = [] := by
  have hi : a.ilen.toNat ≤ a.ibufCap.toNat := hz ▸ Nat.zero_le _
  rw [Arch.bitStream, codedOf_input hi, Arch.input, hz]
  rfl

/-- The blob of the empty input is ten zero bytes (R125). -/
theorem packedOf_blob_empty : (packedOf a).blob = List.replicate 10 0 := by
  rw [packedOf_empty hz]
  exact blob_of_empty rfl rfl rfl

/-- COMPRESS of the empty input raises nothing when the ten bytes fit, and they are its output (R147). -/
theorem compress_of_empty (hcap : 10 ≤ a.obufCap.toNat) :
    runStages compressStages a = compressedOf a ∧
      (compressedOf a).output = List.replicate 10 0 := by
  have hi : a.ilen.toNat ≤ a.ibufCap.toNat := hz ▸ Nat.zero_le _
  have hser : (packedOf a).blobSize ≤ a.obufCap.toNat := by
    rwa [← blob_length, packedOf_blob_empty hz, List.length_replicate]
  refine ⟨compress_of_checks hi hser ?_, (compressedOf_output hi hser).trans (packedOf_blob_empty hz)⟩
  rw [codedOf_bitStream_empty hz]
  exact Nat.zero_le _

end Empty

/-! ### An input of one symbol -/

section OneSymbol
variable {a : Arch} {b : Byte} (hi : a.ilen.toNat ≤ a.ibufCap.toNat) (hz : a.ilen ≠ 0)
  (hone : ∀ x ∈ a.input, x = b)
include hz hone

/-- The input is not empty, so the symbol occurs in it. -/
theorem mem_input_of_one_symbol : b ∈ a.input := by
  have hne : a.input ≠ [] := by
    rw [← List.length_pos_iff, input_length]
    exact Nat.pos_of_ne_zero fun e => hz (BitVec.eq_of_toNat_eq e)
  obtain ⟨x, hx⟩ := List.exists_mem_of_ne_nil _ hne
  exact hone x hx ▸ hx

/-- The counts of the input have one present symbol (R87). -/
theorem presentSymbols_of_one_symbol : presentSymbols (tally a.input emptyTable) = [b] := by
  refine presentSymbols_eq_singleton
    ((mem_input_iff a b).mp (mem_input_of_one_symbol hz hone)) fun u hu => ?_
  by_contra hne
  exact hu (hone u ((mem_input_iff a u).mpr hne))

include hi

/-- The symbol has the code of a lone leaf (R87, R96). -/
theorem codePath_of_one_symbol : codePath (stageBuild (stageCount (stageClear a))).node
    (stageBuild (stageCount (stageClear a))).root b [false] := by
  have htree := codedOf_tree hi
  have hcoded := codedOf_codes hi b (mem_input_of_one_symbol hz hone)
  obtain ⟨p, hp⟩ := (exists_codePath htree b).mpr ((stageCodes_clen_ne_zero htree b).mp hcoded)
  have hleaf : (stageBuild (stageCount (stageClear a))).nleaf = 1 := by
    rw [stageCount_clear hi, stageBuild, initialLive_length, presentSymbols_of_one_symbol hz hone]
    rfl
  obtain ⟨hroot, -⟩ := htree.root_lone hleaf
  obtain ⟨-, ⟨-, -, rfl⟩ | ⟨hinner, -⟩⟩ := id hp
  · exact hp
  · cases hroot.symm.trans hinner

/-- CODES records the code "0" (R96). -/
theorem codedOf_of_one_symbol :
    tableGet (codedOf a).clen b = 1 ∧ (codedOf a).codeBits b = [false] :=
  have htree := codedOf_tree hi
  have hpath := codePath_of_one_symbol hi hz hone
  ⟨BitVec.eq_of_toNat_eq (stageCodes_clen_toNat htree hpath), stageCodes_codeBits htree hpath⟩

/-- The stream has one bit for each input byte (R147). -/
theorem packedOf_nbits_of_one_symbol (hc : a.capsOk) : (packedOf a).nbits = a.ilen := by
  obtain ⟨-, hcode⟩ := codedOf_of_one_symbol hi hz hone
  apply BitVec.eq_of_toNat_eq
  rw [packedOf_nbits hi hc, bitStream_of_one_symbol ((codedOf_input hi).symm ▸ hone) hcode,
    List.length_replicate, codedOf_ilen hi]

end OneSymbol

/-! ### The statement -/

/-- DECODE of the count 0 stores nothing (R116). -/
theorem stageDecode_of_empty {a : Arch} (h : a.ocnt = 0) : stageDecode a = storeDecoded [] a :=
  (stageDecode_of_stores (if_pos h)).2

/-- Settles O46: the empty input by `packedOf_empty`; its blob parses to the empty table and the count 0
(`deserialize_of_input`); one symbol by the code of its lone leaf. -/
theorem compressOfDegenerateInputs : Obligations.CompressOfDegenerateInputs := by
  refine ⟨fun s he hz hcap => ?_, fun s he hi hin => ?_, fun s t b he hcaps hz hone hx ht => ?_⟩
  · obtain ⟨e, hout⟩ := compress_of_empty hz hcap
    have herr : (compressedOf s.toArch).err = false := compressedOf_err (hz ▸ Nat.zero_le _)
    refine ⟨_, exec_of_ok_ne he (by decide), ?_⟩
    simp only [bodyOf, e]
    refine ⟨complete_status_of_ok herr, ?_⟩
    simp only [complete_ft, complete_ocnt, complete_root, complete_nleaf, complete_clen,
      complete_plen, complete_nbits, complete_output, hout, and_true]
    rw [compressedOf, packedOf_empty hz]
    exact ⟨tableGet_emptyTable, rfl, rfl, rfl, empty_clen, rfl, rfl⟩
  · rw [← readFrom_zeros_blob, ← List.append_nil (metadataBytes _ _)] at hin
    obtain ⟨hm, hlen, -⟩ :=
      deserialize_of_input he hin tableSum_emptyTable hi (Nat.zero_le _)
    obtain ⟨t, hx, hdone, -, -, holen, -⟩ := decompress_stores he hi hm
      (hlen.trans_le (Nat.zero_le _)) rfl (stageDecode_of_empty rfl)
    exact ⟨t, hx, hdone, holen⟩
  · obtain ⟨hi, -, -, (e : t.toArch = complete (compressedOf s.toArch)), -⟩ := compress_ok he hx ht
    obtain ⟨hclen, hcode⟩ := codedOf_of_one_symbol hi hz hone
    rw [e, complete_clen, complete_codeBits, complete_nbits, compressedOf_clen, compressedOf_nbits,
      compressedOf_codeBits]
    exact ⟨hclen, hcode, packedOf_nbits_of_one_symbol hi hz hone hcaps⟩

end Sys2Proof.Machine
end

section
/-!
PROOF. O39, O40, O42 to O45 and O47: COMPRESS and DECOMPRESS (R141 to R146). Both are runs of stages, of which
Laws/Sequencer.lean says once all that each can leave; the round trip is the decoding of a blob whose payload holds
the codes of its symbols.
-/

namespace Sys2Proof.Machine

/-! ### The stages, issued one after another -/

/-- The stages of COMPRESS after CLEAR do not look at `DONE` (R141). -/
theorem compressStages_doneBlind :
    ∀ f ∈ [stageCount, stageBuild, stageCodes, stagePack, stageSerialize], doneBlind f := by
  simp only [List.forall_mem_cons]
  exact ⟨blind_count, blind_build, blind_codes, blind_pack, blind_serialize,
    List.forall_mem_nil doneBlind⟩

/-- The stages of DECOMPRESS after CLEAR do not look at `DONE` (R142). -/
theorem decompressStages_doneBlind :
    ∀ f ∈ [stageDeserialize, stageBuild, stageDecode], doneBlind f := by
  simp only [List.forall_mem_cons]
  exact ⟨blind_deserialize, blind_build, blind_decode, List.forall_mem_nil doneBlind⟩

/-- Settles O39: each command issues its body, and a run of stages is its stages issued in turn (`seq_eq`). -/
theorem compressRunsItsStages : Obligations.CompressRunsItsStages := by
  intro s he
  have hx0 := exec_of_ok (i := .clear) (s := s) (.inr rfl)
  obtain ⟨t1, hx1, h1⟩ := exec_issued (i := .count) (by decide) _
  obtain ⟨t2, hx2, h2⟩ := exec_issued (i := .build) (by decide) t1
  obtain ⟨t3, hx3, h3⟩ := exec_issued (i := .codes) (by decide) t2
  obtain ⟨t4, hx4, h4⟩ := exec_issued (i := .pack) (by decide) t3
  obtain ⟨t5, hx5, h5⟩ := exec_issued (i := .serialize) (by decide) t4
  refine ⟨_, t1, t2, t3, t4, t5, _, hx0, hx1, hx2, hx3, hx4, hx5, exec_of_ok_ne he (by decide), ?_⟩
  rw [h5, h4, h3, h2, h1]
  exact seq_eq stageCount compressStages_doneBlind s.toArch

/-- Settles O40: as for COMPRESS, with the four stages of R142. -/
theorem decompressRunsItsStages : Obligations.DecompressRunsItsStages := by
  intro s he
  have hx0 := exec_of_ok (i := .clear) (s := s) (.inr rfl)
  obtain ⟨t1, hx1, h1⟩ := exec_issued (i := .deserialize) (by decide) _
  obtain ⟨t2, hx2, h2⟩ := exec_issued (i := .build) (by decide) t1
  obtain ⟨t3, hx3, h3⟩ := exec_issued (i := .decode) (by decide) t2
  refine ⟨_, t1, t2, t3, _, hx0, hx1, hx2, hx3, exec_of_ok_ne he (by decide), ?_⟩
  rw [h3, h2, h1]
  exact seq_eq stageDeserialize decompressStages_doneBlind s.toArch

/-! ### Dependence on the input alone -/

/-- A sequence that starts with CLEAR leaves alike what agrees on the input and the capacities (R143). -/
theorem alike_sequence {fs : List (Arch → Arch)} (hfs : ∀ f ∈ fs, ∀ a b, Alike a b → Alike (f a) (f b))
    {a b : Arch} (h : Alike (stageClear a) (stageClear b)) :
    Alike (runStages (stageClear :: fs) a) (runStages (stageClear :: fs) b) := by
  rw [runStages_of_ok stageClear_err, runStages_of_ok stageClear_err]
  exact alike_run hfs h

/-- The bodies of COMPRESS and DECOMPRESS are such sequences (R141, R142). -/
theorem alike_bodyOf {i : Instr} (hi : i ∈ [Instr.compress, Instr.decompress]) {a b : Arch}
    (h : Alike (stageClear a) (stageClear b)) : Alike (bodyOf i a) (bodyOf i b) := by
  simp only [List.mem_cons, List.not_mem_nil, or_false] at hi
  rcases hi with rfl | rfl
  · refine alike_sequence ?_ h
    simp only [List.forall_mem_cons]
    exact ⟨fun _ _ => alike_count, fun _ _ => alike_build, fun _ _ => alike_codes,
      fun _ _ => alike_pack, fun _ _ => alike_serialize, List.forall_mem_nil _⟩
  · refine alike_sequence ?_ h
    simp only [List.forall_mem_cons]
    exact ⟨fun _ _ => alike_deserialize, fun _ _ => alike_build, fun _ _ => alike_decode,
      List.forall_mem_nil _⟩

/-- Settles O47: CLEAR leaves only what the two states agree on, and every later stage keeps that. -/
theorem sequencesDependOnlyOnTheInput : Obligations.SequencesDependOnlyOnTheInput := by
  intro i hi s s' t t' he he' hilen hin hicap hpcap hocap hx hx'
  have hne : i ≠ .clear := by rintro rfl; revert hi; decide
  rw [exec_arch hne he hx, exec_arch hne he' hx']
  exact (alike_complete (alike_bodyOf hi (alike_clear hilen hin hicap hpcap hocap))).toSameResults

/-! ### The errors of COMPRESS -/

/-- A COMPRESS that raises does so at one of three capacity checks (R144). -/
theorem compress_raised {s t : State} (he : s.err = false) (hx : exec .compress s = .next t)
    (ht : t.err = true) :
    (s.ibufCap.toNat < s.ilen.toNat ∧ t.raised 0x02 .capacity s.ilen.toNat) ∨
    (s.ilen.toNat ≤ s.ibufCap.toNat ∧ s.pbufCap.toNat < ceil8 (codedOf s.toArch).bitStream.length ∧
      t.raised 0x05 .capacity (ceil8 (codedOf s.toArch).bitStream.length)) ∨
    (s.ilen.toNat ≤ s.ibufCap.toNat ∧ s.obufCap.toNat < (packedOf s.toArch).blobSize ∧
      t.raised 0x06 .capacity (packedOf s.toArch).blobSize) := by
  have ha : t.toArch = complete (runStages compressStages s.toArch) := exec_arch (by decide) he hx
  rcases compress_cases s.toArch with
    ⟨hlong, e⟩ | ⟨hi, hfull, e⟩ | ⟨hi, -, hfull, e⟩ | ⟨hi, -, -, e⟩ <;> rw [e] at ha
  · rw [complete_raiseError] at ha
    rw [ha]
    exact .inl ⟨hlong, raiseError_raised _ _ _ _⟩
  · rw [complete_raiseError] at ha
    rw [ha]
    exact .inr (.inl ⟨hi, hfull, raiseError_raised _ _ _ _⟩)
  · rw [complete_raiseError] at ha
    rw [ha]
    exact .inr (.inr ⟨hi, hfull, raiseError_raised _ _ _ _⟩)
  · rw [ha, complete_err, packedOf_err hi] at ht
    cases ht

/-- The size a stage reports is the whole number when it fits `ERRINFO` (R158). -/
theorem Arch.raised.errinfo_toNat {a : Arch} {c : Byte} {k : ErrorKind} {n : Nat} (h : a.raised c k n)
    (hn : n < 2 ^ 64) : a.errinfo.toNat = n := by
  obtain ⟨-, -, hinfo, -⟩ := h
  rw [hinfo, BitVec.toNat_ofNat]
  exact Nat.mod_eq_of_lt hn

/-- The blob is longer than the input by no more than the metadata of 256 symbols (R106, R123). -/
theorem packedOf_blobSize_le {a : Arch} (hi : a.ilen.toNat ≤ a.ibufCap.toNat) :
    (packedOf a).blobSize ≤ 10 + 9 * 256 + a.ilen.toNat := by
  have hplen : (packedOf a).plen.toNat ≤ ceil8 (codedOf a).bitStream.length := by
    rw [packedOf, BitVec.toNat_ofNat]
    exact Nat.mod_le _ _
  have hpay := coded_ceil8_le hi
  have hsyms := presentSymbols_length_le (packedOf a).ft
  rw [Arch.blobSize]
  omega

/-- Settles O42: the three checks at which COMPRESS raises; those of PACK and SERIALIZE pass with the capacities of
R6's last sentence. -/
theorem compressRaisesOnlyCapacityErrors : Obligations.CompressRaisesOnlyCapacityErrors := by
  intro s t he hcaps hx ht
  rcases compress_raised he hx ht with ⟨hlong, hr⟩ | ⟨hi, hfull, hr⟩ | ⟨hi, hfull, hr⟩ <;>
    obtain ⟨-, hcode, -, hcmd⟩ := id hr
  · exact ⟨hcode, .inl ⟨hcmd, hlong⟩, fun _ _ => hcmd⟩
  · have hpay := coded_ceil8_le hi
    have hlt := s.ilen.isLt
    have hinfo := hr.errinfo_toNat (by omega)
    refine ⟨hcode, .inr (.inl ⟨hcmd, hi, hinfo ▸ hfull⟩), fun hp _ => ?_⟩
    exact absurd (coded_fits_pbuf hi hp) (Nat.not_le_of_lt hfull)
  · obtain ⟨⟨-, hicap⟩, -, -⟩ := caps_le hcaps
    have hsize := packedOf_blobSize_le hi
    have hinfo := hr.errinfo_toNat (by omega)
    refine ⟨hcode, .inr (.inr ⟨hcmd, hi, hinfo ▸ hfull⟩), fun hp ho => ?_⟩
    exact absurd (packedOf_fits_obuf hi hp ho) (Nat.not_le_of_lt hfull)

/-! ### The errors of DECOMPRESS -/

/-- The DECODE stage stores, or raises one of the two errors of R145: its tree is well formed, and absent only when
no symbol is wanted. -/
theorem builtOf_decode_cases {a : Arch} {m : Metadata}
    (hm : parseMetadata a.ibufByte a.ilen.toNat = .accepted m) :
    (stageDecode (builtOf m a)).err = false ∨ ∃ k n,
      ((k = .capacity ∧ a.obufCap.toNat < m.count.toNat) ∨ k = .truncatedStream) ∧
      stageDecode (builtOf m a) = raiseError .decode k n (builtOf m a) := by
  obtain ⟨out, -, -, -, e⟩ | ⟨k, n, hres, -, e⟩ := stageDecode_cases (builtOf m a)
  · left
    rw [e]
    exact builtOf_err m a
  · exact .inr ⟨k, n, decode_raise_kind (builtOf_tree hm) (builtOf_root hm) hres, e⟩

/-- Settles O43: DESERIALIZE's checks raise the two kinds of their stage, and DECODE meets no bad link in the tree built
(`builtOf_decode_cases`). -/
theorem decompressNeverMeetsABadTree : Obligations.DecompressNeverMeetsABadTree := by
  intro s t he hx ht
  have ha : t.toArch = complete (runStages decompressStages s.toArch) := exec_arch (by decide) he hx
  rcases decompress_cases s.toArch with
    ⟨-, e⟩ | ⟨-, c, -, e⟩ | ⟨-, m, -, -, e⟩ | ⟨-, m, hm, -, e⟩ <;> rw [e] at ha
  · rw [ha, complete_raiseError]
    exact .inl ⟨rfl, .inl rfl⟩
  · rw [ha, complete_raiseError]
    exact .inl ⟨rfl, .inr rfl⟩
  · rw [ha, complete_raiseError]
    exact .inl ⟨rfl, .inl rfl⟩
  · obtain hok | ⟨k, n, hk, hd⟩ := builtOf_decode_cases hm
    · rw [ha, complete_err, hok] at ht
      cases ht
    · rw [ha, hd, complete_raiseError]
      rcases hk with ⟨rfl, hfull⟩ | rfl
      · exact .inr ⟨rfl, .inl ⟨rfl, hfull⟩⟩
      · exact .inr ⟨rfl, .inr rfl⟩

/-! ### Decoding a blob -/

/-- With at most one leaf DECODE reads no payload: it repeats the one symbol that has a code (R112). -/
theorem stageDecode_of_one_leaf {a : Arch} {nleaf : NodeIndex} (ht : TreeWf a.node a.root nleaf)
    (h1 : nleaf.toNat ≤ 1) (hc : a.ocnt.toNat ≤ a.obufCap.toNat) {xs : List Byte}
    (hl : xs.length = a.ocnt.toNat) (hp : ∀ x ∈ xs, ∃ p, codePath a.node a.root x p) :
    stageDecode a = storeDecoded xs a := by
  by_cases hz : a.ocnt = 0
  · have hnil : xs = [] := List.length_eq_zero_iff.mp (by rw [hl, hz]; rfl)
    rw [hnil]
    exact stageDecode_of_empty hz
  · have hne : xs ≠ [] := by
      rintro rfl
      exact hz (BitVec.eq_of_toNat_eq hl.symm)
    obtain ⟨x, hx⟩ := List.exists_mem_of_ne_nil xs hne
    obtain ⟨-, hr, -⟩ := hp x hx
    obtain ⟨hk, -⟩ | ⟨-, h2⟩ := ht.root_kind hr
    · have hall : ∀ y ∈ xs, y = (nodeAt a.node a.root.toNat).sym := by
        intro y hy
        obtain ⟨p, -, ⟨-, hsym, -⟩ | ⟨hinner, -⟩⟩ := hp y hy
        · exact hsym.symm
        · cases hk.symm.trans hinner
      rw [stageDecode_of_leaf hz hc hr hk, ← hl, ← List.eq_replicate_of_mem hall]
    · omega

/-- The DECODE stage stores the symbols whose codes the payload begins with (R110, R142). -/
theorem stageDecode_builtOf {a : Arch} {m : Metadata} {xs : List Byte} {path : Byte → List Bool}
    {rest : List Bool} (hm : parseMetadata a.ibufByte a.ilen.toNat = .accepted m)
    (hc : m.count.toNat ≤ a.obufCap.toNat) (hl : xs.length = m.count.toNat)
    (hp : ∀ x ∈ xs, codePath (mergeAll m.table).1 (rootOf (mergeAll m.table).2) x (path x))
    (hb : (presentSymbols m.table).length ≤ 1 ∨
      bitsOfBytes (builtOf m a).payload = xs.flatMap path ++ rest) :
    stageDecode (builtOf m a) = storeDecoded xs (builtOf m a) := by
  have htree : (builtOf m a).TreeOk := builtOf_tree hm
  have hcoded : ∀ x ∈ xs, ∃ p, codePath (builtOf m a).node (builtOf m a).root x p :=
    fun x hx => ⟨path x, hp x hx⟩
  rcases hb with h1 | hb
  · have hleaf : (builtOf m a).nleaf = BitVec.ofNat 9 (presentSymbols m.table).length :=
      congrArg (BitVec.ofNat 9) (initialLive_length m.table)
    refine stageDecode_of_one_leaf htree ?_ hc hl hcoded
    rwa [hleaf, presentCount_toNat]
  · have hcode : xs.flatMap path = xs.flatMap (stageCodes (builtOf m a)).codeBits :=
      List.flatMap_congr fun x hx => (stageCodes_codeBits htree (hp x hx)).symm
    exact decode_of_packed htree (fun _ _ => stageCodes_codeBits htree) hcoded hc hl (hcode ▸ hb)

/-- Settles O44: the DECODE stage stores the symbols, so DECOMPRESS completes with them (`decompress_stores`). -/
theorem decompressDecodesTheBlob : Obligations.DecompressDecodesTheBlob := by
  intro s m xs path rest he hi hm hfit hc hl hp hb
  obtain ⟨-, -, -, hoff, -⟩ := parseMetadata_accepted hm
  rw [readFrom_drop s.toArch m.offset hoff, ← loaded_payload] at hb
  exact decompress_stores he hi hm hfit hl (stageDecode_builtOf hm hc hl hp hb)

/-! ### The round trip -/

section RoundTrip
variable {a : Arch} (hi : a.ilen.toNat ≤ a.ibufCap.toNat)
include hi

/-- The codes COMPRESS packs are the paths in the tree of the input's counts (R95, R141). -/
theorem codedOf_codePath {b : Byte} (hb : b ∈ a.input) :
    codePath (mergeAll (packedOf a).ft).1 (rootOf (mergeAll (packedOf a).ft).2) b
      ((codedOf a).codeBits b) := by
  have htree := codedOf_tree hi
  obtain ⟨p, hp⟩ := (exists_codePath htree b).mpr
    ((stageCodes_clen_ne_zero htree b).mp (codedOf_codes hi b hb))
  have hcode : (codedOf a).codeBits b = p := stageCodes_codeBits htree hp
  rw [hcode, packedOf_ft hi]
  rw [stageCount_clear hi] at hp
  exact hp

/-- The bits of the payload begin with the codes of the input (R102, R103). -/
theorem codedOf_packedBits : ∃ rest, bitsOfBytes
    (packBits (ceil8 (codedOf a).bitStream.length) (codedOf a).bitStream) =
      a.input.flatMap (codedOf a).codeBits ++ rest := by
  rw [bitsOfBytes_packBits _ _ (length_le_ceil8 _), ← codedOf_input hi]
  exact ⟨_, rfl⟩

/-- The counts COMPRESS serializes sum to the length (R78). -/
theorem packedOf_counts : tableSum (packedOf a).ft = (packedOf a).ocnt.toNat := by
  rw [packedOf_ft hi, packedOf_ocnt hi, tallied_sum]

end RoundTrip

/-- Settles O45: COMPRESS wrote the blob of the input's counts, length and packed codes (`compress_ok`); the blob's
metadata is accepted (`deserialize_of_input`) and its payload decodes to the input (O44). -/
theorem compressDecompressRoundTrip : Obligations.CompressDecompressRoundTrip := by
  intro s t u he _ hx ht hu hin hui hpfit hofit
  obtain ⟨hi, -, hout, (e : t.toArch = complete (compressedOf s.toArch)), hpayload, -⟩ :=
    compress_ok he hx ht
  rw [hout] at hin
  rw [e, complete_plen, compressedOf_plen, ← payload_length] at hpfit
  obtain ⟨hm, hlen, -⟩ := deserialize_of_input hu hin (packedOf_counts hi) hui hpfit
  have hl : s.input.length = (packedOf s.toArch).ocnt.toNat := by rw [packedOf_ocnt hi, input_length]
  obtain ⟨rest, hbits⟩ := codedOf_packedBits hi
  have hdrop : u.input.drop (10 + 9 * (presentSymbols (packedOf s.toArch).ft).length) =
      (packedOf s.toArch).payload := by
    rw [hin, Arch.blob, ← metadataBytes_length, List.drop_left]
  rw [← hpayload, ← hdrop] at hbits
  obtain ⟨v, hx', hdone, -, hvout, holen, -⟩ := decompressDecodesTheBlob u _ s.input
    (codedOf s.toArch).codeBits rest hu hui hm (hlen ▸ hpfit) (by rwa [packedOf_ocnt hi]) hl
    (fun _ => codedOf_codePath hi) (.inr hbits)
  exact ⟨v, hx', err_of_status hdone, hvout, holen.trans (packedOf_ocnt hi)⟩

end Sys2Proof.Machine
end

section
/-!
PROOF. O4, O5, O48, O49: error entry (R158), the commands and accesses ignored while an error is on record (R160), and
that every step answers (R167, R186). The error entry is `raiseError`; that a unit command which does not complete
leaves just that is said once by `unit_completes_or_raises`.
-/

namespace Sys2Proof.Machine

/-! ### How a unit command ends -/

/-- A unit command that executes completes, or leaves just the error entry of an error it can raise (R157, R158). -/
theorem unit_completes_or_raises {i : Instr} (hi : isUnit i) {s t : State} (he : s.err = false)
    (hx : exec i s = .next t) :
    completesFrom t.toArch s.toArch ∨
      ∃ k n, canRaise i k = true ∧ t.toArch = raiseError i k n s.toArch := by
  obtain ⟨h1, h2, h3⟩ := hi
  rw [exec_arch h1 he hx]
  rcases body_cases h1 h2 h3 s.toArch with ⟨k, n, hk, e⟩ | ⟨hstatus, hcode, hinfo, hcmd⟩
  · exact .inr ⟨k, n, hk, by rw [e, complete_raiseError]⟩
  · exact .inl (completesFrom_complete ((err_congr hstatus).trans he) hcode hinfo hcmd)

/-- BUILD and CODES raise nothing (R151). -/
theorem not_buildOrCodes_of_canRaise {i : Instr} {k : ErrorKind} (h : canRaise i k = true) :
    i ≠ .build ∧ i ≠ .codes := by
  constructor <;> (rintro rfl; cases h)

/-- Settles O48: the two ends of a unit command. -/
theorem commandsCompleteOrRaise : Obligations.CommandsCompleteOrRaise := by
  intro i s t h1 h2 h3 he hx
  refine (unit_completes_or_raises ⟨h1, h2, h3⟩ he hx).imp_right ?_
  rintro ⟨k, n, hk, e⟩
  refine ⟨k, n, hk, ?_, e⟩
  rw [e]
  exact raiseError_raised i k n s.toArch

/-- Settles O49: a command with `ERR = 1` has not completed, so it left the error entry, whose destinations
`clearDestinations` lists. -/
theorem errorEntryClearsDestinations : Obligations.ErrorEntryClearsDestinations := by
  intro i s t h1 h2 h3 he hx ht
  rcases unit_completes_or_raises ⟨h1, h2, h3⟩ he hx with hdone | ⟨k, n, hk, e⟩
  · rw [err_of_status hdone.1] at ht
    cases ht
  · obtain ⟨hbuild, hcodes⟩ := not_buildOrCodes_of_canRaise hk
    rw [e]
    refine ⟨⟨k, n, hk, raiseError_raised i k n s.toArch⟩, ?count, ?pack, ?serialize,
      ?deserialize, ?decode, hbuild, hcodes⟩
    case count => rintro rfl; exact ⟨tableGet_emptyTable, rfl, rfl⟩
    case deserialize => rintro rfl; exact ⟨tableGet_emptyTable, rfl⟩
    all_goals
      rintro rfl
      rfl

/-! ### While an error is on record -/

/-- While `ERR = 1` a write to `CMD` other than CLEAR's is acknowledged and does nothing else (R160). -/
theorem step_command_of_err {s : State} {v : Word64} {rest : List HostAccess}
    (hp : s.pending = .write 0 0 v :: rest) (he : s.err = true) (hv : v.setWidth 8 ≠ (0x01 : Byte)) :
    step s = .next { s with pending := rest, reply := .ack } := by
  rw [step_command hp]
  exact issueCommand_of_err he hv

/-- While `ERR = 1` a step that is no reset and no CLEAR changes at most `IBUF` and `ILEN` (R160). -/
theorem step_frame_of_err {s t : State} (he : s.err = true) (hst : step s = .next t) :
    (∃ rest, s.pending = .reset :: rest ∨
      ∃ v : Word64, v.setWidth 8 = (0x01 : Byte) ∧ s.pending = .write 0 0 v :: rest) ∨
    t.toArch = { s.toArch with ibuf := t.ibuf, ilen := t.ilen } := by
  cases hp : s.pending with
  | nil =>
    rw [step_idle hp] at hst
    cases hst
    exact .inr rfl
  | cons access rest =>
    cases access with
    | reset => exact .inl ⟨rest, .inl rfl⟩
    | read id k =>
      rw [step_read hp] at hst
      cases hst
      right
      rw [hostRead_arch]
    | write id k v =>
      by_cases hcmd : id = 0 ∧ k = 0
      · obtain ⟨rfl, rfl⟩ := hcmd
        by_cases hv : v.setWidth 8 = (0x01 : Byte)
        · exact .inl ⟨rest, .inr ⟨v, hv, rfl⟩⟩
        · rw [step_command_of_err hp he hv] at hst
          cases hst
          exact .inr rfl
      · exact .inr (hostWritesReachOnlyInput.2 s t id k v rest hp hcmd hst).1

/-- Settles O4: the commands by `exec_of_err`, the accesses by their rules, and the error on record is in neither
`IBUF` nor `ILEN`. -/
theorem onlyClearActsWhileErr : Obligations.OnlyClearActsWhileErr := by
  intro s he
  refine ⟨fun i => exec_of_err he,
    fun v rest hp hv => ⟨_, step_command_of_err hp he hv, rfl, rfl, rfl⟩,
    fun k v rest hp hk => ⟨_, step_write_ibuf hp hk, Memory.read_put_same,
      fun j hj => Memory.read_put_other hj, rfl⟩,
    fun v rest hp => ⟨_, step_write_ilen hp, rfl⟩, fun id k rest => step_read, fun t hst => ?_⟩
  refine (step_frame_of_err he hst).imp_right fun e => ?_
  rw [e]
  exact ⟨rfl, rfl, rfl, rfl⟩

/-! ### Every step answers -/

theorem exists_exec (i : Instr) (s : State) : ∃ t, exec i s = .next t := by
  by_cases h : s.err = false ∨ i = .clear
  · exact ⟨_, exec_of_ok h⟩
  · obtain ⟨he, hi⟩ := not_or.mp h
    exact ⟨_, exec_of_err (Bool.eq_true_of_not_eq_false he) hi⟩

theorem exists_issueCommand (op : Byte) (s : State) : ∃ t, issueCommand op s = .next t := by
  cases hd : decodeByte op with
  | command i =>
    rw [issueCommand_of_command hd]
    exact exists_exec i s
  | reserved b =>
    rw [issueCommand_of_reserved hd]
    cases he : s.err with
    | true => exact ⟨_, issueReserved_of_err he⟩
    | false => exact ⟨_, issueReserved_of_ok he⟩

/-- A write reaches `CMD`, a byte of `IBUF`, `ILEN`, or nothing (R57, R58); each of the four answers. -/
theorem exists_step_write {s : State} {id : SpaceId} {k : Nat} {v : Word64} {rest : List HostAccess}
    (hp : s.pending = .write id k v :: rest) : ∃ t, step s = .next t := by
  by_cases hcmd : id = 0 ∧ k = 0
  · obtain ⟨rfl, rfl⟩ := hcmd
    rw [step_command hp]
    exact exists_issueCommand _ _
  by_cases hib : id = 1 ∧ k < s.ibufCap.toNat
  · obtain ⟨rfl, hk⟩ := hib
    exact ⟨_, step_write_ibuf hp hk⟩
  by_cases hil : id = 0 ∧ k = 5
  · obtain ⟨rfl, rfl⟩ := hil
    exact ⟨_, step_write_ilen hp⟩
  · obtain ⟨r, hstep⟩ := step_write_ignored hp (fun h => Nat.not_lt.mp fun hk => hib ⟨h, hk⟩)
      (fun h => ⟨fun hk => hcmd ⟨h, hk⟩, fun hk => hil ⟨h, hk⟩⟩)
    exact ⟨_, hstep⟩

theorem exists_step (s : State) : ∃ t, step s = .next t := by
  cases hp : s.pending with
  | nil => exact ⟨_, step_idle hp⟩
  | cons access rest =>
    cases access with
    | read id k => exact ⟨_, step_read hp⟩
    | write id k v => exact exists_step_write hp
    | reset => exact ⟨_, step_reset hp⟩

/-- Settles O5: whatever the next access is, the step that takes it answers. -/
theorem stepAlwaysAnswers : Obligations.StepAlwaysAnswers :=
  ⟨exists_step, exists_exec, fun _ => step_idle⟩

end Sys2Proof.Machine
end
